-- ==== Sys2Proof/Word.lean ====
section
/-! DEFINITION. The word types of the block (00_scope.md R4, R7) and the base of its number system. -/

namespace Sys2Proof

/-- One limb: a 32-bit unsigned digit, LIMB_BITS = 32 (R4, R10). A limb is one number, never four bytes (R32). -/
abbrev Limb := BitVec 32

/-- One byte of the character buffer CBUF (R22). -/
abbrev Byte := BitVec 8

/-- The 32-bit immediate field IMM of a command word (R45, R47). -/
abbrev Imm := BitVec 32

/-- One 64-bit command word, the only instruction length there is (R45, R51). -/
abbrev CmdWord := BitVec 64

/-- The number base of a limb array, `2^32` (R4). -/
abbrev limbBase : Nat := 4294967296

end Sys2Proof
end

