-- ==== Sys2Proof/Syntax.lean ====
section
/-! DEFINITION. The fifteen commands of command set BIC-1 (30_encoding.md R46, R49), one constructor for each row of
the opcode table. A slot operand is a slot index, a plain number; an immediate is the 32-bit field IMM. -/

namespace Sys2Proof

/-- One command with its operands, in the order of the assembler form (R52): destination `d`, sources `a` and `b`,
then the immediate. -/
inductive Instr where
  /-- `ALLOC sD` (R63) -/
  | alloc (d : Nat)
  /-- `RESET sD` (R64) -/
  | reset (d : Nat)
  /-- `RELEASE sD` (R65) -/
  | release (d : Nat)
  /-- `ADDS sD, #v` (R75) -/
  | adds (d : Nat) (v : Imm)
  /-- `MULS sD, #m` (R76) -/
  | muls (d : Nat) (m : Imm)
  /-- `DIVS sD, sA, #v` (R77) -/
  | divs (d a : Nat) (v : Imm)
  /-- `ADDV sD, sA, sB` (R90) -/
  | addv (d a b : Nat)
  /-- `SHL sD, #k` (R96) -/
  | shl (d : Nat) (k : Imm)
  /-- `SHR sD, #k` (R98) -/
  | shr (d : Nat) (k : Imm)
  /-- `FROMDEC sD, #len` (R105) -/
  | fromdec (d : Nat) (len : Imm)
  /-- `TODEC sA, #cap` (R106) -/
  | todec (a : Nat) (capBytes : Imm)
  /-- `EQS sA, #v` (R115) -/
  | eqs (a : Nat) (v : Imm)
  /-- `DCOPY sD, sA` (R116) -/
  | dcopy (d a : Nat)
  /-- `RDSZ sA` (R117) -/
  | rdsz (a : Nat)
  /-- `RDL sA, #idx` (R118) -/
  | rdl (a : Nat) (idx : Imm)
  deriving DecidableEq, Repr

/-- The slot indices a command uses, in the order RD, RA, RB (the used slot fields of R46). -/
def Instr.slotFields : Instr → List Nat
  | .alloc d => [d]
  | .reset d => [d]
  | .release d => [d]
  | .adds d _ => [d]
  | .muls d _ => [d]
  | .divs d a _ => [d, a]
  | .addv d a b => [d, a, b]
  | .shl d _ => [d]
  | .shr d _ => [d]
  | .fromdec d _ => [d]
  | .todec a _ => [a]
  | .eqs a _ => [a]
  | .dcopy d a => [d, a]
  | .rdsz a => [a]
  | .rdl a _ => [a]

end Sys2Proof
end

