-- ==== Sys2Proof/WellFormed.lean ====
section
/-! DEFINITION. Which commands have an encoding: every slot index fits its 8-bit field (30_encoding.md R48, R52). The
immediate needs no check, its type is the field. -/

namespace Sys2Proof

/-- The number of values of an 8-bit slot field (R48: an unsigned index 0 to 255). -/
abbrev slotFieldLimit : Nat := 256

/-- A command is well-formed when each slot index it uses is one an 8-bit field can hold (R48, R52). Whether the slot
exists, that is, lies below NSLOTS, is no matter of form: it is checked when the command runs and raises BadSlot. -/
def Instr.wf (i : Instr) : Bool :=
  i.slotFields.all fun n => decide (n < slotFieldLimit)

end Sys2Proof
end

