-- ==== Sys2Proof/Decode.lean ====
section
/-! DEFINITION. The decoder and the encoder of the one command format C64 (30_encoding.md R45 to R52). -/

namespace Sys2Proof

/-! ### Fields of a command word (R45) -/

/-- IMM, bits 63:32: taken as it stands, neither extended, scaled nor shifted (R47). -/
def immField (w : CmdWord) : Imm := w.extractLsb' 32 32

/-- OP, bits 31:24. -/
def opField (w : CmdWord) : Byte := w.extractLsb' 24 8

/-- RD, bits 23:16. -/
def rdField (w : CmdWord) : Byte := w.extractLsb' 16 8

/-- RA, bits 15:8. -/
def raField (w : CmdWord) : Byte := w.extractLsb' 8 8

/-- RB, bits 7:0. -/
def rbField (w : CmdWord) : Byte := w.extractLsb' 0 8

/-- A slot field as a slot index: an unsigned number 0 to 255 (R48). -/
def slotIndex (f : Byte) : Nat := f.toNat

/-! ### The opcode map (R49) -/

/-- One row of the opcode map: a word `w` is this row's command exactly when `w AND mask = pattern`. -/
structure OpRow where
  /-- The row's `match` column: OP, and zero in every unused field. -/
  pattern : CmdWord
  /-- The row's `mask` column: ones over OP and over every unused field. -/
  mask : CmdWord
  /-- The command a matching word stands for. -/
  build : CmdWord → Instr

/-- Does the word match the row (R49)? -/
def OpRow.accepts (r : OpRow) (w : CmdWord) : Bool := w &&& r.mask == r.pattern

/-- ALLOC, RESET, RELEASE: the Limb Store group 0x0_ of R49. -/
def limbStoreRows : List OpRow :=
  [ ⟨0x0000000001000000#64, 0xFFFFFFFFFF00FFFF#64, fun w => .alloc (slotIndex (rdField w))⟩,
    ⟨0x0000000002000000#64, 0xFFFFFFFFFF00FFFF#64, fun w => .reset (slotIndex (rdField w))⟩,
    ⟨0x0000000003000000#64, 0xFFFFFFFFFF00FFFF#64, fun w => .release (slotIndex (rdField w))⟩ ]

/-- ADDS, MULS, DIVS, ADDV: the arithmetic group 0x1_ of R49. -/
def arithmeticRows : List OpRow :=
  [ ⟨0x0000000010000000#64, 0x00000000FF00FFFF#64, fun w => .adds (slotIndex (rdField w)) (immField w)⟩,
    ⟨0x0000000011000000#64, 0x00000000FF00FFFF#64, fun w => .muls (slotIndex (rdField w)) (immField w)⟩,
    ⟨0x0000000012000000#64, 0x00000000FF0000FF#64,
      fun w => .divs (slotIndex (rdField w)) (slotIndex (raField w)) (immField w)⟩,
    ⟨0x0000000018000000#64, 0xFFFFFFFFFF000000#64,
      fun w => .addv (slotIndex (rdField w)) (slotIndex (raField w)) (slotIndex (rbField w))⟩ ]

/-- SHL, SHR: the Shift Engine group 0x2_ of R49. -/
def shiftRows : List OpRow :=
  [ ⟨0x0000000020000000#64, 0x00000000FF00FFFF#64, fun w => .shl (slotIndex (rdField w)) (immField w)⟩,
    ⟨0x0000000021000000#64, 0x00000000FF00FFFF#64, fun w => .shr (slotIndex (rdField w)) (immField w)⟩ ]

/-- FROMDEC, TODEC: the Decimal Codec group 0x3_ of R49. -/
def codecRows : List OpRow :=
  [ ⟨0x0000000030000000#64, 0x00000000FF00FFFF#64, fun w => .fromdec (slotIndex (rdField w)) (immField w)⟩,
    ⟨0x0000000031000000#64, 0x00000000FFFF00FF#64, fun w => .todec (slotIndex (raField w)) (immField w)⟩ ]

/-- EQS, DCOPY, RDSZ, RDL: the equality, copy and inspect group 0x4_ of R49. OP 0x42 has no row (R50, R119). -/
def inspectRows : List OpRow :=
  [ ⟨0x0000000040000000#64, 0x00000000FFFF00FF#64, fun w => .eqs (slotIndex (raField w)) (immField w)⟩,
    ⟨0x0000000041000000#64, 0xFFFFFFFFFF0000FF#64,
      fun w => .dcopy (slotIndex (rdField w)) (slotIndex (raField w))⟩,
    ⟨0x0000000048000000#64, 0xFFFFFFFFFFFF00FF#64, fun w => .rdsz (slotIndex (raField w))⟩,
    ⟨0x0000000049000000#64, 0x00000000FFFF00FF#64, fun w => .rdl (slotIndex (raField w)) (immField w)⟩ ]

/-- The whole opcode map, fifteen rows (R49). -/
def opTable : List OpRow :=
  limbStoreRows ++ arithmeticRows ++ shiftRows ++ codecRows ++ inspectRows

/-! ### Decoding -/

/-- Why a word is illegal (R50). The machine reports all three as IllegalOperation. -/
inductive DecodeReject where
  /-- OP is in the table and a field the command does not use holds a nonzero bit. -/
  | unusedFieldNonzero
  /-- OP 0x42, reserved for the shallow copy this hardware does not provide (R119). -/
  | reservedShallowCopy
  /-- OP is none of the table's fifteen and not 0x42. -/
  | unknownOpcode
  deriving DecidableEq, Repr

/-- The reason a word that matches no row is illegal. -/
def rejectReason (w : CmdWord) : DecodeReject :=
  if opTable.any fun r => opField w == opField r.pattern then .unusedFieldNonzero
  else if opField w = 0x42#8 then .reservedShallowCopy
  else .unknownOpcode

/-- Decode one command word: total, by the rows of R49, rejecting by name every word that matches none (R50). -/
def decode (w : CmdWord) : Except DecodeReject Instr :=
  match opTable.find? fun r => r.accepts w with
  | some r => .ok (r.build w)
  | none => .error (rejectReason w)

/-- The instruction the decoder reads from a word of the opcode table. The table numbers bits from the least
significant bit of the one 64-bit word, as R45 does, and the word is delivered whole, so no byte order comes in. Bits
at `nbits` and above are zero. -/
def decodeTableWord (nbits w : Nat) : Option Instr :=
  match decode (BitVec.ofNat 64 (w % 2 ^ nbits)) with
  | .ok i => some i
  | .error _ => none

/-! ### Encoding -/

/-- A command word from its fields, most significant first (R45; R52: `IMM * 2^32 + OP * 2^24 + RD * 2^16 + RA * 2^8 + RB`). -/
def packC64 (imm : Imm) (op rd ra rb : Byte) : CmdWord := imm ++ op ++ rd ++ ra ++ rb

/-- A slot index as an 8-bit slot field. -/
def slotByte (n : Nat) : Byte := BitVec.ofNat 8 n

/-- The word of a well-formed command: the fields R46 marks as used, zero in the others. -/
def encode : Instr → CmdWord
  | .alloc d => packC64 0 0x01#8 (slotByte d) 0 0
  | .reset d => packC64 0 0x02#8 (slotByte d) 0 0
  | .release d => packC64 0 0x03#8 (slotByte d) 0 0
  | .adds d v => packC64 v 0x10#8 (slotByte d) 0 0
  | .muls d m => packC64 m 0x11#8 (slotByte d) 0 0
  | .divs d a v => packC64 v 0x12#8 (slotByte d) (slotByte a) 0
  | .addv d a b => packC64 0 0x18#8 (slotByte d) (slotByte a) (slotByte b)
  | .shl d k => packC64 k 0x20#8 (slotByte d) 0 0
  | .shr d k => packC64 k 0x21#8 (slotByte d) 0 0
  | .fromdec d len => packC64 len 0x30#8 (slotByte d) 0 0
  | .todec a capBytes => packC64 capBytes 0x31#8 0 (slotByte a) 0
  | .eqs a v => packC64 v 0x40#8 0 (slotByte a) 0
  | .dcopy d a => packC64 0 0x41#8 (slotByte d) (slotByte a) 0
  | .rdsz a => packC64 0 0x48#8 0 (slotByte a) 0
  | .rdl a idx => packC64 idx 0x49#8 0 (slotByte a) 0

/-! ### Assembler form (R52) -/

/-- One operand of the assembler form: `s<n>` or `#<n>` (R52). -/
inductive AsmOperand where
  /-- a slot operand `s<n>` -/
  | slot (n : Nat)
  /-- an immediate `#<n>` -/
  | imm (n : Nat)
  deriving DecidableEq, Repr

/-- The mnemonic and the operands of a command, in the order destination, sources, immediate; unused fields are not
written (R52). -/
def Instr.asm : Instr → String × List AsmOperand
  | .alloc d => ("ALLOC", [.slot d])
  | .reset d => ("RESET", [.slot d])
  | .release d => ("RELEASE", [.slot d])
  | .adds d v => ("ADDS", [.slot d, .imm v.toNat])
  | .muls d m => ("MULS", [.slot d, .imm m.toNat])
  | .divs d a v => ("DIVS", [.slot d, .slot a, .imm v.toNat])
  | .addv d a b => ("ADDV", [.slot d, .slot a, .slot b])
  | .shl d k => ("SHL", [.slot d, .imm k.toNat])
  | .shr d k => ("SHR", [.slot d, .imm k.toNat])
  | .fromdec d len => ("FROMDEC", [.slot d, .imm len.toNat])
  | .todec a capBytes => ("TODEC", [.slot a, .imm capBytes.toNat])
  | .eqs a v => ("EQS", [.slot a, .imm v.toNat])
  | .dcopy d a => ("DCOPY", [.slot d, .slot a])
  | .rdsz a => ("RDSZ", [.slot a])
  | .rdl a idx => ("RDL", [.slot a, .imm idx.toNat])

/-- One operand as text: `s12`, `#10` (R52; the decimal form of an immediate). -/
def AsmOperand.text : AsmOperand → String
  | .slot n => "s" ++ toString n
  | .imm n => "#" ++ toString n

/-- A command as one line of assembler text, `MNEMONIC operand, operand, ...` (R52). -/
def Instr.text (i : Instr) : String :=
  i.asm.1 ++ " " ++ String.intercalate ", " (i.asm.2.map AsmOperand.text)

/-- A slot operand of the assembler is in range 0 to 255, an immediate 0 to 2^32 - 1 (R52). -/
def AsmOperand.inRange : AsmOperand → Bool
  | .slot n => decide (n < slotFieldLimit)
  | .imm n => decide (n < 2 ^ 32)

/-- The command whose operands have the shape of the mnemonic's row of R52, whatever their range. -/
def assembleShape : String → List AsmOperand → Option Instr
  | "ALLOC", [.slot d] => some (.alloc d)
  | "RESET", [.slot d] => some (.reset d)
  | "RELEASE", [.slot d] => some (.release d)
  | "ADDS", [.slot d, .imm v] => some (.adds d (BitVec.ofNat 32 v))
  | "MULS", [.slot d, .imm m] => some (.muls d (BitVec.ofNat 32 m))
  | "DIVS", [.slot d, .slot a, .imm v] => some (.divs d a (BitVec.ofNat 32 v))
  | "ADDV", [.slot d, .slot a, .slot b] => some (.addv d a b)
  | "SHL", [.slot d, .imm k] => some (.shl d (BitVec.ofNat 32 k))
  | "SHR", [.slot d, .imm k] => some (.shr d (BitVec.ofNat 32 k))
  | "FROMDEC", [.slot d, .imm n] => some (.fromdec d (BitVec.ofNat 32 n))
  | "TODEC", [.slot a, .imm n] => some (.todec a (BitVec.ofNat 32 n))
  | "EQS", [.slot a, .imm v] => some (.eqs a (BitVec.ofNat 32 v))
  | "DCOPY", [.slot d, .slot a] => some (.dcopy d a)
  | "RDSZ", [.slot a] => some (.rdsz a)
  | "RDL", [.slot a, .imm n] => some (.rdl a (BitVec.ofNat 32 n))
  | _, _ => none

/-- Assemble one line: mnemonic in upper case, operands in R52's order and in R52's ranges. There are no
pseudo-instructions (R53): no other mnemonic assembles. -/
def assemble (mnemonic : String) (ops : List AsmOperand) : Option Instr :=
  if ops.all AsmOperand.inRange then assembleShape mnemonic ops else none

/-! ### Assembler text (R52) -/

/-- The number a digit character stands for, decimal or hexadecimal. -/
def digitOfChar (c : Char) : Option Nat :=
  if '0'.toNat ≤ c.toNat ∧ c.toNat ≤ '9'.toNat then some (c.toNat - '0'.toNat)
  else if 'A'.toNat ≤ c.toNat ∧ c.toNat ≤ 'F'.toNat then some (c.toNat - 'A'.toNat + 10)
  else if 'a'.toNat ≤ c.toNat ∧ c.toNat ≤ 'f'.toNat then some (c.toNat - 'a'.toNat + 10)
  else none

/-- The number a run of digits denotes after the number `acc` read so far. -/
def numberFrom (base : Nat) : (acc : Nat) → List Char → Option Nat
  | acc, [] => some acc
  | acc, c :: cs =>
    match digitOfChar c with
    | some d => if d < base then numberFrom base (base * acc + d) cs else none
    | none => none

/-- A number of at least one digit. -/
def numberOf (base : Nat) : List Char → Option Nat
  | [] => none
  | c :: cs => numberFrom base 0 (c :: cs)

/-- One operand: `s<n>`, `#<decimal>` or `#0x<hex>` (R52). -/
def AsmOperand.ofChars : List Char → Option AsmOperand
  | 's' :: cs => (numberOf 10 cs).map .slot
  | '#' :: '0' :: 'x' :: cs => (numberOf 16 cs).map .imm
  | '#' :: cs => (numberOf 10 cs).map .imm
  | _ => none

/-- The operands of a line, separated by a comma and a space; `piece` is the operand being read, reversed. -/
def splitOperands : (piece : List Char) → List Char → List (List Char)
  | piece, [] => [piece.reverse]
  | piece, ',' :: ' ' :: cs => piece.reverse :: splitOperands [] cs
  | piece, c :: cs => splitOperands (c :: piece) cs

/-- Every operand of a list, or none when one is no operand. -/
def operandsOf : List (List Char) → Option (List AsmOperand)
  | [] => some []
  | cs :: rest =>
    match AsmOperand.ofChars cs, operandsOf rest with
    | some o, some os => some (o :: os)
    | _, _ => none

/-- The command word of one line of assembler text, `MNEMONIC operand, operand, ...` (R52). -/
def assembleText (line : String) : Option CmdWord :=
  let chars := line.toList
  match operandsOf (splitOperands [] ((chars.dropWhile (· != ' ')).drop 1)) with
  | some ops => (assemble (String.ofList (chars.takeWhile (· != ' '))) ops).map encode
  | none => none

end Sys2Proof
end

