-- ==== Sys2Proof/Config.lean ====
section
/-! DEFINITION. What is fixed for a run: the constants the spec fixes (00_scope.md R4), the parameters it leaves open
(R5), and the free values, which nothing in Lean can evaluate (93_implementation_defined.md U13, U14). -/

namespace Sys2Proof

/-- INIT_CAP: the capacity in limbs of a fresh BigInt (R4). -/
abbrev initCap : Nat := 16

/-- SHIFT_MAX: the largest legal shift amount (R4, R101). -/
abbrev shiftMax : Nat := 31

/-- The open parameters of R5. They are fixed before reset and no step changes them (R25, R151). -/
structure Params where
  /-- NSLOTS: how many slots the slot file has. -/
  nslots : Nat
  /-- CAP_MAX: the largest capacity one slot can reach. `none` is the spec's CAP_MAX = ∞. -/
  capMax : Option Nat
  /-- CBUF_BYTES: the size in bytes of the character buffer. -/
  cbufBytes : Nat
  deriving DecidableEq, Repr

/-- A capacity a LIVE slot can have: `16 * 2^j` (R17). -/
def isCapacity (c : Nat) : Prop := ∃ j, c = initCap * 2 ^ j

/-- The constraints R5 puts on the parameters. -/
structure Params.ok (p : Params) : Prop where
  /-- 1 ≤ NSLOTS ≤ 256 -/
  slots : 1 ≤ p.nslots ∧ p.nslots ≤ 256
  /-- CAP_MAX is ∞, or `16 * 2^j` and at most `2^31` -/
  cap : ∀ c, p.capMax = some c → isCapacity c ∧ c ≤ 2 ^ 31
  /-- 1 ≤ CBUF_BYTES ≤ 2^32 - 1 -/
  cbuf : 1 ≤ p.cbufBytes ∧ p.cbufBytes ≤ 2 ^ 32 - 1

/-- FREE VALUE (assumption log entry 3). The byte that draw number `n` puts at CBUF address `a`, where the spec says
that CBUF bytes hold any value: after reset, and after TODEC's BufferTooSmall (U13). -/
opaque Config.freeByte (n a : Nat) : Byte

/-- FREE VALUE (assumption log entry 4). The `size` that draw number `n` leaves in the slot that was being grown when
AllocationFailure struck (R130, U14). AllocationFailure needs a finite CAP_MAX, so `size` is the 32-bit register of R5. -/
opaque Config.freeSize (n : Nat) : BitVec 32

/-- FREE VALUE (assumption log entry 4). The `cap` left in that slot (R130, U14). -/
opaque Config.freeCap (n : Nat) : BitVec 32

/-- FREE VALUE (assumption log entry 4). Limb `i` left in that slot (R130, U14). -/
opaque Config.freeLimb (n i : Nat) : Limb

end Sys2Proof
end

