-- ==== Sys2Proof/Machine/ResetParams.lean ====
section
/-! DEFINITION. The parameter values of the machine State.reset describes. The spec leaves them open (00_scope.md R5) and
gives no default; every statement of this package is about a state with any parameters. DESIGN CHOICE, assumption log
entry 1. -/

namespace Sys2Proof.Machine

/-- The largest machine R5 admits with size and capacity registers of 32 bits: every 8-bit slot field names a slot,
every 32-bit length fits CBUF, and a slot can grow to `2^31` limbs (DESIGN CHOICE, log entry 1). -/
def resetParams : Params where
  nslots := 256
  capMax := some (2 ^ 31)
  cbufBytes := 2 ^ 32 - 1

end Sys2Proof.Machine
end

