-- ==== Sys2Proof/Machine/State.lean ====
section
/-! DEFINITION. The state of the block as plain data (10_state.md R10 to R26), the host actions that drive it
(70_reset_and_hazards.md R152), and the reasons a step can stop. -/

namespace Sys2Proof.Machine

/-- One slot: the record of R10. EMPTY and LIVE are told apart by `cap` (R12). `size` and `cap` are counts, held as
mathematical integers because CAP_MAX may be ∞ (R5, U20); with a finite CAP_MAX they fit the 32-bit registers. -/
structure Slot where
  /-- count of significant limbs, the guard included; 0 when EMPTY -/
  size : Nat
  /-- how many limbs the slot has; 0 when EMPTY -/
  cap : Nat
  /-- the limbs, index 0 the least significant (R31); `cap` of them -/
  limbs : List Limb
  deriving DecidableEq, Repr

/-- The EMPTY slot: size 0, capacity 0, no limbs (R12). -/
def Slot.empty : Slot where
  size := 0
  cap := 0
  limbs := []

/-- The twelve faults a command can end in (60_exceptions.md R126). Each is a value of STATUS.ERR, reported in a next
state; none of them stops the model. -/
inductive ErrCode where
  /-- 0x01, fatal: a growth would pass CAP_MAX -/
  | allocationFailure
  /-- 0x02: the decimal string holds a non-digit -/
  | invalidDigitCharacter
  /-- 0x03: shift amount of 32 or more -/
  | shiftAmountOutOfRange
  /-- 0x04: DCOPY destination or TODEC buffer too small -/
  | bufferTooSmall
  /-- 0x05: a used slot is EMPTY -/
  | useAfterRelease
  /-- 0x06: destination equal to a source, in ADDV or DIVS -/
  | operandAlias
  /-- 0x07: DIVS by zero -/
  | divideByZero
  /-- 0x08: ALLOC of a LIVE slot -/
  | slotInUse
  /-- 0x09: a slot field of NSLOTS or more -/
  | badSlot
  /-- 0x0A: the word matches no opcode row -/
  | illegalOperation
  /-- 0x0B: IMM above CBUF_BYTES, in FROMDEC or TODEC -/
  | stringOutOfRange
  /-- 0x0C: RDL index of `size` or more -/
  | indexOutOfRange
  deriving DecidableEq, Repr

/-- What the host can do to the block: the table of R152, nothing else. -/
inductive HostAction where
  /-- assert reset (R150) -/
  | assertReset
  /-- present a command word -/
  | present (w : CmdWord)
  /-- read STATUS -/
  | readStatus
  /-- read RES0 -/
  | readRes0
  /-- read RES1 -/
  | readRes1
  /-- read CBUF[i] -/
  | readCbuf (i : Nat)
  /-- write CBUF[i] -/
  | writeCbuf (i : Nat) (b : Byte)
  deriving DecidableEq, Repr

/-- What a host read gives the host (R152, the column "what the host gets"). -/
inductive HostRead where
  /-- the 32-bit value of STATUS -/
  | status (v : BitVec 32)
  /-- the 32-bit value of RES0 -/
  | res0 (v : BitVec 32)
  /-- the 32-bit value of RES1 -/
  | res1 (v : BitVec 32)
  /-- a byte of CBUF and its index -/
  | cbufByte (i : Nat) (b : Byte)
  deriving DecidableEq, Repr

/-- The character memory: address and byte of every CBUF cell that has been written, addresses strictly rising. An
address not listed has no value of its own (see `State.cbufByte`; log entry 3). -/
abbrev Memory := List Host.Cell

/-- The whole state. -/
structure State where
  /-- the parameters NSLOTS, CAP_MAX, CBUF_BYTES (R5): an argument of the model, which no step changes (log entry 1) -/
  params : Params
  /-- the slot file `x[0]` to `x[NSLOTS-1]` (R10) -/
  slots : List Slot
  /-- STATUS.ERR (R20): `none` is code 0x00, OK -/
  err : Option ErrCode
  /-- STATUS.HALT (R20, R130) -/
  halt : Bool
  /-- STATUS.BUSY (R20); a step begins and ends idle, so it stays false (R154) -/
  busy : Bool
  /-- RES0 (R21) -/
  res0 : BitVec 32
  /-- RES1 (R21) -/
  res1 : BitVec 32
  /-- CBUF (R22): the bytes written since reset -/
  cbuf : Memory
  /-- the model's own field: the draw the unlisted bytes of CBUF come from (log entry 3) -/
  cbufDraw : Nat
  /-- the model's own field: the number of the next draw of free values (log entries 3 and 4) -/
  draws : Nat
  /-- the model's own field: the actions the host has yet to make, the next one first (R19, R152; log entry 2) -/
  host : List HostAction
  /-- the model's own field: what the host's reads have given it, the latest first (R152; log entry 2) -/
  hostGot : List HostRead
  deriving DecidableEq, Repr

/-- Why the machine stops: an access to a place the spec says does not exist. -/
inductive Fault where
  /-- Raised by a host read or write of CBUF[i] with i ≥ CBUF_BYTES: "A host access to an address ≥ CBUF_BYTES does not
  exist" (R36; U12). Safe: the model stops where the spec gives the host no such move. -/
  | noSuchCbufByte
  deriving DecidableEq, Repr

/-- Why the model gives a step no meaning. -/
inductive Refusal where
  /-- An instruction exec does not model yet, by its mnemonic. No arm of exec uses it. Safe: nothing can be proved of
  such a step. -/
  | notModelled (mnemonic : String)
  /-- Raised by any host action but reset and a STATUS read while STATUS.BUSY is 1: "What the block would do if the host
  did these is not specified" (R152, U12). No state with BUSY = 1 is reachable (R154). Safe: the model stops where the
  spec gives no behaviour. -/
  | hostActionWhileBusy
  /-- Raised by RDSZ of a slot whose size or capacity exceeds 2^32 - 1: with CAP_MAX = ∞ a model "refuses RDSZ once
  either exceeds 2^32 - 1" (U20, D31). Cannot happen with a finite CAP_MAX. Safe: the model stops where the spec says a
  model refuses. -/
  | sizeBeyondRegister
  deriving DecidableEq, Repr

/-- The reset state of a machine with the given parameters (R26): every slot EMPTY, STATUS, RES0 and RES1 zero, no byte
of CBUF with a known value. The model's own fields start with no draw made but the one CBUF starts from, and a host that
has not acted (DESIGN CHOICE, log entries 2 and 3). -/
def State.resetWith (p : Params) : State where
  params := p
  slots := List.replicate p.nslots Slot.empty
  err := none
  halt := false
  busy := false
  res0 := 0
  res1 := 0
  cbuf := []
  cbufDraw := 0
  draws := 1
  host := []
  hostGot := []

/-- The machine right after reset (R26), with the parameters of log entry 1. -/
def State.reset : State := State.resetWith resetParams

end Sys2Proof.Machine
end

