-- ==== Sys2Proof/Machine/Ops.lean ====
section
/-! DEFINITION. The named operations over slots, the growth procedures of the Limb Store (40_limb_store.md R60 to R62),
the character buffer, and the ends of a command: completion, fault entry and reset (60_exceptions.md R129 to R131,
70_reset_and_hazards.md R150). -/

namespace Sys2Proof.Machine

/-! ### A slot's limbs (R8, R10 to R12) -/

/-- `x[s].limb[i]`, legal for `i < cap` (R8); no command reads a limb that does not exist (R36), and such a read is 0. -/
def Slot.limb (x : Slot) (i : Nat) : Limb := x.limbs.getD i 0

/-- `x[s].limb[i] <- v`, legal for `i < cap` (R8); no command writes a limb that does not exist (R36). -/
def Slot.setLimb (x : Slot) (i : Nat) (v : Limb) : Slot := { x with limbs := x.limbs.set i v }

/-- LIVE(s): `x[s].cap != 0` (R12). -/
def Slot.live (x : Slot) : Bool := x.cap != 0

/-- The number a little-endian list of limbs denotes (R31): limb i weighs `2^(32*i)`. -/
def limbsVal : List Limb → Nat
  | [] => 0
  | l :: ls => l.toNat + limbBase * limbsVal ls

/-- Val(s), the sum over the first `size` limbs (R11). -/
def Slot.val (x : Slot) : Nat := limbsVal (x.limbs.take x.size)

/-- A limb's low 32 bits of an exact number: the narrowing that ends every limb computation (R7, R79). -/
def limbOf (n : Nat) : Limb := BitVec.ofNat 32 n

/-! ### Growth (R60 to R62) -/

/-- Is a capacity above CAP_MAX? Never, when CAP_MAX is ∞ (R5, R62). -/
def aboveCapMax (capMax : Option Nat) (c : Nat) : Bool :=
  match capMax with
  | some m => decide (m < c)
  | none => false

/-- Expand (R62): the capacity doubles, old limbs stay, new limbs are zero; AllocationFailure above CAP_MAX. -/
def expand (capMax : Option Nat) (x : Slot) : Except ErrCode Slot :=
  if aboveCapMax capMax (2 * x.cap) then .error .allocationFailure
  else .ok { x with cap := 2 * x.cap, limbs := x.limbs ++ List.replicate x.cap 0 }

/-- GrowByOne (R61): the size is raised first, and the capacity test uses the raised size. No limb is written. -/
def growByOne (capMax : Option Nat) (x : Slot) : Except ErrCode Slot :=
  let y := { x with size := x.size + 1 }
  if y.size ≥ y.cap then expand capMax y else .ok y

/-- GuardCheck (R60): grow by one when the limb at index `size - 1` is not zero. -/
def guardCheck (capMax : Option Nat) (x : Slot) : Except ErrCode Slot :=
  if x.limb (x.size - 1) != 0 then growByOne capMax x else .ok x

/-- The fresh zero BigInt that ALLOC and RESET make: size 1, capacity 16, sixteen zero limbs (R63, R64). -/
def Slot.fresh : Slot where
  size := 1
  cap := initCap
  limbs := List.replicate initCap 0

/-- The slot that was being grown when AllocationFailure struck: any size, any capacity, any limbs (R130, U14). -/
def Slot.unspecified (draw : Nat) : Slot where
  size := (Config.freeSize draw).toNat
  cap := (Config.freeCap draw).toNat
  limbs := (List.range (Config.freeCap draw).toNat).map (Config.freeLimb draw)

/-! ### The slot file (R10) -/

/-- `x[n]`. A slot index at or above NSLOTS names no slot and never gets here: it raises BadSlot (R48). -/
def State.slot (s : State) (n : Nat) : Slot := s.slots.getD n Slot.empty

/-- Replace slot `n`. -/
def State.setSlot (s : State) (n : Nat) (x : Slot) : State := { s with slots := s.slots.set n x }

/-- RES0 <- v (R21). -/
def State.setRes0 (s : State) (v : BitVec 32) : State := { s with res0 := v }

/-- RES1 <- v (R21). -/
def State.setRes1 (s : State) (v : BitVec 32) : State := { s with res1 := v }

/-! ### The character buffer CBUF (R22, R30, R33) -/

/-- The canonical form of the character memory: addresses strictly rising. An unlisted address has no value, so no
entry can equal what an unlisted address reads as. -/
abbrev Memory.wf (m : Memory) : Prop := (m.map Prod.fst).Pairwise (· < ·)

/-- The byte last written to an address, if any was. -/
def Memory.read : Memory → Nat → Option Byte
  | [], _ => none
  | (b, v) :: rest, a => if b = a then some v else Memory.read rest a

/-- Write one byte, keeping addresses strictly rising. -/
def Memory.write : Memory → Nat → Byte → Memory
  | [], a, v => [(a, v)]
  | (b, w) :: rest, a, v =>
    if a < b then (a, v) :: (b, w) :: rest
    else if a = b then (a, v) :: rest
    else (b, w) :: Memory.write rest a v

/-- Write consecutive bytes, the first at address `a`. -/
def Memory.writeBytes : Memory → Nat → List Byte → Memory
  | m, _, [] => m
  | m, a, v :: vs => Memory.writeBytes (m.write a v) (a + 1) vs

/-- MemRead(a, 1) (R8): the byte last written, or, at an address nothing has written, the free byte of the draw CBUF
started from (U13; log entry 3). -/
def State.cbufByte (s : State) (a : Nat) : Byte := (s.cbuf.read a).getD (Config.freeByte s.cbufDraw a)

/-- MemWrite(a, 1, v) (R8). -/
def State.writeCbuf (s : State) (a : Nat) (v : Byte) : State := { s with cbuf := s.cbuf.write a v }

/-- MemWrite of consecutive bytes from CBUF[0] upward. -/
def State.writeString (s : State) (bytes : List Byte) : State := { s with cbuf := s.cbuf.writeBytes 0 bytes }

/-- The bytes CBUF[0] to CBUF[len-1], leftmost first (R22, R33). -/
def State.cbufString (s : State) (len : Nat) : List Byte := (List.range len).map s.cbufByte

/-- MemWrite(p, 1, any value) for p from 0 to n - 1 (R106, R129, U13): each byte becomes a free value of a new draw. -/
def State.spoilCbuf (s : State) (n : Nat) : State :=
  { s with cbuf := s.cbuf.writeBytes 0 ((List.range n).map (Config.freeByte s.draws)), draws := s.draws + 1 }

/-- The slot being grown when AllocationFailure strikes is left unspecified (R130, U14): a new draw. -/
def State.spoilSlot (s : State) (d : Nat) : State :=
  { s with slots := s.slots.set d (Slot.unspecified s.draws), draws := s.draws + 1 }

/-! ### The ends of a command (R125, R129 to R131) -/

/-- A command completes: STATUS.ERR becomes 0x00 and STATUS.BUSY returns to 0 (R131, R20). -/
def State.complete (s : State) : State := { s with err := none, busy := false }

/-- AllocationFailure is the one fatal fault (R125, R126). -/
def ErrCode.fatal : ErrCode → Bool
  | .allocationFailure => true
  | .invalidDigitCharacter | .shiftAmountOutOfRange | .bufferTooSmall | .useAfterRelease | .operandAlias
  | .divideByZero | .slotInUse | .badSlot | .illegalOperation | .stringOutOfRange | .indexOutOfRange => false

/-- FAULT ENTRY, shared by every fault of every command (R129, R130): STATUS.ERR takes the code, STATUS.HALT is set by a
fatal fault and kept otherwise, STATUS.BUSY returns to 0. Nothing is saved and control goes nowhere (R129, R131). -/
def State.takeFault (s : State) (f : ErrCode) : State :=
  { s with err := some f, halt := s.halt || f.fatal, busy := false }

/-- RESET, the only exit from HALT (R150): the reset state of R26. The parameters stay, what the host has yet to do and
what it got are the host's, and the bytes of CBUF are a new draw. -/
def State.hostReset (s : State) : State :=
  { State.resetWith s.params with cbufDraw := s.draws, draws := s.draws + 1, host := s.host, hostGot := s.hostGot }

/-- One command presented to the block (R54, R125, R128): dropped when HALT = 1; else its checks, of which the first
that fails is the fault reported; else its effect. -/
def State.command (s : State) (checks : Option ErrCode) (effect : State) : State :=
  if s.halt then s
  else
    match checks with
    | some f => s.takeFault f
    | none => effect

/-- The end of a command whose effect is to give slot `d` a new content: the content and completion, or, when a growth
failed, slot `d` unspecified and the fatal fault entered (R130). -/
def State.finishSlot (s : State) (d : Nat) (r : Except ErrCode Slot) : State :=
  match r with
  | .ok x => (s.setSlot d x).complete
  | .error f => (s.spoilSlot d).takeFault f

/-! ### The host's side of the interface (R152) -/

/-- The host's remaining actions. -/
def State.withHost (s : State) (acts : List HostAction) : State := { s with host := acts }

/-- A host read gives the host a value and changes nothing in the block (R37, R152). -/
def State.gave (s : State) (v : HostRead) : State := { s with hostGot := v :: s.hostGot }

end Sys2Proof.Machine
end

