-- ==== Sys2Proof/Machine/Flags.lean ====
section
/-! DEFINITION. STATUS, the only status register (10_state.md R20), as the host reads it, and the numbers of the fault
codes (60_exceptions.md R126). There are no condition codes (R23). -/

namespace Sys2Proof.Machine

/-- The number of a fault code (R126). -/
def ErrCode.number : ErrCode → BitVec 8
  | .allocationFailure => 0x01#8
  | .invalidDigitCharacter => 0x02#8
  | .shiftAmountOutOfRange => 0x03#8
  | .bufferTooSmall => 0x04#8
  | .useAfterRelease => 0x05#8
  | .operandAlias => 0x06#8
  | .divideByZero => 0x07#8
  | .slotInUse => 0x08#8
  | .badSlot => 0x09#8
  | .illegalOperation => 0x0A#8
  | .stringOutOfRange => 0x0B#8
  | .indexOutOfRange => 0x0C#8

/-- STATUS.ERR, bits 7:0: 0x00 when the last command completed (R20, R126). -/
def errField (e : Option ErrCode) : BitVec 8 :=
  match e with
  | none => 0x00#8
  | some f => f.number

/-- The 32-bit STATUS word (R20): ERR in 7:0, HALT in 8, BUSY in 9, and 31:10 reading as zero. -/
def State.statusWord (s : State) : BitVec 32 :=
  0#22 ++ BitVec.ofBool s.busy ++ BitVec.ofBool s.halt ++ errField s.err

/-- A truth value as RES0 takes it: 1 or 0 (R21, R115). -/
def boolRes (b : Bool) : BitVec 32 := if b then 1 else 0

end Sys2Proof.Machine
end

