-- ==== Sys2Proof/Machine/Operands.lean ====
section
/-! DEFINITION. The checks on a command's operands, in the priority order of 60_exceptions.md R128: slot fields, life
states, aliasing, operand values. Each answers the fault it raises, or none; a command joins its checks with `<|>`, which
keeps the first. All are decided before any state is written (R128). -/

namespace Sys2Proof.Machine

/-- Raise a fault when a condition holds. -/
def raiseIf (c : Bool) (f : ErrCode) : Option ErrCode := if c then some f else none

/-- BadSlot: a used slot field holds a value of NSLOTS or more (R48, R127). -/
def State.badSlot (s : State) (ds : List Nat) : Option ErrCode :=
  raiseIf (ds.any fun d => decide (s.params.nslots ≤ d)) .badSlot

/-- UseAfterRelease: a used slot field names an EMPTY slot (R127). -/
def State.notLive (s : State) (ds : List Nat) : Option ErrCode :=
  raiseIf (ds.any fun d => !(s.slot d).live) .useAfterRelease

/-- SlotInUse: ALLOC names a LIVE slot (R63, R127). -/
def State.slotInUse (s : State) (d : Nat) : Option ErrCode := raiseIf (s.slot d).live .slotInUse

/-- OperandAlias: the destination is one of the sources (R127, R153). -/
def sameSlot (d : Nat) (sources : List Nat) : Option ErrCode :=
  raiseIf (sources.any fun a => decide (d = a)) .operandAlias

/-- ShiftAmountOutOfRange: a shift amount of 32 or more, on the whole immediate (R47, R101). -/
def badShift (k : Imm) : Option ErrCode := raiseIf (decide (shiftMax < k.toNat)) .shiftAmountOutOfRange

/-- DivideByZero: DIVS with a zero divisor (R77, R127). -/
def zeroDivisor (v : Imm) : Option ErrCode := raiseIf (v == 0) .divideByZero

/-- StringOutOfRange: a length or a buffer capacity above CBUF_BYTES (R105, R106, R127). -/
def State.badString (s : State) (n : Imm) : Option ErrCode :=
  raiseIf (decide (s.params.cbufBytes < n.toNat)) .stringOutOfRange

/-- IndexOutOfRange: a limb index of `size` or more (R118, R127). -/
def State.badIndex (s : State) (a : Nat) (idx : Imm) : Option ErrCode :=
  raiseIf (decide ((s.slot a).size ≤ idx.toNat)) .indexOutOfRange

/-- BufferTooSmall of DCOPY: the destination's capacity is below the source's size (R116, R127). -/
def State.copyTooSmall (s : State) (d a : Nat) : Option ErrCode :=
  raiseIf (decide ((s.slot d).cap < (s.slot a).size)) .bufferTooSmall

/-- Is a byte the code of one of `'0'` to `'9'`, 0x30 to 0x39 (R121)? -/
def isDigit (b : Byte) : Bool := decide (0x30 ≤ b.toNat) && decide (b.toNat ≤ 0x39)

/-- InvalidDigitCharacter: one of the bytes CBUF[0..len-1] is no digit (R105, R127). -/
def State.badDigit (s : State) (len : Imm) : Option ErrCode :=
  raiseIf ((s.cbufString len.toNat).any fun b => !isDigit b) .invalidDigitCharacter

end Sys2Proof.Machine
end

