-- ==== Sys2Proof/Machine/Inspect.lean ====
section
/-! DEFINITION. Equality, copy and inspection: EQS, DCOPY, RDSZ, RDL (45_equality_copy_inspect.md R115 to R118). -/

namespace Sys2Proof.Machine

/-- EqualsScalar(a, v), the effect of EQS (R115): limb 0 equals `v` and the limbs 1 to size-1 are zero. -/
def equalsScalar (x : Slot) (v : Limb) : Bool :=
  x.limb 0 == v && (List.range (x.size - 1)).all fun i => x.limb (i + 1) == 0

/-- The content DCOPY gives its destination (R116): the source's limbs up to its size, zero above, the destination's own
capacity. -/
def copyInto (dst src : Slot) : Slot where
  size := src.size
  cap := dst.cap
  limbs := (List.range dst.cap).map fun i => if i < src.size then src.limb i else 0

/-- EQS sA, #v (R115). -/
def execEqs (a : Nat) (v : Imm) (s : State) : Host.Outcome State Fault Refusal :=
  .next (s.command (s.badSlot [a] <|> s.notLive [a])
    (s.setRes0 (boolRes (equalsScalar (s.slot a) v))).complete)

/-- DCOPY sD, sA (R116): it does not allocate and does not grow; a self-copy changes nothing. -/
def execDcopy (d a : Nat) (s : State) : Host.Outcome State Fault Refusal :=
  .next (s.command (s.badSlot [d, a] <|> s.notLive [d, a] <|> s.copyTooSmall d a)
    (if d = a then s.complete else (s.setSlot d (copyInto (s.slot d) (s.slot a))).complete))

/-- Do a slot's size and capacity fit the 32-bit result registers? Always, with a finite CAP_MAX (D31). -/
def Slot.fitsRegisters (x : Slot) : Bool := decide (x.size < 2 ^ 32) && decide (x.cap < 2 ^ 32)

/-- RDSZ sA (R117). With CAP_MAX = ∞ a size or capacity beyond 32 bits has no place in RES0, RES1, and the spec has a
model refuse the command (U20); a command that is dropped or faults is not refused. -/
def execRdsz (a : Nat) (s : State) : Host.Outcome State Fault Refusal :=
  if !s.halt && (s.badSlot [a] <|> s.notLive [a]).isNone && !(s.slot a).fitsRegisters then
    .refused .sizeBeyondRegister
  else
    .next (s.command (s.badSlot [a] <|> s.notLive [a])
      ((s.setRes0 (BitVec.ofNat 32 (s.slot a).size)).setRes1 (BitVec.ofNat 32 (s.slot a).cap)).complete)

/-- RDL sA, #idx (R118). -/
def execRdl (a : Nat) (idx : Imm) (s : State) : Host.Outcome State Fault Refusal :=
  .next (s.command (s.badSlot [a] <|> s.notLive [a] <|> s.badIndex a idx)
    (s.setRes0 ((s.slot a).limb idx.toNat)).complete)

end Sys2Proof.Machine
end

