-- ==== Sys2Proof/Machine/ShiftEngine.lean ====
section
/-! DEFINITION. The Shift Engine: the procedures ShiftLeft and ShiftRight and the commands SHL and SHR
(43_shift_engine.md R95 to R98). -/

namespace Sys2Proof.Machine

/-- The limb loop of ShiftLeft (R95), from index `n` down to 1: each limb takes its own bits moved up by `k` and the top
`k` bits of the limb below. High to low, so each limb reads its lower neighbour before that is overwritten. -/
def shiftLeftLoop (k : Nat) : Nat → Slot → Slot
  | 0, x => x
  | i + 1, x =>
    shiftLeftLoop k i
      (x.setLimb (i + 1)
        (limbOf ((x.limb (i + 1)).toNat * 2 ^ k) ||| limbOf ((x.limb i).toNat / 2 ^ (32 - k))))

/-- ShiftLeft(s, k) for k ≤ 31 (R95): nothing when k = 0; else the loop from the guard limb down, limb 0 last with no
inbound bits, and one GuardCheck. -/
def shiftLeft (capMax : Option Nat) (k : Nat) (x : Slot) : Except ErrCode Slot :=
  if k = 0 then .ok x
  else
    let y := shiftLeftLoop k (x.size - 1) x
    guardCheck capMax (y.setLimb 0 (limbOf ((y.limb 0).toNat * 2 ^ k)))

/-- The limb loop of ShiftRight (R97): `n` used limbs from index `i` upward, each taking its own bits moved down by `k`
and the bottom `k` bits of the limb above. Low to high, so each limb reads its upper neighbour before that is
overwritten. -/
def shiftRightLoop (k : Nat) : Nat → Nat → Slot → Slot
  | 0, _, x => x
  | n + 1, i, x =>
    shiftRightLoop k n (i + 1)
      (x.setLimb i
        (limbOf ((x.limb i).toNat / 2 ^ k) ||| limbOf ((x.limb (i + 1)).toNat * 2 ^ (32 - k))))

/-- ShiftRight(s, k) for k ≤ 31 (R97): nothing when k = 0, not even a shrink; else the used limbs, then one limb of
shrink when the top used limb is zero and the size is above 2. The guard is neither shifted nor written. -/
def shiftRight (k : Nat) (x : Slot) : Slot :=
  if k = 0 then x
  else
    let y := shiftRightLoop k (x.size - 1) 0 x
    if 2 < y.size ∧ y.limb (y.size - 2) = 0 then { y with size := y.size - 1 } else y

/-- SHL sD, #k (R96). -/
def execShl (d : Nat) (k : Imm) (s : State) : Host.Outcome State Fault Refusal :=
  .next (s.command (s.badSlot [d] <|> s.notLive [d] <|> badShift k)
    (s.finishSlot d (shiftLeft s.params.capMax k.toNat (s.slot d))))

/-- SHR sD, #k (R98). It never allocates. -/
def execShr (d : Nat) (k : Imm) (s : State) : Host.Outcome State Fault Refusal :=
  .next (s.command (s.badSlot [d] <|> s.notLive [d] <|> badShift k)
    (s.setSlot d (shiftRight k.toNat (s.slot d))).complete)

end Sys2Proof.Machine
end

