-- ==== Sys2Proof/Machine/ScalarArith.lean ====
section
/-! DEFINITION. Scalar arithmetic: the effects of ADDS, MULS and DIVS as procedures, which the codec also calls, and the
three commands (41_scalar_arithmetic.md R75 to R77, R79). Sums, products and the running remainder are exact numbers; a
limb takes the low 32 bits and the rest is passed on. -/

namespace Sys2Proof.Machine

/-- The carry loop of ADDS (R75), from limb `i`: it ends when no carry is left. `fuel` bounds the turns; see
`addScalar`. -/
def addScalarLoop (capMax : Option Nat) : (fuel : Nat) → (i carry : Nat) → Slot → Except ErrCode Slot
  | 0, _, _, x => .ok x
  | fuel + 1, i, carry, x =>
    if carry = 0 then .ok x
    else
      let sum := (x.limb i).toNat + carry
      match guardCheck capMax (x.setLimb i (limbOf sum)) with
      | .ok y => addScalarLoop capMax fuel (i + 1) (sum / limbBase) y
      | .error f => .error f

/-- AddScalar(s, v), the effect of ADDS (R75). A turn at an index with no limb absorbs any carry, so two turns more than
there are limbs are never all used (R155). -/
def addScalar (capMax : Option Nat) (v : Nat) (x : Slot) : Except ErrCode Slot :=
  addScalarLoop capMax (x.limbs.length + 2) 0 v x

/-- The limb loop of MULS (R76): `n` used limbs from index `i` upward, answering the slot and the last carry. -/
def mulScalarLoop (capMax : Option Nat) (m : Nat) : (n i carry : Nat) → Slot → Except ErrCode (Slot × Nat)
  | 0, _, carry, x => .ok (x, carry)
  | n + 1, i, carry, x =>
    let prod := (x.limb i).toNat * m + carry
    match guardCheck capMax (x.setLimb i (limbOf prod)) with
    | .ok y => mulScalarLoop capMax m n (i + 1) (prod / limbBase) y
    | .error f => .error f

/-- MulScalar(s, m), the effect of MULS (R76): the used limbs, then a residual carry into the old guard position. -/
def mulScalar (capMax : Option Nat) (m : Nat) (x : Slot) : Except ErrCode Slot :=
  match mulScalarLoop capMax m (x.size - 1) 0 0 x with
  | .ok (y, carry) => if carry = 0 then .ok y else guardCheck capMax (y.setLimb (x.size - 1) (limbOf carry))
  | .error f => .error f

/-- The bit loop of DIVS over the low `n` bits of one dividend limb, most significant first (R77): shift the running
remainder and the quotient left by one, and when the remainder reaches the divisor subtract it and set the quotient's
low bit, with the GuardCheck of 90_conflicts.md C2. -/
def divBits (capMax : Option Nat) (v : Nat) (l : Limb) : (n : Nat) → Slot → (rem : Nat) → Except ErrCode (Slot × Nat)
  | 0, q, rem => .ok (q, rem)
  | j + 1, q, rem =>
    let rem' := rem * 2 + (l.getLsbD j).toNat
    match shiftLeft capMax 1 q with
    | .ok q' =>
      if v ≤ rem' then
        match guardCheck capMax (q'.setLimb 0 (q'.limb 0 ||| 1)) with
        | .ok q'' => divBits capMax v l j q'' (rem' - v)
        | .error f => .error f
      else divBits capMax v l j q' rem'
    | .error f => .error f

/-- The limb loop of DIVS over limbs `n - 1` down to 0 of the dividend (R77). -/
def divLimbs (capMax : Option Nat) (v : Nat) (a : Slot) : (n : Nat) → Slot → (rem : Nat) → Except ErrCode (Slot × Nat)
  | 0, q, rem => .ok (q, rem)
  | i + 1, q, rem =>
    match divBits capMax v (a.limb i) 32 q rem with
    | .ok (q', rem') => divLimbs capMax v a i q' rem'
    | .error f => .error f

/-- DivScalar(q, a, v), the effect of DIVS (R77): the quotient starts as a fresh zero, the scan covers exactly the limbs
below the guard (90_conflicts.md C5); the answer is the quotient and the remainder. -/
def divScalar (capMax : Option Nat) (v : Nat) (a : Slot) : Except ErrCode (Slot × Nat) :=
  divLimbs capMax v a (a.size - 1) Slot.fresh 0

/-- The end of DIVS: the quotient into slot `d`, the remainder into RES0 (R77). -/
def State.finishDiv (s : State) (d : Nat) (r : Except ErrCode (Slot × Nat)) : State :=
  match r with
  | .ok (q, rem) => ((s.setSlot d q).setRes0 (BitVec.ofNat 32 rem)).complete
  | .error f => (s.spoilSlot d).takeFault f

/-- ADDS sD, #v (R75). -/
def execAdds (d : Nat) (v : Imm) (s : State) : Host.Outcome State Fault Refusal :=
  .next (s.command (s.badSlot [d] <|> s.notLive [d])
    (s.finishSlot d (addScalar s.params.capMax v.toNat (s.slot d))))

/-- MULS sD, #m (R76). -/
def execMuls (d : Nat) (m : Imm) (s : State) : Host.Outcome State Fault Refusal :=
  .next (s.command (s.badSlot [d] <|> s.notLive [d])
    (s.finishSlot d (mulScalar s.params.capMax m.toNat (s.slot d))))

/-- DIVS sD, sA, #v (R77): OperandAlias comes before DivideByZero (R128). -/
def execDivs (d a : Nat) (v : Imm) (s : State) : Host.Outcome State Fault Refusal :=
  .next (s.command (s.badSlot [d, a] <|> s.notLive [d, a] <|> sameSlot d [a] <|> zeroDivisor v)
    (s.finishDiv d (divScalar s.params.capMax v.toNat (s.slot a))))

end Sys2Proof.Machine
end

