-- ==== Sys2Proof/Machine/DecimalCodec.lean ====
section
/-! DEFINITION. The Decimal Codec: FROMDEC and TODEC (44_decimal_codec.md R105, R106). -/

namespace Sys2Proof.Machine

/-- The number a digit byte stands for, `byte - 0x30` (R121). Irreducible, since unfolding a subtraction of a large
literal is slow. -/
@[irreducible] def digitValue (b : Byte) : Nat := b.toNat - 0x30

/-- The byte of a digit, `0x30 + r` (R121). -/
def digitByte (r : Nat) : Byte := BitVec.ofNat 8 (0x30 + r)

/-- One turn of FROMDEC's loop (R105): multiply by 10, add the digit. -/
def parseDigit (capMax : Option Nat) (b : Byte) (x : Slot) : Except ErrCode Slot :=
  match mulScalar capMax 10 x with
  | .ok y => addScalar capMax (digitValue b) y
  | .error f => .error f

/-- The digit loop of FROMDEC (R105), Horner's method, leftmost digit first. -/
def parseDigits (capMax : Option Nat) : List Byte → Slot → Except ErrCode Slot
  | [], x => .ok x
  | b :: bs, x =>
    match parseDigit capMax b x with
    | .ok y => parseDigits capMax bs y
    | .error f => .error f

/-- The digit loop of TODEC (R106): divide the working BigInt `w` by 10 and collect the remainder's digit, until the
quotient is zero; BufferTooSmall when a digit finds no room. `room` is `cap_bytes` less the digits collected. The digits
come least significant first and each goes before the earlier ones, so `digits` is already the reversed string. The
working BigInts have storage of their own, which no CAP_MAX bounds (R24, D20). -/
def renderDigits : (room : Nat) → (w : Slot) → (digits : List Byte) → Except ErrCode (List Byte)
  | 0, _, _ => .error .bufferTooSmall
  | room + 1, w, digits =>
    match divScalar none 10 w with
    | .ok (q, r) =>
      if equalsScalar q 0 then .ok (digitByte r :: digits)
      else renderDigits room q (digitByte r :: digits)
    | .error f => .error f

/-- The end of TODEC (R106): the string and its length; or BufferTooSmall, which leaves CBUF[0..cap_bytes-1] with
unspecified bytes and everything else as it was (R129). -/
def State.finishTodec (s : State) (capBytes : Nat) (r : Except ErrCode (List Byte)) : State :=
  match r with
  | .ok digits => ((s.writeString digits).setRes0 (BitVec.ofNat 32 digits.length)).complete
  | .error f => (s.spoilCbuf capBytes).takeFault f

/-- FROMDEC sD, #len (R105): the destination may be EMPTY or LIVE, and starts as a fresh zero either way; the whole
string is checked before it is touched. -/
def execFromdec (d : Nat) (len : Imm) (s : State) : Host.Outcome State Fault Refusal :=
  .next (s.command (s.badSlot [d] <|> s.badString len <|> s.badDigit len)
    (s.finishSlot d (parseDigits s.params.capMax (s.cbufString len.toNat) Slot.fresh)))

/-- TODEC sA, #cap (R106): the operand slot is never written. -/
def execTodec (a : Nat) (capBytes : Imm) (s : State) : Host.Outcome State Fault Refusal :=
  .next (s.command (s.badSlot [a] <|> s.notLive [a] <|> s.badString capBytes)
    (s.finishTodec capBytes.toNat (renderDigits capBytes.toNat (s.slot a) [])))

end Sys2Proof.Machine
end

