-- ==== Sys2Proof/Machine/LimbStore.lean ====
section
/-! DEFINITION. The lifecycle commands ALLOC, RESET and RELEASE (40_limb_store.md R63 to R65). -/

namespace Sys2Proof.Machine

/-- ALLOC sD (R63): a fresh zero in an EMPTY slot. -/
def execAlloc (d : Nat) (s : State) : Host.Outcome State Fault Refusal :=
  .next (s.command (s.badSlot [d] <|> s.slotInUse d) (s.setSlot d Slot.fresh).complete)

/-- RESET sD (R64): a LIVE slot becomes a fresh zero, its capacity 16 again. -/
def execReset (d : Nat) (s : State) : Host.Outcome State Fault Refusal :=
  .next (s.command (s.badSlot [d] <|> s.notLive [d]) (s.setSlot d Slot.fresh).complete)

/-- RELEASE sD (R65): a LIVE slot becomes EMPTY. -/
def execRelease (d : Nat) (s : State) : Host.Outcome State Fault Refusal :=
  .next (s.command (s.badSlot [d] <|> s.notLive [d]) (s.setSlot d Slot.empty).complete)

end Sys2Proof.Machine
end

