-- ==== Sys2Proof/Machine/VectorAdd.lean ====
section
/-! DEFINITION. Vector add: ADDV (42_vector_add.md R90, R92, R93). -/

namespace Sys2Proof.Machine

/-- An operand's limb, zero above its size (R90: "treating out-of-range limbs as zero"). -/
def Slot.limbOrZero (x : Slot) (i : Nat) : Limb := if i < x.size then x.limb i else 0

/-- GrowByOne, `n` times. -/
def growTimes (capMax : Option Nat) : Nat → Slot → Except ErrCode Slot
  | 0, x => .ok x
  | n + 1, x =>
    match growByOne capMax x with
    | .ok y => growTimes capMax n y
    | .error f => .error f

/-- The pre-growth of ADDV, `while size - 1 < i: GrowByOne` (R90, R93). Each turn raises the size by one, so it makes
`i + 1 - size` turns, none when the size is above `i`. -/
def growToIndex (capMax : Option Nat) (i : Nat) (x : Slot) : Except ErrCode Slot :=
  growTimes capMax (i + 1 - x.size) x

/-- The limb loop of ADDV (R90): `n` positions from index `i` upward. -/
def addVectorLoop (capMax : Option Nat) (a b : Slot) : (n i carry : Nat) → Slot → Except ErrCode Slot
  | 0, _, _, x => .ok x
  | n + 1, i, carry, x =>
    match growToIndex capMax i x with
    | .ok y =>
      let sum := (a.limbOrZero i).toNat + (b.limbOrZero i).toNat + carry
      match guardCheck capMax (y.setLimb i (limbOf sum)) with
      | .ok z => addVectorLoop capMax a b n (i + 1) (sum / limbBase) z
      | .error f => .error f
    | .error f => .error f

/-- The effect of ADDV (R90): the destination starts as a fresh zero, and `max` of the two sizes positions are added. -/
def addVector (capMax : Option Nat) (a b : Slot) : Except ErrCode Slot :=
  addVectorLoop capMax a b (max a.size b.size) 0 0 Slot.fresh

/-- ADDV sD, sA, sB (R90): the sources may be one slot, the destination is neither of them (R92). -/
def execAddv (d a b : Nat) (s : State) : Host.Outcome State Fault Refusal :=
  .next (s.command (s.badSlot [d, a, b] <|> s.notLive [d, a, b] <|> sameSlot d [a, b])
    (s.finishSlot d (addVector s.params.capMax (s.slot a) (s.slot b))))

end Sys2Proof.Machine
end

