-- ==== Sys2Proof/Machine/Dispatch.lean ====
section
/-! DEFINITION. The meaning of each command of the opcode map (30_encoding.md R49), one arm each. -/

namespace Sys2Proof.Machine

def exec (i : Instr) (s : State) : Host.Outcome State Fault Refusal :=
  match i with
  | .alloc d => Sys2Proof.Machine.execAlloc d s
  | .reset d => Sys2Proof.Machine.execReset d s
  | .release d => Sys2Proof.Machine.execRelease d s
  | .adds d v => Sys2Proof.Machine.execAdds d v s
  | .muls d m => Sys2Proof.Machine.execMuls d m s
  | .divs d a v => Sys2Proof.Machine.execDivs d a v s
  | .addv d a b => Sys2Proof.Machine.execAddv d a b s
  | .shl d k => Sys2Proof.Machine.execShl d k s
  | .shr d k => Sys2Proof.Machine.execShr d k s
  | .fromdec d len => Sys2Proof.Machine.execFromdec d len s
  | .todec a capBytes => Sys2Proof.Machine.execTodec a capBytes s
  | .eqs a v => Sys2Proof.Machine.execEqs a v s
  | .dcopy d a => Sys2Proof.Machine.execDcopy d a s
  | .rdsz a => Sys2Proof.Machine.execRdsz a s
  | .rdl a idx => Sys2Proof.Machine.execRdl a idx s

end Sys2Proof.Machine
end

