-- ==== Sys2Proof/Machine/HostPort.lean ====
section
/-! DEFINITION. The command port and the rest of the host interface (70_reset_and_hazards.md R152, R154), and the
decoding order (30_encoding.md R54). -/

namespace Sys2Proof.Machine

/-- A command word at the command port (R54): dropped undecoded when HALT = 1 (R130); IllegalOperation when it matches
no row (R50); else the command it decodes to. -/
def presentWord (s : State) (w : CmdWord) : Host.Outcome State Fault Refusal :=
  if s.halt then .next s
  else
    match decode w with
    | .ok i => exec i s
    | .error _ => .next (s.takeFault .illegalOperation)

/-- An action R152 allows only when the block is idle; while BUSY the spec gives it no effect (U12). -/
def whenIdle (s : State) (r : Host.Outcome State Fault Refusal) : Host.Outcome State Fault Refusal :=
  if s.busy then .refused .hostActionWhileBusy else r

/-- A CBUF access by the host exists for an index below CBUF_BYTES only (R36, R152). -/
def whenCbufByte (s : State) (i : Nat) (r : Host.Outcome State Fault Refusal) : Host.Outcome State Fault Refusal :=
  if i < s.params.cbufBytes then r else .fault .noSuchCbufByte

/-- One host action (R152). Reads change nothing in the block (R37). -/
def hostAct (act : HostAction) (s : State) : Host.Outcome State Fault Refusal :=
  match act with
  | .assertReset => .next s.hostReset
  | .present w => whenIdle s (presentWord s w)
  | .readStatus => .next (s.gave (.status s.statusWord))
  | .readRes0 => whenIdle s (.next (s.gave (.res0 s.res0)))
  | .readRes1 => whenIdle s (.next (s.gave (.res1 s.res1)))
  | .readCbuf i => whenIdle s (whenCbufByte s i (.next (s.gave (.cbufByte i (s.cbufByte i)))))
  | .writeCbuf i b => whenIdle s (whenCbufByte s i (.next (s.writeCbuf i b)))

/-- The host's next action, taken from the actions it has yet to make; with none left the block stays idle and keeps
all its state (R138, R156). -/
def hostStep (s : State) : Host.Outcome State Fault Refusal :=
  match s.host with
  | [] => .next s
  | act :: rest => hostAct act (s.withHost rest)

/-- The host is about to present this word, before anything else it was to do. -/
def State.presentNext (s : State) (w : CmdWord) : State := s.withHost (.present w :: s.host)

end Sys2Proof.Machine
end

