-- ==== Sys2Proof/Machine/Step.lean ====
section
/-! DEFINITION. One step of the block: the host's next action, a command being one whole step (70_reset_and_hazards.md
R154). The block has no program counter and fetches nothing (10_state.md R19). -/

namespace Sys2Proof.Machine

/-- One step. -/
def step (s : State) : Host.Outcome State Fault Refusal := hostStep s

/-- The state whose next step presents the word whose bits are `w` below bit `nbits` and zero above (log entry 2). -/
def State.withFetchWord (s : State) (nbits w : Nat) : State := s.presentNext (BitVec.ofNat 64 (w % 2 ^ nbits))

end Sys2Proof.Machine
end

