-- ==== Sys2Proof/Safety.lean ====
section
/-! DEFINITION. The terms claims are stated in: the invariants of the spec (10_state.md R12 to R17), what a safe run is
(70_reset_and_hazards.md R156), the parts of the machine a command may write, its fault conditions in the spec's order,
and the contents a command leaves, told by size, capacity and value. -/

/-! ### What a command may write -/

/-- The slot a command writes: its "W" field in R46. -/
def Sys2Proof.Instr.dest : Sys2Proof.Instr → Option Nat
  | .alloc d => some d
  | .reset d => some d
  | .release d => some d
  | .adds d _ => some d
  | .muls d _ => some d
  | .divs d _ _ => some d
  | .addv d _ _ => some d
  | .shl d _ => some d
  | .shr d _ => some d
  | .fromdec d _ => some d
  | .todec _ _ => none
  | .eqs _ _ => none
  | .dcopy d _ => some d
  | .rdsz _ => none
  | .rdl _ _ => none

/-- Does the command write RES0 when it completes (R21)? -/
def Sys2Proof.Instr.givesRes0 : Sys2Proof.Instr → Bool
  | .divs _ _ _ | .todec _ _ | .eqs _ _ | .rdsz _ | .rdl _ _ => true
  | .alloc _ | .reset _ | .release _ | .adds _ _ | .muls _ _ | .addv _ _ _ | .shl _ _ | .shr _ _ | .fromdec _ _
  | .dcopy _ _ => false

/-- Does the command write RES1 when it completes (R21)? Only RDSZ does. -/
def Sys2Proof.Instr.givesRes1 : Sys2Proof.Instr → Bool
  | .rdsz _ => true
  | .alloc _ | .reset _ | .release _ | .adds _ _ | .muls _ _ | .divs _ _ _ | .addv _ _ _ | .shl _ _ | .shr _ _
  | .fromdec _ _ | .todec _ _ | .eqs _ _ | .dcopy _ _ | .rdl _ _ => false

/-- Can the command reach AllocationFailure (R127)? -/
def Sys2Proof.Instr.grows : Sys2Proof.Instr → Bool
  | .adds _ _ | .muls _ _ | .addv _ _ _ | .shl _ _ | .fromdec _ _ => true
  | .alloc _ | .reset _ | .release _ | .divs _ _ _ | .shr _ _ | .todec _ _ | .eqs _ _ | .dcopy _ _ | .rdsz _
  | .rdl _ _ => false

/-- Does the command give its destination a fresh start, at capacity 16 (R17: RESET and the destination reset of ADDV,
DIVS and FROMDEC)? -/
def Sys2Proof.Instr.restarts : Sys2Proof.Instr → Bool
  | .reset _ | .divs _ _ _ | .addv _ _ _ | .fromdec _ _ => true
  | .alloc _ | .release _ | .adds _ _ | .muls _ _ | .shl _ _ | .shr _ _ | .todec _ _ | .eqs _ _ | .dcopy _ _ | .rdsz _
  | .rdl _ _ => false

namespace Sys2Proof.Machine

/-! ### Invariants of a slot -/

/-- A LIVE slot at a command boundary (R12 to R15, R17), with the size bound that follows from them and R61: a size that
growth reached is below a capacity, and a size that DCOPY set was reached so in its source. -/
structure Slot.ok (capMax : Option Nat) (x : Slot) : Prop where
  /-- R17: the capacity is `16 * 2^j` -/
  capacity : isCapacity x.cap
  /-- R10: the slot has `cap` limbs -/
  length : x.limbs.length = x.cap
  /-- R12: a LIVE size is at least 1 -/
  sizePos : 1 ≤ x.size
  /-- I2 (R14) -/
  sizeCap : x.size ≤ x.cap
  /-- I1 and Z (R13, R15): the guard and every limb above it are zero -/
  zeroAbove : ∀ i, x.size - 1 ≤ i → x.limb i = 0
  /-- R17: the capacity is at most CAP_MAX; and the size is below it -/
  bounded : ∀ c, capMax = some c → x.cap ≤ c ∧ x.size < c

/-- The two life states of R12: EMPTY or LIVE, no other combination. -/
def Slot.wf (capMax : Option Nat) (x : Slot) : Prop := x = Slot.empty ∨ x.ok capMax

/-! ### The invariant of the machine -/

/-- What holds in every idle state: the parameters are in range (R5); there are NSLOTS slots (R10), each EMPTY or LIVE
with its invariants unless a fatal fault left one unspecified (R12, R130); HALT is set exactly when ERR is
AllocationFailure (R125, R130); BUSY is 0 (R154); the character memory is in canonical form with its addresses below
CBUF_BYTES (R30); and the draw CBUF started from is an earlier one (log entry 3). -/
structure State.Inv (s : State) : Prop where
  params : s.params.ok
  slotCount : s.slots.length = s.params.nslots
  slotsWf : s.halt = false → ∀ n, n < s.params.nslots → (s.slot n).wf s.params.capMax
  halted : s.halt = true ↔ s.err = some .allocationFailure
  idle : s.busy = false
  cbufWf : s.cbuf.wf
  cbufBound : ∀ c ∈ s.cbuf, c.1 < s.params.cbufBytes
  drawn : s.cbufDraw < s.draws

/-- A run has gone wrong exactly when STATUS.HALT is set (R156); a recoverable fault is only a reported result. -/
def State.safe (s : State) : Prop := s.halt = false

/-- An idle block that is not halted, with its invariants: a state in which a command executes. -/
def State.ready (s : State) : Prop := s.Inv ∧ s.halt = false

/-- Slot `n` exists and is LIVE (R10, R12). -/
def State.hasLive (s : State) (n : Nat) : Prop := n < s.params.nslots ∧ (s.slot n).live = true

/-! ### Fault conditions (R127), in the order of R128 -/

/-- One of these slots is EMPTY. -/
def State.anyEmpty (s : State) (ns : List Nat) : Bool := ns.any fun n => decide ((s.slot n).cap = 0)

/-- A byte that is no digit code (R121). -/
def notDigit (b : Byte) : Bool := decide (b.toNat < 0x30 ∨ 0x39 < b.toNat)

/-- The conditions of a command's own faults that are decided before any state is written, steps 4 to 8 of R128 in that
order, each with its fault (R127). -/
def State.ownConditions (s : State) : Instr → List (Bool × ErrCode)
  | .alloc d => [(!s.anyEmpty [d], .slotInUse)]
  | .reset d => [(s.anyEmpty [d], .useAfterRelease)]
  | .release d => [(s.anyEmpty [d], .useAfterRelease)]
  | .adds d _ => [(s.anyEmpty [d], .useAfterRelease)]
  | .muls d _ => [(s.anyEmpty [d], .useAfterRelease)]
  | .divs d a v =>
    [(s.anyEmpty [d, a], .useAfterRelease), (decide (d = a), .operandAlias), (decide (v.toNat = 0), .divideByZero)]
  | .addv d a b => [(s.anyEmpty [d, a, b], .useAfterRelease), (decide (d = a ∨ d = b), .operandAlias)]
  | .shl d k => [(s.anyEmpty [d], .useAfterRelease), (decide (32 ≤ k.toNat), .shiftAmountOutOfRange)]
  | .shr d k => [(s.anyEmpty [d], .useAfterRelease), (decide (32 ≤ k.toNat), .shiftAmountOutOfRange)]
  | .fromdec _ len =>
    [(decide (s.params.cbufBytes < len.toNat), .stringOutOfRange),
      ((List.range len.toNat).any fun p => notDigit (s.cbufByte p), .invalidDigitCharacter)]
  | .todec a capBytes =>
    [(s.anyEmpty [a], .useAfterRelease), (decide (s.params.cbufBytes < capBytes.toNat), .stringOutOfRange)]
  | .eqs a _ => [(s.anyEmpty [a], .useAfterRelease)]
  | .dcopy d a =>
    [(s.anyEmpty [d, a], .useAfterRelease), (decide ((s.slot d).cap < (s.slot a).size), .bufferTooSmall)]
  | .rdsz a => [(s.anyEmpty [a], .useAfterRelease)]
  | .rdl a idx => [(s.anyEmpty [a], .useAfterRelease), (decide ((s.slot a).size ≤ idx.toNat), .indexOutOfRange)]

/-- The fault R128 has a decoded command report: BadSlot first (step 3), then the first of its own that holds. -/
def State.firstFault (s : State) (i : Instr) : Option ErrCode :=
  (((i.slotFields.any fun n => decide (s.params.nslots ≤ n), .badSlot) :: s.ownConditions i).find? fun c => c.1).map
    fun c => c.2

/-! ### Sizes and capacities -/

/-- The size a destination of size `size` ends with when its value becomes `v` (R82, R91, R95): one more when `v` no
longer fits below the guard. -/
def sizeAfter (size v : Nat) : Nat := if v < limbBase ^ (size - 1) then size else size + 1

/-- The capacity it ends with (R61): doubled when the raised size reaches it. -/
def capAfter (size cap v : Nat) : Nat :=
  if sizeAfter size v = size ∨ sizeAfter size v < cap then cap else 2 * cap

/-- The slot can take the value `v` in place: the capacity it then needs is not above CAP_MAX (R62). -/
def Slot.hasRoom (capMax : Option Nat) (x : Slot) (v : Nat) : Prop :=
  aboveCapMax capMax (capAfter x.size x.cap v) = false

/-- `cap` is the smallest `16 * 2^j` above `size` (R67, R80, R91, R109). -/
structure leastCapacity (size cap : Nat) : Prop where
  capacity : isCapacity cap
  above : size < cap
  least : ∀ c, isCapacity c → size < c → cap ≤ c

/-- A destination built from a fresh zero can reach this size: some capacity above it is not above CAP_MAX (R62). -/
def roomToBuild (capMax : Option Nat) (size : Nat) : Prop :=
  ∃ c, isCapacity c ∧ size < c ∧ aboveCapMax capMax c = false

/-! ### Slot contents by size, capacity and value -/

/-- The low `n` limbs of a number, least significant first (R31). -/
def limbsOf : (n : Nat) → Nat → List Limb
  | 0, _ => []
  | n + 1, v => limbOf v :: limbsOf n (v / limbBase)

/-- The slot of a given size and capacity that holds the number `v`, zero above (R11, R15). -/
def Slot.holding (size cap v : Nat) : Slot where
  size := size
  cap := cap
  limbs := limbsOf cap v

/-- The content that an in-place command leaves in slot `x` when its new value is `v` (R82, R95, R61): the size stays
when `v` fits below the guard and rises by one when it does not; the capacity doubles when the raised size reaches it;
AllocationFailure when the doubled capacity is above CAP_MAX. -/
def Slot.grownTo (capMax : Option Nat) (x : Slot) (v : Nat) : Except ErrCode Slot :=
  if v < limbBase ^ (x.size - 1) then .ok (Slot.holding x.size x.cap v)
  else if x.size + 1 < x.cap then .ok (Slot.holding (x.size + 1) x.cap v)
  else if aboveCapMax capMax (2 * x.cap) then .error .allocationFailure
  else .ok (Slot.holding (x.size + 1) (2 * x.cap) v)

/-- The smallest `16 * 2^j` strictly greater than a size (R67). -/
def capacityAbove (size : Nat) : Nat := initCap * 2 ^ Nat.size (size / initCap)

/-- The content of a destination built from a fresh zero up to a given size (R61, R67, R91, R109): its capacity is the
smallest above the size; AllocationFailure when that is above CAP_MAX. -/
def builtTo (capMax : Option Nat) (size v : Nat) : Except ErrCode Slot :=
  if aboveCapMax capMax (capacityAbove size) then .error .allocationFailure
  else .ok (Slot.holding size (capacityAbove size) v)

/-- How many limbs a number needs (R80): 0 for 0, else `floor(log2 v / 32) + 1`. -/
def limbCount (v : Nat) : Nat := if v = 0 then 0 else Nat.log2 v / 32 + 1

/-- The size of a normalised slot that holds `v`: the limbs needed, and the guard (R80, R109). -/
def normalSize (v : Nat) : Nat := limbCount v + 1

/-- The normalised slot that holds `v`, with the capacity a destination built from a fresh zero has (R80, R109). -/
def Slot.normal (v : Nat) : Slot := Slot.holding (normalSize v) (capacityAbove (normalSize v)) v

/-- The content of a right shift by `k` (R97, R98): value divided by `2^k`; one limb of shrink when k is not 0, the size
is above 2 and the value left needs no limb at index `size - 2`. -/
def Slot.shrunkBy (k : Nat) (x : Slot) : Slot :=
  Slot.holding
    (if k ≠ 0 ∧ 2 < x.size ∧ x.val / 2 ^ k < limbBase ^ (x.size - 2) then x.size - 1 else x.size)
    x.cap (x.val / 2 ^ k)

/-- One digit byte added to ten times the number so far (R105, R121: a digit byte `b` stands for `b - 0x30`). -/
def digitAppended (n : Nat) (b : Byte) : Nat := 10 * n + digitValue b

/-- Horner's method from an accumulator, leftmost digit first (R105). -/
def decimalFrom : Nat → List Byte → Nat
  | n, [] => n
  | n, b :: bs => decimalFrom (digitAppended n b) bs

/-- The number a string of digit bytes denotes in base ten, leftmost digit first (R33, R105). -/
def decimalValue (bytes : List Byte) : Nat := decimalFrom 0 bytes

/-- The decimal string of a number: most significant digit first, no leading zero, "0" for 0 (R106). -/
def decimalString (v : Nat) : List Byte :=
  if v = 0 then [0x30#8] else ((Nat.digits 10 v).map fun d => BitVec.ofNat 8 (0x30 + d)).reverse

end Sys2Proof.Machine
end

