-- ==== Sys2Proof/Certificates/Slice0/Obligations.lean ====
section
/-! DEFINITION. The statements for the provers, one `Obligations.<Name>` each. Every docstring names the rule of the spec
it comes from. A premise `s.ready` is: the invariants hold and STATUS.HALT is clear; no premise speaks of a run. -/

section Statements

open Sys2Proof Sys2Proof.Machine

/-! ### Encoding -/

/-- R45, R46, R49: command words the spec prints, read back; at least one for each opcode group, and the four kinds of
illegal word of R50. -/
def Obligations.SpecWordsDecode : Prop :=
  decode 0x0000000001010000#64 = .ok (.alloc 1) ∧
  decode 0x0000000512010000#64 = .ok (.divs 1 0 5#32) ∧
  decode 0x0000000018020001#64 = .ok (.addv 2 0 1) ∧
  decode 0x0000000420000000#64 = .ok (.shl 0 4#32) ∧
  decode 0x0000002031000000#64 = .ok (.todec 0 32#32) ∧
  decode 0x0000000540000100#64 = .ok (.eqs 1 5#32) ∧
  decode 0x0000000149000000#64 = .ok (.rdl 0 1#32) ∧
  decode 0x0000000000000000#64 = .error .unknownOpcode ∧
  decode 0x0000000042010200#64 = .error .reservedShallowCopy ∧
  decode 0x0000000001010001#64 = .error .unusedFieldNonzero ∧
  decode 0x0000000148000000#64 = .error .unusedFieldNonzero

/-- R45, R46, R52: the word of every well-formed command decodes to that command, whatever its operands. -/
def Obligations.DecodeOfEncode : Prop :=
  ∀ i : Instr, i.wf = true → decode (encode i) = .ok i

/-- R46, R49: a word that decodes is the word of the command it decodes to, and that command is well-formed, so no bit of
a legal word is dropped. -/
def Obligations.EncodeOfDecode : Prop :=
  ∀ (w : CmdWord) (i : Instr), decode w = .ok i → i.wf = true ∧ encode i = w

/-- R49: the opcode map is the spec's table of fifteen rows; a word is a row's command exactly when it matches it; and
the rows are disjoint. -/
def Obligations.OpcodeMapIsTheSpecs : Prop :=
  (opTable.map fun r => ((r.build 0#64).asm.1, r.pattern, r.mask)) =
    [("ALLOC", 0x0000000001000000#64, 0xFFFFFFFFFF00FFFF#64), ("RESET", 0x0000000002000000#64, 0xFFFFFFFFFF00FFFF#64),
      ("RELEASE", 0x0000000003000000#64, 0xFFFFFFFFFF00FFFF#64), ("ADDS", 0x0000000010000000#64, 0x00000000FF00FFFF#64),
      ("MULS", 0x0000000011000000#64, 0x00000000FF00FFFF#64), ("DIVS", 0x0000000012000000#64, 0x00000000FF0000FF#64),
      ("ADDV", 0x0000000018000000#64, 0xFFFFFFFFFF000000#64), ("SHL", 0x0000000020000000#64, 0x00000000FF00FFFF#64),
      ("SHR", 0x0000000021000000#64, 0x00000000FF00FFFF#64), ("FROMDEC", 0x0000000030000000#64, 0x00000000FF00FFFF#64),
      ("TODEC", 0x0000000031000000#64, 0x00000000FFFF00FF#64), ("EQS", 0x0000000040000000#64, 0x00000000FFFF00FF#64),
      ("DCOPY", 0x0000000041000000#64, 0xFFFFFFFFFF0000FF#64), ("RDSZ", 0x0000000048000000#64, 0xFFFFFFFFFFFF00FF#64),
      ("RDL", 0x0000000049000000#64, 0x00000000FFFF00FF#64)] ∧
  (∀ r ∈ opTable, ∀ r' ∈ opTable, ∀ w : CmdWord,
    w &&& r.mask = r.pattern → w &&& r'.mask = r'.pattern → r.pattern = r'.pattern) ∧
  (∀ r ∈ opTable, ∀ w : CmdWord, w &&& r.mask = r.pattern →
    ∃ i, decode w = .ok i ∧ i.asm.1 = (r.build 0#64).asm.1) ∧
  (∀ (w : CmdWord) (i : Instr), decode w = .ok i →
    ∃ r ∈ opTable, w &&& r.mask = r.pattern ∧ i.asm.1 = (r.build 0#64).asm.1)

/-- R50: a presented word that matches no row is reported as IllegalOperation and does nothing else. That covers every OP
value outside the table and every word with a nonzero bit in a field its command does not use. -/
def Obligations.IllegalWordRaisesIllegalOperation : Prop :=
  ∀ (s : State) (w : CmdWord) (rest : List HostAction),
    s.host = .present w :: rest → s.busy = false → s.halt = false →
    ((∀ r ∈ opTable, w &&& r.mask ≠ r.pattern) →
      step s = .next ((s.withHost rest).takeFault .illegalOperation)) ∧
    (opField w ∉ [0x01#8, 0x02#8, 0x03#8, 0x10#8, 0x11#8, 0x12#8, 0x18#8, 0x20#8, 0x21#8, 0x30#8, 0x31#8, 0x40#8, 0x41#8,
        0x48#8, 0x49#8] →
      step s = .next ((s.withHost rest).takeFault .illegalOperation)) ∧
    (∀ r ∈ opTable, opField w = opField r.pattern → w &&& r.mask ≠ r.pattern →
      step s = .next ((s.withHost rest).takeFault .illegalOperation))

/-- R52, R53: a mnemonic with operands assembles to a command exactly when it is the written form of that command and the
command is well-formed; so there are no pseudo-instructions. -/
def Obligations.AssemblerFormNamesOneCommand : Prop :=
  ∀ (mnemonic : String) (operands : List AsmOperand) (i : Instr),
    assemble mnemonic operands = some i ↔ i.wf = true ∧ i.asm = (mnemonic, operands)

/-! ### The step and the host -/

/-- R54, R152, R154: one step of an idle, unhalted block to which the host presents a legal word is the command the word
decodes to, run on the state with that host action taken. -/
def Obligations.StepRunsPresentedCommand : Prop :=
  ∀ (s : State) (w : CmdWord) (i : Instr) (rest : List HostAction),
    s.host = .present w :: rest → s.busy = false → s.halt = false → decode w = .ok i →
    step s = exec i (s.withHost rest)

/-- R45, R52, R154: when the word of a well-formed command is the next the host presents, the next step runs exactly that
command on the machine as it stands. -/
def Obligations.FetchWordRunsItsCommand : Prop :=
  ∀ (s : State) (i : Instr), s.busy = false → s.halt = false → i.wf = true →
    step (s.withFetchWord 64 (encode i).toNat) = exec i s

/-- R54 step 1, R130: while STATUS.HALT is set every presented word, legal or not, is dropped and nothing changes. -/
def Obligations.HaltedBlockDropsEveryWord : Prop :=
  ∀ (s : State) (w : CmdWord) (rest : List HostAction),
    s.host = .present w :: rest → s.busy = false → s.halt = true → step s = .next (s.withHost rest)

/-- R26, R150: reset, whether the block is idle, busy or halted, gives the reset state: every slot EMPTY, STATUS, RES0 and
RES1 zero. That every byte of CBUF is then unspecified has the model's form (DESIGN CHOICE, log entry 3): no byte is listed as
written, and the unlisted bytes are free values of the draw the counter of draws stood at, which moves on by one. -/
def Obligations.HostResetGivesResetState : Prop :=
  ∀ (s : State) (rest : List HostAction), s.host = .assertReset :: rest →
    ∃ t, step s = .next t ∧ t.params = s.params ∧ t.slots.length = s.params.nslots ∧
      (∀ n, (t.slot n).size = 0 ∧ (t.slot n).cap = 0 ∧ (t.slot n).limbs = []) ∧
      t.err = none ∧ t.halt = false ∧ t.busy = false ∧ t.statusWord = 0#32 ∧ t.res0 = 0#32 ∧ t.res1 = 0#32 ∧
      (∀ a, t.cbuf.read a = none) ∧ t.cbufDraw = s.draws ∧ t.draws = s.draws + 1 ∧ t.host = rest

/-- R37, R138, R152: a host read gives the value and changes nothing in the block; with no host action left the block
keeps all its state. -/
def Obligations.HostReadsChangeNothing : Prop :=
  ∀ (s : State) (rest : List HostAction),
    (s.host = .readStatus :: rest → step s = .next ((s.withHost rest).gave (.status s.statusWord))) ∧
    (s.busy = false → s.host = .readRes0 :: rest → step s = .next ((s.withHost rest).gave (.res0 s.res0))) ∧
    (s.busy = false → s.host = .readRes1 :: rest → step s = .next ((s.withHost rest).gave (.res1 s.res1))) ∧
    (∀ i, s.busy = false → i < s.params.cbufBytes → s.host = .readCbuf i :: rest →
      step s = .next ((s.withHost rest).gave (.cbufByte i (s.cbufByte i)))) ∧
    (s.host = [] → step s = .next s)

/-- R22, R130, R152: a host write stores its byte and changes nothing else, halted or not. -/
def Obligations.HostWriteStoresOneByte : Prop :=
  ∀ (s : State) (i : Nat) (b : Byte) (rest : List HostAction),
    s.host = .writeCbuf i b :: rest → s.busy = false → i < s.params.cbufBytes →
    ∃ t, step s = .next t ∧ t.cbufByte i = b ∧ (∀ a, a ≠ i → t.cbufByte a = s.cbufByte a) ∧
      t.params = s.params ∧ t.slots = s.slots ∧ t.statusWord = s.statusWord ∧ t.res0 = s.res0 ∧ t.res1 = s.res1 ∧
      t.host = rest ∧ t.hostGot = s.hostGot

/-- R36, R152, U12 (the model's choice of stop, log entries 5 and 6): a host action outside the table stops the model: any
but reset and a STATUS read while BUSY is set, and a CBUF access at CBUF_BYTES or above. -/
def Obligations.HostActionOutsideTheTableStops : Prop :=
  ∀ (s : State) (act : HostAction) (rest : List HostAction), s.host = act :: rest →
    (s.busy = true → act ≠ .assertReset → act ≠ .readStatus → step s = .refused .hostActionWhileBusy) ∧
    (∀ i, s.busy = false → s.params.cbufBytes ≤ i → (act = .readCbuf i ∨ ∃ b, act = .writeCbuf i b) →
      step s = .fault .noSuchCbufByte)

/-- R20, R126: where STATUS holds its fields, and the numbers of the fault codes. -/
def Obligations.StatusWordLayout : Prop :=
  (∀ s : State, s.statusWord.extractLsb' 0 8 = errField s.err ∧ s.statusWord.getLsbD 8 = s.halt ∧
    s.statusWord.getLsbD 9 = s.busy ∧ ∀ n, 10 ≤ n → s.statusWord.getLsbD n = false) ∧
  [errField none, errField (some .allocationFailure), errField (some .invalidDigitCharacter),
      errField (some .shiftAmountOutOfRange), errField (some .bufferTooSmall), errField (some .useAfterRelease),
      errField (some .operandAlias), errField (some .divideByZero), errField (some .slotInUse),
      errField (some .badSlot), errField (some .illegalOperation), errField (some .stringOutOfRange),
      errField (some .indexOutOfRange)] =
    (List.range 13).map fun n => BitVec.ofNat 8 n

/-! ### What each command does -/

/-- R63, R64, R65: ALLOC, RESET and RELEASE: their checks in order, and their effect. -/
def Obligations.LifecycleCommandsResult : Prop :=
  ∀ (s : State) (d : Nat), s.halt = false →
    (s.params.nslots ≤ d →
      exec (.alloc d) s = .next (s.takeFault .badSlot) ∧ exec (.reset d) s = .next (s.takeFault .badSlot) ∧
      exec (.release d) s = .next (s.takeFault .badSlot)) ∧
    (d < s.params.nslots → (s.slot d).cap = 0 →
      exec (.alloc d) s = .next (s.setSlot d ⟨1, 16, List.replicate 16 0#32⟩).complete ∧
      exec (.reset d) s = .next (s.takeFault .useAfterRelease) ∧
      exec (.release d) s = .next (s.takeFault .useAfterRelease)) ∧
    (d < s.params.nslots → (s.slot d).cap ≠ 0 →
      exec (.alloc d) s = .next (s.takeFault .slotInUse) ∧
      exec (.reset d) s = .next (s.setSlot d ⟨1, 16, List.replicate 16 0#32⟩).complete ∧
      exec (.release d) s = .next (s.setSlot d ⟨0, 0, []⟩).complete)

/-- R75, R76 and the size law of R82, which the spec marks as derived from them: ADDS and MULS complete when the growth they need is not above CAP_MAX; the new
value is the sum or the product; the size rises by one exactly when the new value is at least `B^(s-1)`, and the capacity
doubles exactly when the raised size reaches it. -/
def Obligations.AddsAndMulsResult : Prop :=
  ∀ (s : State) (d : Nat) (v : Imm), s.ready → s.hasLive d →
    ((s.slot d).hasRoom s.params.capMax ((s.slot d).val + v.toNat) →
      ∃ x, exec (.adds d v) s = .next (s.setSlot d x).complete ∧ x.ok s.params.capMax ∧
        x.val = (s.slot d).val + v.toNat ∧ x.size = sizeAfter (s.slot d).size x.val ∧
        x.cap = capAfter (s.slot d).size (s.slot d).cap x.val) ∧
    ((s.slot d).hasRoom s.params.capMax ((s.slot d).val * v.toNat) →
      ∃ x, exec (.muls d v) s = .next (s.setSlot d x).complete ∧ x.ok s.params.capMax ∧
        x.val = (s.slot d).val * v.toNat ∧ x.size = sizeAfter (s.slot d).size x.val ∧
        x.cap = capAfter (s.slot d).size (s.slot d).cap x.val)

/-- R81: DIVS by any nonzero divisor completes with the quotient in its destination and the remainder in RES0, and the
division identity holds; by zero it raises DivideByZero and changes no slot. -/
def Obligations.DivsResult : Prop :=
  ∀ (s : State) (d a : Nat) (v : Imm), s.ready → s.hasLive d → s.hasLive a → d ≠ a →
    (v.toNat ≠ 0 → ∃ q r, exec (.divs d a v) s = .next ((s.setSlot d q).setRes0 r).complete ∧
      q.ok s.params.capMax ∧ (s.slot a).val = q.val * v.toNat + r.toNat ∧ r.toNat < v.toNat) ∧
    (v.toNat = 0 → exec (.divs d a v) s = .next (s.takeFault .divideByZero))

/-- R77 by way of R80, which the spec marks as derived: after DIVS the quotient has `L + 1` limbs, where it needs `L`; its top used limb is not zero unless it is zero;
and its capacity is the smallest above its size. -/
def Obligations.DivsQuotientIsNormalised : Prop :=
  ∀ (s : State) (d a : Nat) (v : Imm), s.ready → s.hasLive d → s.hasLive a → d ≠ a → v.toNat ≠ 0 →
    ∃ t, exec (.divs d a v) s = .next t ∧ t.err = none ∧
      (t.slot d).size = (if (t.slot d).val = 0 then 0 else Nat.log2 (t.slot d).val / 32 + 1) + 1 ∧
      ((t.slot d).val ≠ 0 → (t.slot d).limb ((t.slot d).size - 2) ≠ 0#32) ∧
      leastCapacity (t.slot d).size (t.slot d).cap

/-- R90 and the size law of R91, which the spec marks as derived from it: ADDV completes when a capacity above the size it needs is within CAP_MAX; the value is the
sum, the size that of the longer source, one more on a carry into its guard, and the capacity the smallest above it. -/
def Obligations.AddvResult : Prop :=
  ∀ (s : State) (d a b : Nat), s.ready → s.hasLive d → s.hasLive a → s.hasLive b → d ≠ a → d ≠ b →
    roomToBuild s.params.capMax (sizeAfter (max (s.slot a).size (s.slot b).size) ((s.slot a).val + (s.slot b).val)) →
    ∃ x, exec (.addv d a b) s = .next (s.setSlot d x).complete ∧ x.ok s.params.capMax ∧
      x.val = (s.slot a).val + (s.slot b).val ∧
      x.size = sizeAfter (max (s.slot a).size (s.slot b).size) ((s.slot a).val + (s.slot b).val) ∧
      leastCapacity x.size x.cap

/-- R95, R96: SHL by 0 to 31 multiplies the value by `2^k`; the size rises by one exactly when the top used limb had a 1
among its top `k` bits; a shift by 0 changes nothing but STATUS.ERR. -/
def Obligations.ShlResult : Prop :=
  ∀ (s : State) (d : Nat) (k : Imm), s.ready → s.hasLive d → k.toNat ≤ 31 →
    (s.slot d).hasRoom s.params.capMax ((s.slot d).val * 2 ^ k.toNat) →
    ∃ x, exec (.shl d k) s = .next (s.setSlot d x).complete ∧ x.ok s.params.capMax ∧
      x.val = (s.slot d).val * 2 ^ k.toNat ∧
      x.size = (if 2 ≤ (s.slot d).size ∧ 2 ^ (32 - k.toNat) ≤ ((s.slot d).limb ((s.slot d).size - 2)).toNat
        then (s.slot d).size + 1 else (s.slot d).size) ∧
      x.cap = capAfter (s.slot d).size (s.slot d).cap x.val ∧
      (k.toNat = 0 → x = s.slot d)

/-- R97, R98: SHR by 0 to 31 divides the value by `2^k`, dropping the bits shifted out; the capacity stays; the size drops
by one exactly when `k` is not 0, the size is above 2 and the top used limb of the result is zero; a shift by 0 changes
nothing but STATUS.ERR. -/
def Obligations.ShrResult : Prop :=
  ∀ (s : State) (d : Nat) (k : Imm), s.ready → s.hasLive d → k.toNat ≤ 31 →
    ∃ x, exec (.shr d k) s = .next (s.setSlot d x).complete ∧ x.ok s.params.capMax ∧
      x.val = (s.slot d).val / 2 ^ k.toNat ∧ x.cap = (s.slot d).cap ∧
      x.size = (if k.toNat ≠ 0 ∧ 2 < (s.slot d).size ∧ x.limb ((s.slot d).size - 2) = 0#32
        then (s.slot d).size - 1 else (s.slot d).size) ∧
      (k.toNat = 0 → x = s.slot d)

/-- R105 and the size law of R109, which the spec marks as derived from it (the digit codes are those of R121, log
entry 11): FROMDEC of a string of digits, into an EMPTY or a LIVE slot, completes when a capacity
above the size it needs is within CAP_MAX; the value is the number the string denotes, and the slot is normalised. -/
def Obligations.FromdecResult : Prop :=
  ∀ (s : State) (d : Nat) (len : Imm), s.ready → d < s.params.nslots → len.toNat ≤ s.params.cbufBytes →
    (∀ p, p < len.toNat → notDigit (s.cbufByte p) = false) →
    roomToBuild s.params.capMax (normalSize (decimalValue (s.cbufString len.toNat))) →
    ∃ x, exec (.fromdec d len) s = .next (s.setSlot d x).complete ∧ x.ok s.params.capMax ∧
      x.val = decimalValue (s.cbufString len.toNat) ∧
      x.size = (if x.val = 0 then 1 else Nat.log2 x.val / 32 + 2) ∧ leastCapacity x.size x.cap

/-- R106 (the digit codes are those of R121, log entry 11): TODEC into a buffer that is large enough writes the decimal string of the value from CBUF[0] upward, most
significant digit first and without a terminator, and its length into RES0. -/
def Obligations.TodecResult : Prop :=
  ∀ (s : State) (a : Nat) (capBytes : Imm), s.ready → s.hasLive a → capBytes.toNat ≤ s.params.cbufBytes →
    (decimalString (s.slot a).val).length ≤ capBytes.toNat →
    ∃ t, exec (.todec a capBytes) s = .next t ∧ t.err = none ∧ t.halt = false ∧
      t.cbufString (decimalString (s.slot a).val).length = decimalString (s.slot a).val ∧
      (∀ p, (decimalString (s.slot a).val).length ≤ p → t.cbufByte p = s.cbufByte p) ∧
      t.res0.toNat = (decimalString (s.slot a).val).length ∧ t.res1 = s.res1 ∧ t.slots = s.slots

/-- R115: EQS completes for every LIVE slot, and RES0 is 1 exactly when the value equals the scalar, whatever the size. -/
def Obligations.EqsResult : Prop :=
  ∀ (s : State) (a : Nat) (v : Imm), s.ready → s.hasLive a →
    exec (.eqs a v) s = .next (s.setRes0 (if (s.slot a).val = v.toNat then 1#32 else 0#32)).complete

/-- R116: DCOPY into a slot whose capacity is at least the source's size copies value and size, keeps the destination's
capacity and clears its other limbs; a self-copy changes nothing but STATUS.ERR; a smaller capacity raises
BufferTooSmall. -/
def Obligations.DcopyResult : Prop :=
  ∀ (s : State) (d a : Nat), s.ready → s.hasLive d → s.hasLive a →
    (d ≠ a → (s.slot a).size ≤ (s.slot d).cap →
      ∃ x, exec (.dcopy d a) s = .next (s.setSlot d x).complete ∧ x.ok s.params.capMax ∧
        x.val = (s.slot a).val ∧ x.size = (s.slot a).size ∧ x.cap = (s.slot d).cap ∧
        ∀ i, i < (s.slot a).size → x.limb i = (s.slot a).limb i) ∧
    (d = a → exec (.dcopy d a) s = .next s.complete) ∧
    ((s.slot d).cap < (s.slot a).size → exec (.dcopy d a) s = .next (s.takeFault .bufferTooSmall))

/-- R117: with a finite CAP_MAX, or while they fit 32 bits, RDSZ completes with the size in RES0 and the capacity in RES1;
with CAP_MAX = ∞ and a size or capacity beyond 32 bits it is refused by name (U20, log entry 7). -/
def Obligations.RdszResult : Prop :=
  ∀ (s : State) (a : Nat), s.ready → s.hasLive a →
    ((s.params.capMax ≠ none ∨ ((s.slot a).size < 2 ^ 32 ∧ (s.slot a).cap < 2 ^ 32)) →
      ∃ v w : BitVec 32, exec (.rdsz a) s = .next ((s.setRes0 v).setRes1 w).complete ∧
        v.toNat = (s.slot a).size ∧ w.toNat = (s.slot a).cap) ∧
    ((2 ^ 32 ≤ (s.slot a).size ∨ 2 ^ 32 ≤ (s.slot a).cap) → exec (.rdsz a) s = .refused .sizeBeyondRegister)

/-- R118: RDL of an index below the size completes with that limb in RES0, which is 0 for the guard; of any other index it
raises IndexOutOfRange. -/
def Obligations.RdlResult : Prop :=
  ∀ (s : State) (a : Nat) (idx : Imm), s.ready → s.hasLive a →
    (idx.toNat < (s.slot a).size →
      exec (.rdl a idx) s = .next (s.setRes0 ((s.slot a).limb idx.toNat)).complete ∧
      (idx.toNat = (s.slot a).size - 1 → (s.slot a).limb idx.toNat = 0#32)) ∧
    ((s.slot a).size ≤ idx.toNat → exec (.rdl a idx) s = .next (s.takeFault .indexOutOfRange))

/-! ### Faults -/

/-- R128: of several fault conditions the first in the spec's order is reported, and steps 2 to 8 are decided before any
state is written; when none of them holds, only a fault of the execution can be reported. -/
def Obligations.FaultPriority : Prop :=
  ∀ (s : State) (w : CmdWord),
    (s.halt = true → presentWord s w = .next s) ∧
    (s.halt = false → (∀ i, decode w ≠ .ok i) → presentWord s w = .next (s.takeFault .illegalOperation)) ∧
    (∀ i, s.halt = false → decode w = .ok i →
      (∀ f, s.firstFault i = some f → presentWord s w = .next (s.takeFault f)) ∧
      (s.firstFault i = none → ∀ t, presentWord s w = .next t →
        t.err = none ∨ t.err = some .allocationFailure ∨
        (t.err = some .bufferTooSmall ∧ ∃ a capBytes, i = .todec a capBytes)))

/-- R129: a recoverable fault writes its code, keeps HALT clear and BUSY returns to 0; every slot, RES0, RES1 and CBUF keep
their values, but for the bytes below `cap_bytes` when TODEC raises BufferTooSmall. -/
def Obligations.RecoverableFaultChangesOnlyStatus : Prop :=
  ∀ (s t : State) (i : Instr) (f : ErrCode), s.halt = false → exec i s = .next t → t.err = some f →
    f ≠ .allocationFailure →
    t.halt = false ∧ t.busy = false ∧ t.params = s.params ∧ t.slots = s.slots ∧ t.res0 = s.res0 ∧ t.res1 = s.res1 ∧
    (∀ a capBytes, i = .todec a capBytes → f = .bufferTooSmall →
      ∀ p, capBytes.toNat ≤ p → t.cbufByte p = s.cbufByte p) ∧
    ((f = .bufferTooSmall → ∀ a capBytes, i ≠ .todec a capBytes) → ∀ p, t.cbufByte p = s.cbufByte p)

/-- R106, R129: TODEC of a value with more digits than `cap_bytes` raises BufferTooSmall: each byte of the buffer takes a
free value of a new draw (log entry 3), and everything else but STATUS.ERR stays. -/
def Obligations.TodecBufferTooSmall : Prop :=
  ∀ (s : State) (a : Nat) (capBytes : Imm), s.ready → s.hasLive a → capBytes.toNat ≤ s.params.cbufBytes →
    capBytes.toNat < (decimalString (s.slot a).val).length →
    ∃ t, exec (.todec a capBytes) s = .next t ∧ t.err = some .bufferTooSmall ∧ t.halt = false ∧
      (∀ p, p < capBytes.toNat → t.cbufByte p = Config.freeByte s.draws p) ∧
      (∀ p, capBytes.toNat ≤ p → t.cbufByte p = s.cbufByte p) ∧
      t.slots = s.slots ∧ t.res0 = s.res0 ∧ t.res1 = s.res1

/-- R130: the fatal fault sets ERR to 0x01 and HALT; RES0, RES1, CBUF and every slot but the command's RD are unchanged;
from then on every word is dropped. -/
def Obligations.FatalFaultEntersHalt : Prop :=
  ∀ (s t : State) (i : Instr), s.halt = false → exec i s = .next t → t.err = some .allocationFailure →
    t.halt = true ∧ t.busy = false ∧ t.statusWord = 0x00000101#32 ∧ t.res0 = s.res0 ∧ t.res1 = s.res1 ∧
    (∀ p, t.cbufByte p = s.cbufByte p) ∧ (∀ n, i.dest ≠ some n → t.slot n = s.slot n) ∧
    ∀ w, presentWord t w = .next t

/-- R62, R127, R130: ADDS, MULS, SHL, ADDV and FROMDEC raise AllocationFailure when the capacity they need is above CAP_MAX;
the slot being grown is left with a free size, capacity and limbs (log entry 4). -/
def Obligations.GrowthBeyondCapMaxIsFatal : Prop :=
  ∀ (s : State) (d : Nat), s.ready → d < s.params.nslots →
    (∀ v, s.hasLive d → ¬ (s.slot d).hasRoom s.params.capMax ((s.slot d).val + v.toNat) →
      exec (.adds d v) s = .next ((s.spoilSlot d).takeFault .allocationFailure)) ∧
    (∀ m, s.hasLive d → ¬ (s.slot d).hasRoom s.params.capMax ((s.slot d).val * m.toNat) →
      exec (.muls d m) s = .next ((s.spoilSlot d).takeFault .allocationFailure)) ∧
    (∀ k, s.hasLive d → k.toNat ≤ 31 → ¬ (s.slot d).hasRoom s.params.capMax ((s.slot d).val * 2 ^ k.toNat) →
      exec (.shl d k) s = .next ((s.spoilSlot d).takeFault .allocationFailure)) ∧
    (∀ a b, s.hasLive d → s.hasLive a → s.hasLive b → d ≠ a → d ≠ b →
      ¬ roomToBuild s.params.capMax
        (sizeAfter (max (s.slot a).size (s.slot b).size) ((s.slot a).val + (s.slot b).val)) →
      exec (.addv d a b) s = .next ((s.spoilSlot d).takeFault .allocationFailure)) ∧
    (∀ len : Imm, len.toNat ≤ s.params.cbufBytes → (∀ p, p < len.toNat → notDigit (s.cbufByte p) = false) →
      ¬ roomToBuild s.params.capMax (normalSize (decimalValue (s.cbufString len.toNat))) →
      exec (.fromdec d len) s = .next ((s.spoilSlot d).takeFault .allocationFailure))

/-- R127: AllocationFailure comes from ADDS, MULS, ADDV, SHL and FROMDEC only, never from DIVS, and never with
CAP_MAX = ∞. -/
def Obligations.AllocationFailureOnlyFromGrowth : Prop :=
  ∀ (s t : State) (i : Instr), s.ready → exec i s = .next t → t.err = some .allocationFailure →
    i.grows = true ∧ s.params.capMax ≠ none

/-- R101: a shift amount is legal from 0 to 31, in both directions, and ShiftAmountOutOfRange is raised exactly when it is
32 or more. -/
def Obligations.ShiftRangeIsZeroTo31 : Prop :=
  ∀ (s : State) (d : Nat) (k : Imm), s.halt = false → s.hasLive d →
    (32 ≤ k.toNat → exec (.shl d k) s = .next (s.takeFault .shiftAmountOutOfRange) ∧
      exec (.shr d k) s = .next (s.takeFault .shiftAmountOutOfRange)) ∧
    (k.toNat ≤ 31 → ∀ t, (exec (.shl d k) s = .next t ∨ exec (.shr d k) s = .next t) →
      t.err ≠ some .shiftAmountOutOfRange)

/-- R125, R155: every command presented to a ready block ends: with a finite CAP_MAX, or if it is not RDSZ, it answers a
next state, which reports an outcome and is idle. -/
def Obligations.EveryCommandEnds : Prop :=
  ∀ (s : State) (i : Instr), s.ready → (s.params.capMax ≠ none ∨ ∀ a, i ≠ .rdsz a) →
    ∃ t, exec i s = .next t ∧ t.busy = false ∧ (t.halt = true ↔ t.err = some .allocationFailure)

/-! ### Frames -/

/-- R18, R46, R133: a command changes no slot but the one its "W" field names, and changes neither the parameters, nor the
number of slots, nor what the host has yet to do or has got. -/
def Obligations.SlotFrame : Prop :=
  ∀ (s t : State) (i : Instr), exec i s = .next t →
    (∀ n, i.dest ≠ some n → t.slot n = s.slot n) ∧ t.slots.length = s.slots.length ∧ t.params = s.params ∧
    t.host = s.host ∧ t.hostGot = s.hostGot

/-- R21: RES0 is written by DIVS, EQS, TODEC, RDSZ and RDL only, RES1 by RDSZ only, and neither by a command that
faults. -/
def Obligations.ResultRegisterFrame : Prop :=
  ∀ (s t : State) (i : Instr), exec i s = .next t →
    (i.givesRes0 = false → t.res0 = s.res0) ∧ (i.givesRes1 = false → t.res1 = s.res1) ∧
    (s.halt = false → t.err ≠ none → t.res0 = s.res0 ∧ t.res1 = s.res1)

/-- R22, R106, R129: no command but TODEC changes a byte of CBUF; a TODEC that completes changes none at or above the
length of the string it writes; one that raises BufferTooSmall none at or above `cap_bytes`; one that raises another fault
none at all. -/
def Obligations.CbufFrame : Prop :=
  ∀ (s t : State) (i : Instr), s.ready → exec i s = .next t →
    ((∀ a capBytes, i ≠ .todec a capBytes) → ∀ p, t.cbufByte p = s.cbufByte p) ∧
    (∀ a capBytes, i = .todec a capBytes →
      (t.err = none → ∀ p, (decimalString (s.slot a).val).length ≤ p → t.cbufByte p = s.cbufByte p) ∧
      (t.err = some .bufferTooSmall → ∀ p, capBytes.toNat ≤ p → t.cbufByte p = s.cbufByte p) ∧
      (t.err ≠ none → t.err ≠ some .bufferTooSmall → ∀ p, t.cbufByte p = s.cbufByte p))

/-- R20, R125, R131: what a command does to STATUS: BUSY ends 0; HALT ends 1 exactly when the report is AllocationFailure,
so a command that cannot grow a slot leaves it clear; a command that completes reports 0x00. -/
def Obligations.StatusFrame : Prop :=
  ∀ (s t : State) (i : Instr), s.ready → exec i s = .next t →
    t.busy = false ∧ (t.halt = true ↔ t.err = some .allocationFailure) ∧ (i.grows = false → t.halt = false) ∧
    (s.firstFault i = none → i.grows = false → (∀ a capBytes, i ≠ .todec a capBytes) → t.err = none)

/-! ### Invariants -/

/-- R5, R12, R26: the state after reset meets the invariants, for every legal choice of the parameters; and so does the
model's reset state. -/
def Obligations.ResetMeetsInv : Prop :=
  (∀ p : Params, p.ok → (State.resetWith p).Inv) ∧ State.reset.Inv

/-- R10, R12 to R15, R17, R125, R154: every step, whatever the host does, keeps the invariants. -/
def Obligations.StepKeepsInv : Prop :=
  ∀ s t : State, s.Inv → step s = .next t → t.Inv

/-- R5, R25, R151: no step changes a parameter. -/
def Obligations.StepNeverChangesParameters : Prop :=
  ∀ s t : State, step s = .next t → t.params = s.params

/-- R13, R15: at every command boundary, in every LIVE slot, the guard limb is zero, and so is every limb above it. -/
def Obligations.GuardAndUpperLimbsAreZero : Prop :=
  ∀ s t : State, s.Inv → step s = .next t → t.halt = false → ∀ n, t.hasLive n →
    (t.slot n).limb ((t.slot n).size - 1) = 0#32 ∧
    ∀ i, (t.slot n).size - 1 ≤ i → i < (t.slot n).cap → (t.slot n).limb i = 0#32

/-- R20, R130, R150: HALT is sticky: a step of a halted block that is not a reset changes neither STATUS nor RES0, RES1 or
any slot. -/
def Obligations.OnlyResetLeavesHalt : Prop :=
  ∀ s t : State, s.halt = true → (∀ rest, s.host ≠ .assertReset :: rest) → step s = .next t →
    t.halt = true ∧ t.err = s.err ∧ t.slots = s.slots ∧ t.res0 = s.res0 ∧ t.res1 = s.res1

/-- R12, R68, R150: a slot passes from LIVE to EMPTY only by RELEASE of it or by reset, and from EMPTY to LIVE only by ALLOC
or FROMDEC of it. -/
def Obligations.LifeStateChanges : Prop :=
  ∀ (s t : State) (n : Nat), s.Inv → step s = .next t → t.halt = false → n < s.params.nslots →
    ((s.slot n).live = true → (t.slot n).live = false →
      (∃ rest, s.host = .assertReset :: rest) ∨
      ∃ w rest, s.host = .present w :: rest ∧ decode w = .ok (.release n)) ∧
    ((s.slot n).live = false → (t.slot n).live = true → s.halt = false →
      ∃ w rest, s.host = .present w :: rest ∧
        (decode w = .ok (.alloc n) ∨ ∃ len, decode w = .ok (.fromdec n len)))

/-- R16, R17: while a slot stays LIVE its capacity decreases only by RESET, ADDV, DIVS or FROMDEC of it; its size decreases
only by those, by DCOPY into it, or by SHR of it, and SHR takes one limb at most and never goes below 2. -/
def Obligations.SizeAndCapacityAreKept : Prop :=
  ∀ (s t : State) (i : Instr) (n : Nat), s.ready → exec i s = .next t → t.halt = false → s.hasLive n →
    (t.slot n).live = true →
    ((t.slot n).cap < (s.slot n).cap → i.dest = some n ∧ i.restarts = true) ∧
    ((t.slot n).size < (s.slot n).size →
      i.dest = some n ∧ (i.restarts = true ∨ (∃ a, i = .dcopy n a) ∨
        ∃ k, i = .shr n k ∧ (t.slot n).size + 1 = (s.slot n).size ∧ 2 ≤ (t.slot n).size))

/-! ### Laws -/

/-- R99 (with R97's no-op for `k = 0`): shifting left and back restores the value, for every `k` from 0 to 31, and the size
too when the slot was normalised or of size 2 or less; otherwise, for `k` not 0, the size ends one lower. -/
def Obligations.ShiftThenUnshift : Prop :=
  ∀ (s : State) (d : Nat) (k : Imm), s.ready → s.hasLive d → k.toNat ≤ 31 →
    (s.slot d).hasRoom s.params.capMax ((s.slot d).val * 2 ^ k.toNat) →
    ∃ t u, exec (.shl d k) s = .next t ∧ exec (.shr d k) t = .next u ∧
      (u.slot d).val = (s.slot d).val ∧
      ((s.slot d).size ≤ 2 ∨ (s.slot d).limb ((s.slot d).size - 2) ≠ 0#32 ∨ k.toNat = 0 →
        (u.slot d).size = (s.slot d).size) ∧
      (2 < (s.slot d).size → (s.slot d).limb ((s.slot d).size - 2) = 0#32 → k.toNat ≠ 0 →
        (u.slot d).size + 1 = (s.slot d).size)

/-- R100: SHR never changes a size of 1 or 2, and lowers any other size by 0 or 1, in every state. -/
def Obligations.ShrinkFloor : Prop :=
  ∀ (s t : State) (d : Nat) (k : Imm), exec (.shr d k) s = .next t →
    ((s.slot d).size ≤ 2 → (t.slot d).size = (s.slot d).size) ∧
    (2 < (s.slot d).size → (t.slot d).size = (s.slot d).size ∨ (t.slot d).size + 1 = (s.slot d).size) ∧
    (2 ≤ (s.slot d).size → 2 ≤ (t.slot d).size)

/-- R107 (the digit codes are those of R121, log entry 11): FROMDEC of a digit string and TODEC of the result leave the canonical form of the number in CBUF, and RES0 its
length: the string itself when it has no superfluous leading zero. -/
def Obligations.DecimalRoundTrip : Prop :=
  ∀ (s : State) (d : Nat) (len c : Imm), s.ready → d < s.params.nslots → len.toNat ≤ s.params.cbufBytes →
    c.toNat ≤ s.params.cbufBytes → (∀ p, p < len.toNat → notDigit (s.cbufByte p) = false) →
    roomToBuild s.params.capMax (normalSize (decimalValue (s.cbufString len.toNat))) →
    (decimalString (decimalValue (s.cbufString len.toNat))).length ≤ c.toNat →
    ∃ t u, exec (.fromdec d len) s = .next t ∧ exec (.todec d c) t = .next u ∧ u.err = none ∧
      u.cbufString u.res0.toNat = decimalString (decimalValue (s.cbufString len.toNat)) ∧
      (len.toNat = 1 ∨ (1 ≤ len.toNat ∧ s.cbufByte 0 ≠ 0x30#8) →
        u.res0.toNat = len.toNat ∧ u.cbufString len.toNat = s.cbufString len.toNat)

/-- R108: TODEC's RES0 is the number of decimal digits of the value, 1 for the value 0; and ten bytes for each used limb
always suffice. -/
def Obligations.DigitCount : Prop :=
  ∀ (s t : State) (a : Nat) (capBytes : Imm), s.ready → s.hasLive a → exec (.todec a capBytes) s = .next t →
    (t.err = none → t.res0.toNat = if (s.slot a).val = 0 then 1 else Nat.log 10 (s.slot a).val + 1) ∧
    (capBytes.toNat ≤ s.params.cbufBytes → 1 ≤ capBytes.toNat → 10 * ((s.slot a).size - 1) ≤ capBytes.toNat →
      t.err = none)

/-- R60, R61, R62: GrowByOne raises the size by one, writes no limb that existed, fills new limbs with zero, doubles the
capacity exactly when the raised size reaches it, leaves the size below the capacity, and fails exactly when the doubled
capacity is above CAP_MAX; GuardCheck does it exactly when the guard limb is not zero. -/
def Obligations.GrowthProcedures : Prop :=
  ∀ (capMax : Option Nat) (x : Slot), isCapacity x.cap → x.limbs.length = x.cap → x.size ≤ x.cap →
    (∀ y, growByOne capMax x = .ok y → y.size = x.size + 1 ∧ y.size < y.cap ∧
      y.cap = (if x.size + 1 < x.cap then x.cap else 2 * x.cap) ∧ y.limbs.length = y.cap ∧
      (∀ i, i < x.cap → y.limb i = x.limb i) ∧ (∀ i, x.cap ≤ i → y.limb i = 0#32)) ∧
    (growByOne capMax x = .error .allocationFailure ↔
      x.cap ≤ x.size + 1 ∧ ∃ m, capMax = some m ∧ m < 2 * x.cap) ∧
    guardCheck capMax x = (if x.limb (x.size - 1) = 0#32 then .ok x else growByOne capMax x)

/-- R60 to R62 by way of R66, which the spec marks as derived: one growth is enough: when only the limb at index `size-1` may break invariant Z, a GuardCheck that does not fail
restores I1, I2 and Z, and the value still counts that limb. -/
def Obligations.OneGrowthIsEnough : Prop :=
  ∀ (capMax : Option Nat) (x y : Slot), isCapacity x.cap → x.limbs.length = x.cap → 1 ≤ x.size → x.size ≤ x.cap →
    (∀ i, x.size ≤ i → i < x.cap → x.limb i = 0#32) → guardCheck capMax x = .ok y →
    y.limb (y.size - 1) = 0#32 ∧ y.size ≤ y.cap ∧ y.limbs.length = y.cap ∧
    (∀ i, y.size - 1 ≤ i → i < y.cap → y.limb i = 0#32) ∧ y.val = x.val ∧
    (x.limb (x.size - 1) = 0#32 → y = x) ∧ (x.limb (x.size - 1) ≠ 0#32 → y.size = x.size + 1)

/-- R105: FROMDEC does not look at bytes at CBUF[len] and beyond: on two states that differ in those only, it does the
same. -/
def Obligations.FromdecIgnoresBytesPastItsString : Prop :=
  ∀ (s t : State) (m : Memory) (d : Nat) (len : Imm),
    (∀ p, p < len.toNat → ({ s with cbuf := m } : State).cbufByte p = s.cbufByte p) →
    exec (.fromdec d len) s = .next t →
    exec (.fromdec d len) { s with cbuf := m } = .next { t with cbuf := m }

/-- R18, R133: a command reads no slot but those its fields name: with any content in another slot it does the same, and
that content stays. -/
def Obligations.UnnamedSlotsAreNeverRead : Prop :=
  ∀ (s t : State) (i : Instr) (n : Nat) (x : Slot), n ∉ i.slotFields → exec i s = .next t →
    exec i (s.setSlot n x) = .next (t.setSlot n x)

/-- R23, R122: no command reads RES0, RES1 or the ERR an earlier command left: with any values there it makes the same
slots, the same CBUF and the same report. -/
def Obligations.EarlierResultsAreNeverRead : Prop :=
  ∀ (s t : State) (i : Instr) (v w : BitVec 32) (e : Option ErrCode), s.halt = false → exec i s = .next t →
    ∃ u, exec i { s with res0 := v, res1 := w, err := e } = .next u ∧ u.slots = t.slots ∧ u.cbuf = t.cbuf ∧
      u.err = t.err ∧ u.halt = t.halt ∧ (i.givesRes0 = true → t.err = none → u.res0 = t.res0) ∧
      (i.givesRes1 = true → t.err = none → u.res1 = t.res1)

end Statements
end

