-- ==== Sys2Proof/Laws/Limbs.lean ====
section
/-! SUPPORT. Limb lists as numbers, and slots told by their value (10_state.md R11, 20_memory.md R31). -/

namespace Sys2Proof.Machine

/-! ### limbOf -/

@[simp] theorem limbOf_toNat (n : Nat) : (limbOf n).toNat = n % limbBase := by
  simp [limbOf]

theorem limb_toNat_lt (l : Limb) : l.toNat < limbBase := l.isLt

@[simp] theorem limbOf_of_toNat (l : Limb) : limbOf l.toNat = l := by
  simp [limbOf]

theorem limbOf_mod (n : Nat) : limbOf (n % limbBase) = limbOf n := by
  apply BitVec.eq_of_toNat_eq; simp

theorem limb_eq_zero_iff (l : Limb) : l = 0 ↔ l.toNat = 0 := by
  constructor
  · rintro rfl; rfl
  · intro h; apply BitVec.eq_of_toNat_eq; simpa using h

theorem low_limb {a : Nat} (b : Nat) (h : a < limbBase) : (a + limbBase * b) % limbBase = a := by
  rw [Nat.add_mul_mod_self_left, Nat.mod_eq_of_lt h]

theorem high_limbs {a : Nat} (b : Nat) (h : a < limbBase) : (a + limbBase * b) / limbBase = b := by
  rw [Nat.add_mul_div_left _ _ (by norm_num), Nat.div_eq_of_lt h, Nat.zero_add]

/-! ### limbsVal -/

@[simp] theorem limbsVal_nil : limbsVal [] = 0 := rfl

@[simp] theorem limbsVal_cons (l : Limb) (ls : List Limb) :
    limbsVal (l :: ls) = l.toNat + limbBase * limbsVal ls := rfl

theorem limbsVal_append (as bs : List Limb) :
    limbsVal (as ++ bs) = limbsVal as + limbBase ^ as.length * limbsVal bs := by
  induction as with
  | nil => simp
  | cons a as ih => simp only [List.cons_append, limbsVal_cons, ih, List.length_cons, pow_succ]; ring

theorem limbsVal_replicate_zero (n : Nat) : limbsVal (List.replicate n (0 : Limb)) = 0 := by
  induction n with
  | zero => rfl
  | succ n ih => rw [List.replicate_succ, limbsVal_cons, ih]; rfl

theorem limbsVal_lt (ls : List Limb) : limbsVal ls < limbBase ^ ls.length := by
  induction ls with
  | nil => simp
  | cons l ls ih =>
    have hl := limb_toNat_lt l
    simp only [limbsVal_cons, List.length_cons, pow_succ]
    have : limbBase * limbsVal ls + limbBase ≤ limbBase ^ ls.length * limbBase := by
      have h : limbsVal ls + 1 ≤ limbBase ^ ls.length := ih
      calc limbBase * limbsVal ls + limbBase = (limbsVal ls + 1) * limbBase := by ring
        _ ≤ _ := Nat.mul_le_mul_right _ h
    omega

/-- Writing limb `i` moves the value by the difference of the limbs at weight `2^(32*i)`. -/
theorem limbsVal_set (ls : List Limb) (i : Nat) (v : Limb) (h : i < ls.length) :
    limbsVal (ls.set i v) + limbBase ^ i * (ls.getD i 0).toNat = limbsVal ls + limbBase ^ i * v.toNat := by
  induction ls generalizing i with
  | nil => simp at h
  | cons l ls ih =>
    cases i with
    | zero => simp; omega
    | succ i =>
      simp only [List.length_cons, Nat.add_lt_add_iff_right] at h
      have := ih i h
      simp only [List.set_cons_succ, limbsVal_cons, List.getD_cons_succ, pow_succ]
      calc _ = v.toNat * 0 + l.toNat + limbBase * (limbsVal (ls.set i v) + limbBase ^ i * (ls.getD i 0).toNat) := by ring
        _ = _ := by rw [this]; ring

/-- A limb is a digit of the value. -/
theorem limbsVal_digit (ls : List Limb) (i : Nat) :
    (ls.getD i 0).toNat = limbsVal ls / limbBase ^ i % limbBase := by
  induction ls generalizing i with
  | nil => simp
  | cons l ls ih =>
    have hl := limb_toNat_lt l
    cases i with
    | zero => rw [List.getD_cons_zero, limbsVal_cons, pow_zero, Nat.div_one, low_limb _ hl]
    | succ i =>
      have h := high_limbs (limbsVal ls) hl
      rw [List.getD_cons_succ, ih, limbsVal_cons, pow_succ', ← Nat.div_div_eq_div_mul, h]

/-! ### limbsOf -/

@[simp] theorem limbsOf_length (n v : Nat) : (limbsOf n v).length = n := by
  induction n generalizing v with
  | zero => rfl
  | succ n ih => simp [limbsOf, ih]

/-- A list of limbs is the digits of its value. -/
theorem limbsOf_limbsVal (ls : List Limb) : limbsOf ls.length (limbsVal ls) = ls := by
  induction ls with
  | nil => rfl
  | cons l ls ih =>
    have hl := limb_toNat_lt l
    have h1 : limbOf (l.toNat + limbBase * limbsVal ls) = l := by
      apply BitVec.eq_of_toNat_eq; rw [limbOf_toNat, low_limb _ hl]
    have h2 := high_limbs (limbsVal ls) hl
    simp only [List.length_cons, limbsOf, limbsVal_cons, h1, h2, ih]

theorem limbsVal_limbsOf (n v : Nat) : limbsVal (limbsOf n v) = v % limbBase ^ n := by
  induction n generalizing v with
  | zero => simp [limbsOf, Nat.mod_one]
  | succ n ih =>
    simp only [limbsOf, limbsVal_cons, ih, limbOf_toNat]
    rw [pow_succ', Nat.mod_mul]

theorem limbsOf_zero (n : Nat) : limbsOf n 0 = List.replicate n 0 := by
  induction n with
  | zero => rfl
  | succ n ih => simp [limbsOf, ih, List.replicate_succ, limbOf]

/-! ### Lists of limbs as functions of the index -/

theorem getD_set_self (ls : List Limb) (i : Nat) (v : Limb) (h : i < ls.length) : (ls.set i v).getD i 0 = v := by
  simp [List.getD_eq_getElem?_getD, h]

theorem getD_set_ne (ls : List Limb) {i j : Nat} (v : Limb) (h : i ≠ j) : (ls.set i v).getD j 0 = ls.getD j 0 := by
  simp [List.getD_eq_getElem?_getD, List.getElem?_set_ne h]

theorem getD_append_zeros (ls : List Limb) (n i : Nat) :
    (ls ++ List.replicate n (0 : Limb)).getD i 0 = ls.getD i 0 := by
  simp only [List.getD_eq_getElem?_getD, List.getElem?_append, List.getElem?_replicate]
  split
  · rfl
  · rename_i h
    rw [List.getElem?_eq_none (by omega)]
    split <;> rfl

theorem getD_of_length_le (ls : List Limb) {i : Nat} (h : ls.length ≤ i) : ls.getD i 0 = (0 : Limb) := by
  simp [List.getD_eq_getElem?_getD, List.getElem?_eq_none h]

/-- Limbs that are zero from index `k` upward do not count. -/
theorem limbsVal_take_of_zero (ls : List Limb) (k : Nat) (h : ∀ i, k ≤ i → ls.getD i 0 = (0 : Limb)) :
    limbsVal (ls.take k) = limbsVal ls := by
  induction ls generalizing k with
  | nil => simp
  | cons l ls ih =>
    cases k with
    | zero =>
      have h0 : l = 0 := by simpa using h 0 (Nat.le_refl 0)
      have := ih 0 (fun i _ => by simpa using h (i + 1) (Nat.zero_le _))
      simp only [List.take_zero, limbsVal_nil] at this ⊢
      simp [h0, ← this]
    | succ k =>
      have := ih k (fun i hi => by simpa using h (i + 1) (by omega))
      simp [this]

/-- Limbs that are zero from index `k` upward bound the value. -/
theorem limbsVal_lt_of_zero (ls : List Limb) (k : Nat) (h : ∀ i, k ≤ i → ls.getD i 0 = (0 : Limb)) :
    limbsVal ls < limbBase ^ k := by
  rw [← limbsVal_take_of_zero ls k h]
  exact lt_of_lt_of_le (limbsVal_lt _) (Nat.pow_le_pow_right (by norm_num) (by simp))

/-- A bounded value has zero limbs from the bound upward. -/
theorem getD_zero_of_val_lt (ls : List Limb) {k i : Nat} (h : limbsVal ls < limbBase ^ k) (hi : k ≤ i) :
    ls.getD i 0 = (0 : Limb) := by
  rw [limb_eq_zero_iff, limbsVal_digit, Nat.div_eq_of_lt, Nat.zero_mod]
  exact lt_of_lt_of_le h (Nat.pow_le_pow_right (by norm_num) hi)

end Sys2Proof.Machine
end

