-- ==== Sys2Proof/Laws/Growth.lean ====
section
/-! SUPPORT. What the growth procedures of the Limb Store do (40_limb_store.md R60 to R62, R66, R67). -/

namespace Sys2Proof.Machine

/-! ### The shape of a slot, apart from which limbs are zero -/

/-- Everything `Slot.ok` says but for the zero limbs: what also holds inside a command. -/
structure Slot.shape (capMax : Option Nat) (x : Slot) : Prop where
  capacity : isCapacity x.cap
  length : x.limbs.length = x.cap
  sizePos : 1 ≤ x.size
  sizeCap : x.size ≤ x.cap
  bounded : ∀ c, capMax = some c → x.cap ≤ c ∧ x.size < c

theorem isCapacity_ge {c : Nat} (h : isCapacity c) : 16 ≤ c := by
  obtain ⟨j, rfl⟩ := h
  exact Nat.le_mul_of_pos_right _ (Nat.pow_pos (by norm_num))

theorem isCapacity_double {c : Nat} (h : isCapacity c) : isCapacity (2 * c) := by
  obtain ⟨j, rfl⟩ := h
  exact ⟨j + 1, by rw [pow_succ]; ring⟩

/-- In value terms: a LIVE slot at a command boundary is a slot of the right shape whose value fits below the guard. -/
theorem Slot.ok_iff {capMax : Option Nat} {x : Slot} :
    x.ok capMax ↔ x.shape capMax ∧ limbsVal x.limbs < limbBase ^ (x.size - 1) := by
  constructor
  · intro h
    exact ⟨⟨h.capacity, h.length, h.sizePos, h.sizeCap, h.bounded⟩, limbsVal_lt_of_zero _ _ h.zeroAbove⟩
  · rintro ⟨h, hv⟩
    exact ⟨h.capacity, h.length, h.sizePos, h.sizeCap, fun i hi => getD_zero_of_val_lt _ hv hi, h.bounded⟩

theorem Slot.ok.shape {capMax : Option Nat} {x : Slot} (h : x.ok capMax) : x.shape capMax := (Slot.ok_iff.mp h).1

/-- Limbs at `size` and above take no part in the value (R11), and by Z they are zero. -/
theorem Slot.ok.val_eq {capMax : Option Nat} {x : Slot} (h : x.ok capMax) : x.val = limbsVal x.limbs :=
  limbsVal_take_of_zero _ _ fun i hi => h.zeroAbove i (by omega)

theorem Slot.ok.val_lt {capMax : Option Nat} {x : Slot} (h : x.ok capMax) : x.val < limbBase ^ (x.size - 1) := by
  rw [h.val_eq]; exact (Slot.ok_iff.mp h).2

/-- Slots of one shape are LIVE for CAP_MAX = ∞ too. -/
theorem Slot.ok.unbounded {capMax : Option Nat} {x : Slot} (h : x.ok capMax) : x.ok none :=
  ⟨h.capacity, h.length, h.sizePos, h.sizeCap, h.zeroAbove, fun _ hc => by cases hc⟩

/-- A slot with `cap` limbs is told by its size, its capacity and the number its limbs denote. -/
theorem Slot.eq_holding {x : Slot} (h : x.limbs.length = x.cap) :
    x = Slot.holding x.size x.cap (limbsVal x.limbs) := by
  obtain ⟨size, cap, limbs⟩ := x
  have h' : limbs.length = cap := h
  subst h'
  simp only [Slot.holding, limbsOf_limbsVal]

theorem Slot.ok.eq_holding {capMax : Option Nat} {x : Slot} (h : x.ok capMax) :
    x = Slot.holding x.size x.cap x.val := by
  rw [h.val_eq]; exact Slot.eq_holding h.length

@[simp] theorem Slot.holding_size (size cap v : Nat) : (Slot.holding size cap v).size = size := rfl
@[simp] theorem Slot.holding_cap (size cap v : Nat) : (Slot.holding size cap v).cap = cap := rfl
@[simp] theorem Slot.holding_length (size cap v : Nat) : (Slot.holding size cap v).limbs.length = cap := by
  simp [Slot.holding]

theorem Slot.holding_limbsVal {size cap v : Nat} (h : v < limbBase ^ cap) :
    limbsVal (Slot.holding size cap v).limbs = v := by
  simp only [Slot.holding, limbsVal_limbsOf, Nat.mod_eq_of_lt h]

theorem limbBase_pow_le {m n : Nat} (h : m ≤ n) : limbBase ^ m ≤ limbBase ^ n :=
  Nat.pow_le_pow_right (by norm_num) h

/-- A slot of the right shape that holds a value that fits below its guard is LIVE, with that value. -/
theorem Slot.holding_ok {capMax : Option Nat} {size cap v : Nat} (hc : isCapacity cap) (h1 : 1 ≤ size)
    (h2 : size ≤ cap) (hb : ∀ c, capMax = some c → cap ≤ c ∧ size < c) (hv : v < limbBase ^ (size - 1)) :
    (Slot.holding size cap v).ok capMax ∧ (Slot.holding size cap v).val = v := by
  have hv' : v < limbBase ^ cap := lt_of_lt_of_le hv (limbBase_pow_le (by omega))
  have hok : (Slot.holding size cap v).ok capMax := by
    rw [Slot.ok_iff]
    exact ⟨⟨hc, by simp, h1, h2, hb⟩, by rw [Slot.holding_limbsVal hv']; exact hv⟩
  exact ⟨hok, by rw [hok.val_eq, Slot.holding_limbsVal hv']⟩

/-! ### Expand, GrowByOne, GuardCheck -/

/-- All GrowByOne can do (R61, R62). -/
theorem growByOne_eq (capMax : Option Nat) (x : Slot) :
    growByOne capMax x =
      if x.size + 1 < x.cap then .ok { x with size := x.size + 1 }
      else if aboveCapMax capMax (2 * x.cap) then .error .allocationFailure
      else .ok ⟨x.size + 1, 2 * x.cap, x.limbs ++ List.replicate x.cap 0⟩ := by
  unfold growByOne expand
  by_cases h : x.size + 1 < x.cap
  · simp [h]
  · simp [h, Nat.le_of_not_lt h]

/-- The limbs of a slot after its capacity doubled (R62: old limbs stay, new ones are zero). -/
theorem limbsOf_double {cap v : Nat} (h : v < limbBase ^ cap) :
    limbsOf cap v ++ List.replicate cap 0 = limbsOf (2 * cap) v := by
  have hl : (limbsOf cap v ++ List.replicate cap (0 : Limb)).length = 2 * cap := by simp; omega
  have hv : limbsVal (limbsOf cap v ++ List.replicate cap (0 : Limb)) = v := by
    rw [limbsVal_append, limbsVal_replicate_zero, Nat.mul_zero, Nat.add_zero, limbsVal_limbsOf,
      Nat.mod_eq_of_lt h]
  have := limbsOf_limbsVal (limbsOf cap v ++ List.replicate cap (0 : Limb))
  rw [hl, hv] at this
  exact this.symm

/-- GrowByOne on a slot told by its value: the value stays (R61, R62). -/
theorem growByOne_holding (capMax : Option Nat) {size cap v : Nat} (h : v < limbBase ^ cap) :
    growByOne capMax (Slot.holding size cap v) =
      if size + 1 < cap then .ok (Slot.holding (size + 1) cap v)
      else if aboveCapMax capMax (2 * cap) then .error .allocationFailure
      else .ok (Slot.holding (size + 1) (2 * cap) v) := by
  rw [growByOne_eq]
  simp only [Slot.holding, limbsOf_double h]

/-- The top limb of a value below `limbBase^size` is zero exactly when the value fits below it. -/
theorem topLimb_eq_zero_iff {ls : List Limb} {size : Nat} (h1 : 1 ≤ size) (hv : limbsVal ls < limbBase ^ size) :
    ls.getD (size - 1) 0 = (0 : Limb) ↔ limbsVal ls < limbBase ^ (size - 1) := by
  rw [limb_eq_zero_iff, limbsVal_digit]
  have hs : limbBase ^ size = limbBase ^ (size - 1) * limbBase := by rw [← pow_succ]; congr 1; omega
  have hd : limbsVal ls / limbBase ^ (size - 1) < limbBase := by
    rw [Nat.div_lt_iff_lt_mul (Nat.pow_pos (by norm_num)), mul_comm, ← hs]; exact hv
  rw [Nat.mod_eq_of_lt hd, Nat.div_eq_zero_iff]
  have : limbBase ^ (size - 1) ≠ 0 := (Nat.pow_pos (by norm_num)).ne'
  tauto

/-- GuardCheck after a write at or below the guard (R60, R66): the value decides whether the slot grows. -/
theorem guardCheck_eq_grownTo {capMax : Option Nat} {x : Slot} (h : x.shape capMax)
    (hv : limbsVal x.limbs < limbBase ^ x.size) :
    guardCheck capMax x = x.grownTo capMax (limbsVal x.limbs) := by
  have hx := Slot.eq_holding h.length
  have hcap : limbsVal x.limbs < limbBase ^ x.cap := lt_of_lt_of_le hv (limbBase_pow_le h.sizeCap)
  unfold guardCheck Slot.grownTo
  by_cases hlt : limbsVal x.limbs < limbBase ^ (x.size - 1)
  · have h0 : x.limb (x.size - 1) = 0 := (topLimb_eq_zero_iff h.sizePos hv).mpr hlt
    simp only [h0, hlt, bne_self_eq_false, Bool.false_eq_true, if_false, if_true]
    rw [← hx]
  · have h0 : x.limb (x.size - 1) ≠ 0 := fun h0 => hlt ((topLimb_eq_zero_iff h.sizePos hv).mp h0)
    have h0' : (x.limb (x.size - 1) != 0) = true := bne_iff_ne.mpr h0
    rw [if_pos h0', if_neg hlt]
    conv_lhs => rw [hx]
    rw [growByOne_holding capMax hcap]

/-- What an in-place command leaves is LIVE and holds its value (R66). -/
theorem Slot.grownTo_ok {capMax : Option Nat} {x y : Slot} {v : Nat} (h : x.shape capMax)
    (hv : v < limbBase ^ x.size) (hy : x.grownTo capMax v = .ok y) : y.ok capMax ∧ y.val = v := by
  have hc16 := isCapacity_ge h.capacity
  unfold Slot.grownTo at hy
  split at hy
  · rename_i hlt
    cases hy
    exact Slot.holding_ok h.capacity h.sizePos h.sizeCap h.bounded hlt
  · split at hy
    · rename_i hsz
      cases hy
      refine Slot.holding_ok h.capacity (by omega) (by omega) (fun c hc => ?_) (by simpa using hv)
      have := h.bounded c hc
      omega
    · split at hy
      · cases hy
      · rename_i hab
        cases hy
        refine Slot.holding_ok (isCapacity_double h.capacity) (by omega) ?_ (fun c hc => ?_) (by simpa using hv)
        · have := h.sizeCap; omega
        · have h2 : 2 * x.cap ≤ c := by simpa [aboveCapMax, hc] using hab
          have := h.sizeCap
          omega

/-- `grownTo` looks at the size and the capacity only. -/
theorem Slot.grownTo_congr (capMax : Option Nat) {x y : Slot} (hs : x.size = y.size) (hc : x.cap = y.cap) (v : Nat) :
    x.grownTo capMax v = y.grownTo capMax v := by
  simp only [Slot.grownTo, hs, hc]

/-- A value that fits below the guard stays in place. -/
theorem Slot.grownTo_self {capMax : Option Nat} {x : Slot} (h : x.ok capMax) : x.grownTo capMax x.val = .ok x := by
  rw [Slot.grownTo, if_pos h.val_lt, ← h.eq_holding]

/-! ### Writing one limb -/

@[simp] theorem Slot.setLimb_size (x : Slot) (i : Nat) (v : Limb) : (x.setLimb i v).size = x.size := rfl
@[simp] theorem Slot.setLimb_cap (x : Slot) (i : Nat) (v : Limb) : (x.setLimb i v).cap = x.cap := rfl
@[simp] theorem Slot.setLimb_limbs (x : Slot) (i : Nat) (v : Limb) : (x.setLimb i v).limbs = x.limbs.set i v := rfl

theorem Slot.setLimb_grownTo (capMax : Option Nat) (x : Slot) (i : Nat) (l : Limb) (v : Nat) :
    (x.setLimb i l).grownTo capMax v = x.grownTo capMax v := rfl

theorem Slot.shape.setLimb {capMax : Option Nat} {x : Slot} (h : x.shape capMax) (i : Nat) (v : Limb) :
    (x.setLimb i v).shape capMax :=
  ⟨h.capacity, by simpa using h.length, h.sizePos, h.sizeCap, h.bounded⟩

/-- A value in three parts: the limbs below `i`, limb `i`, the limbs above. -/
theorem limbsVal_parts (ls : List Limb) (i : Nat) :
    limbsVal ls = limbsVal ls % limbBase ^ i + limbBase ^ i * (ls.getD i 0).toNat
      + limbBase ^ (i + 1) * (limbsVal ls / limbBase ^ (i + 1)) := by
  rw [limbsVal_digit]
  have h1 := Nat.div_add_mod (limbsVal ls) (limbBase ^ i)
  have h2 := Nat.div_add_mod (limbsVal ls / limbBase ^ i) limbBase
  rw [Nat.div_div_eq_div_mul, ← pow_succ] at h2
  calc limbsVal ls = limbBase ^ i * (limbsVal ls / limbBase ^ i) + limbsVal ls % limbBase ^ i := h1.symm
    _ = _ := by
      conv_lhs => rw [← h2]
      rw [pow_succ]; ring

/-- Writing limb `i` replaces the middle part. -/
theorem limbsVal_set_parts (ls : List Limb) {i : Nat} (v : Limb) (h : i < ls.length) :
    limbsVal (ls.set i v) = limbsVal ls % limbBase ^ i + limbBase ^ i * v.toNat
      + limbBase ^ (i + 1) * (limbsVal ls / limbBase ^ (i + 1)) := by
  have h1 := limbsVal_set ls i v h
  have h2 := limbsVal_parts ls i
  omega

theorem div_of_parts {lo p hi i : Nat} (hlo : lo < limbBase ^ i) (hp : p < limbBase) :
    (lo + limbBase ^ i * p + limbBase ^ (i + 1) * hi) / limbBase ^ (i + 1) = hi ∧
    (lo + limbBase ^ i * p + limbBase ^ (i + 1) * hi) % limbBase ^ (i + 1) = lo + limbBase ^ i * p := by
  have hlt : lo + limbBase ^ i * p < limbBase ^ (i + 1) := by
    have : limbBase ^ i * p + limbBase ^ i ≤ limbBase ^ i * limbBase := by
      calc _ = limbBase ^ i * (p + 1) := by ring
        _ ≤ _ := Nat.mul_le_mul_left _ hp
    rw [pow_succ]; omega
  have hpos : 0 < limbBase ^ (i + 1) := Nat.pow_pos (by norm_num)
  constructor
  · rw [Nat.add_mul_div_left _ _ hpos, Nat.div_eq_of_lt hlt, Nat.zero_add]
  · rw [Nat.add_mul_mod_self_left, Nat.mod_eq_of_lt hlt]

theorem mod_pow_lt (v i : Nat) : v % limbBase ^ i < limbBase ^ i := Nat.mod_lt _ (Nat.pow_pos (by norm_num))

/-! ### Capacities of slots built from a fresh zero (R67) -/

/-- The smallest capacity above a size, by its defining property (R67). -/
theorem capacityAbove_le_iff (n j : Nat) : capacityAbove n ≤ initCap * 2 ^ j ↔ n < initCap * 2 ^ j := by
  unfold capacityAbove
  rw [Nat.mul_le_mul_left_iff (by norm_num), Nat.pow_le_pow_iff_right (by norm_num), Nat.size_le,
    Nat.div_lt_iff_lt_mul (by norm_num), mul_comm]

theorem capacityAbove_isCapacity (n : Nat) : isCapacity (capacityAbove n) := ⟨_, rfl⟩

theorem lt_capacityAbove (n : Nat) : n < capacityAbove n := by
  have := (capacityAbove_le_iff n (Nat.size (n / initCap))).mp (Nat.le_refl _)
  exact this

theorem capacityAbove_le_of_lt {n c : Nat} (hc : isCapacity c) (h : n < c) : capacityAbove n ≤ c := by
  obtain ⟨j, rfl⟩ := hc
  exact (capacityAbove_le_iff n j).mpr h

theorem capacityAbove_mono {m n : Nat} (h : m ≤ n) : capacityAbove m ≤ capacityAbove n :=
  capacityAbove_le_of_lt (capacityAbove_isCapacity n) (lt_of_le_of_lt h (lt_capacityAbove n))

/-- The capacity as the size rises by one: it doubles when the raised size reaches it (R61, R67). -/
theorem capacityAbove_succ (n : Nat) :
    capacityAbove (n + 1) = if n + 1 < capacityAbove n then capacityAbove n else 2 * capacityAbove n := by
  have hn := lt_capacityAbove n
  split
  · rename_i h
    exact Nat.le_antisymm (capacityAbove_le_of_lt (capacityAbove_isCapacity n) h) (capacityAbove_mono (Nat.le_succ n))
  · rename_i h
    apply Nat.le_antisymm
    · exact capacityAbove_le_of_lt (isCapacity_double (capacityAbove_isCapacity n)) (by omega)
    · obtain ⟨i, hi⟩ := capacityAbove_isCapacity n
      obtain ⟨j, hj⟩ := capacityAbove_isCapacity (n + 1)
      have h1 := lt_capacityAbove (n + 1)
      have h2 : initCap * 2 ^ i < initCap * 2 ^ j := by omega
      have h3 : 2 ^ i < 2 ^ j := by simpa [initCap] using h2
      have h4 : i < j := (Nat.pow_lt_pow_iff_right (by norm_num)).mp h3
      have h5 : 2 ^ (i + 1) ≤ 2 ^ j := Nat.pow_le_pow_right (by norm_num) h4
      rw [hi, hj]
      rw [pow_succ] at h5
      simp only [initCap]
      omega

/-- Does a slot of this size, built from a fresh zero, fit under CAP_MAX? -/
abbrev fitsSize (capMax : Option Nat) (size : Nat) : Prop := aboveCapMax capMax (capacityAbove size) = false

theorem aboveCapMax_mono {capMax : Option Nat} {c d : Nat} (h : c ≤ d) (hc : aboveCapMax capMax c = true) :
    aboveCapMax capMax d = true := by
  cases capMax with
  | none => simp [aboveCapMax] at hc
  | some m => simp only [aboveCapMax, decide_eq_true_eq] at hc ⊢; omega

theorem fitsSize.mono {capMax : Option Nat} {m n : Nat} (h : m ≤ n) (hn : fitsSize capMax n) : fitsSize capMax m := by
  by_contra hm
  have := aboveCapMax_mono (capacityAbove_mono h) (by simpa [fitsSize] using hm)
  simp [fitsSize, this] at hn

theorem builtTo_of_fits {capMax : Option Nat} {size : Nat} (h : fitsSize capMax size) (v : Nat) :
    builtTo capMax size v = .ok (Slot.holding size (capacityAbove size) v) := by
  simp only [fitsSize] at h
  simp [builtTo, h]

theorem builtTo_of_not_fits {capMax : Option Nat} {size : Nat} (h : ¬ fitsSize capMax size) (v : Nat) :
    builtTo capMax size v = .error .allocationFailure := by
  simp only [fitsSize, Bool.not_eq_false] at h
  simp [builtTo, h]

/-- A built slot that fits has a shape. -/
theorem built_shape {capMax : Option Nat} {size : Nat} (h1 : 1 ≤ size) (h : fitsSize capMax size) (v : Nat) :
    (Slot.holding size (capacityAbove size) v).shape capMax := by
  have hlt := lt_capacityAbove size
  refine ⟨capacityAbove_isCapacity _, by simp, h1, hlt.le, fun c hc => ?_⟩
  have : capacityAbove size ≤ c := by simpa [fitsSize, aboveCapMax, hc] using h
  exact ⟨this, lt_of_lt_of_le hlt this⟩

theorem built_ok {capMax : Option Nat} {size v : Nat} (h1 : 1 ≤ size) (h : fitsSize capMax size)
    (hv : v < limbBase ^ (size - 1)) :
    (Slot.holding size (capacityAbove size) v).ok capMax ∧ (Slot.holding size (capacityAbove size) v).val = v := by
  have hs := built_shape h1 h v
  exact Slot.holding_ok hs.capacity h1 hs.sizeCap hs.bounded hv

/-- Growing a built slot by one gives the built slot of the next size, or AllocationFailure. -/
theorem growByOne_built {capMax : Option Nat} {size v : Nat} (h : fitsSize capMax size) (hv : v < limbBase ^ size) :
    growByOne capMax (Slot.holding size (capacityAbove size) v) = builtTo capMax (size + 1) v := by
  have hlt := lt_capacityAbove size
  have hs := capacityAbove_succ size
  rw [growByOne_holding capMax (lt_of_lt_of_le hv (limbBase_pow_le hlt.le)), builtTo, hs]
  split
  · simp only [fitsSize] at h; simp [h]
  · rfl

/-- A new value in a built slot: the size stays or rises by one (R82). -/
theorem grownTo_built {capMax : Option Nat} {size v0 v : Nat} (h : fitsSize capMax size) :
    (Slot.holding size (capacityAbove size) v0).grownTo capMax v =
      if v < limbBase ^ (size - 1) then builtTo capMax size v else builtTo capMax (size + 1) v := by
  have hs := capacityAbove_succ size
  have hb := builtTo_of_fits h v
  simp only [fitsSize] at h
  rw [hb, builtTo, hs]
  change (if v < limbBase ^ (size - 1) then _ else if size + 1 < capacityAbove size then _ else _) = _
  split
  · rfl
  · split
    · simp [h]
    · rfl

/-! ### Normalised slots (R80, R109) -/

/-- The limbs a number needs, by its defining property. -/
theorem limbCount_le_iff (v n : Nat) : limbCount v ≤ n ↔ v < limbBase ^ n := by
  unfold limbCount
  by_cases hv : v = 0
  · simp [hv]
  · rw [if_neg hv, Nat.succ_le_iff, Nat.div_lt_iff_lt_mul (by norm_num), Nat.log2_lt hv]
    rw [show limbBase ^ n = 2 ^ (n * 32) by rw [show limbBase = 2 ^ 32 from rfl, ← pow_mul, mul_comm]]

theorem lt_pow_limbCount (v : Nat) : v < limbBase ^ limbCount v := (limbCount_le_iff v _).mp (Nat.le_refl _)

theorem limbCount_mono {u v : Nat} (h : u ≤ v) : limbCount u ≤ limbCount v :=
  (limbCount_le_iff u _).mpr (lt_of_le_of_lt h (lt_pow_limbCount v))

theorem normalSize_mono {u v : Nat} (h : u ≤ v) : normalSize u ≤ normalSize v :=
  Nat.succ_le_succ (limbCount_mono h)

theorem normalSize_pos (v : Nat) : 1 ≤ normalSize v := Nat.le_add_left 1 _

theorem fresh_eq_normal : Slot.fresh = Slot.normal 0 := by decide

theorem normal_ok {capMax : Option Nat} {v : Nat} (h : fitsSize capMax (normalSize v)) :
    (Slot.normal v).ok capMax ∧ (Slot.normal v).val = v :=
  built_ok (normalSize_pos v) h (lt_pow_limbCount v)

theorem fitsSize_one {capMax : Option Nat} (h : ∀ c, capMax = some c → 16 ≤ c) : fitsSize capMax 1 := by
  cases capMax with
  | none => rfl
  | some c =>
    have : capacityAbove 1 = 16 := by decide
    simpa [fitsSize, aboveCapMax, this] using h c rfl

/-- A growing value in a normalised slot leaves a normalised slot (R80, R109). -/
theorem grownTo_normal {capMax : Option Nat} {u v : Nat} (hf : fitsSize capMax (normalSize u)) (huv : u ≤ v)
    (hv : v < limbBase ^ normalSize u) :
    (Slot.normal u).grownTo capMax v = builtTo capMax (normalSize v) v := by
  have hv' : limbCount v ≤ limbCount u + 1 := (limbCount_le_iff v _).mpr hv
  have hm := limbCount_mono huv
  unfold Slot.normal
  rw [grownTo_built hf]
  split
  · rename_i h
    have : limbCount v ≤ limbCount u := (limbCount_le_iff v _).mpr h
    rw [show normalSize u = normalSize v by simp only [normalSize]; omega]
  · rename_i h
    have : ¬ limbCount v ≤ limbCount u := fun h' => h ((limbCount_le_iff v _).mp h')
    rw [show normalSize u + 1 = normalSize v by simp only [normalSize]; omega]

end Sys2Proof.Machine
end

