-- ==== Sys2Proof/Laws/Scalar.lean ====
section
/-! SUPPORT. What AddScalar and MulScalar do, told by the value (41_scalar_arithmetic.md R75, R76, R82). -/

namespace Sys2Proof.Machine

theorem limb_def (x : Slot) (i : Nat) : x.limb i = x.limbs.getD i 0 := rfl

/-- Writing a used limb keeps every limb from the guard upward zero. -/
theorem setLimb_val_lt {x : Slot} {i : Nat} (hv : limbsVal x.limbs < limbBase ^ (x.size - 1)) (hi : i < x.size - 1)
    (l : Limb) : limbsVal (x.setLimb i l).limbs < limbBase ^ (x.size - 1) := by
  apply limbsVal_lt_of_zero
  intro j hj
  rw [Slot.setLimb_limbs, getD_set_ne _ _ (by omega)]
  exact getD_zero_of_val_lt _ hv hj

/-- GuardCheck after the write of a used limb does nothing. -/
theorem guardCheck_used {capMax : Option Nat} {x : Slot} (h : x.shape capMax)
    (hv : limbsVal x.limbs < limbBase ^ (x.size - 1)) : guardCheck capMax x = .ok x := by
  have hok : x.ok capMax := Slot.ok_iff.mpr ⟨h, hv⟩
  rw [guardCheck_eq_grownTo h (lt_of_lt_of_le hv (limbBase_pow_le (Nat.sub_le _ _))), ← hok.val_eq,
    Slot.grownTo_self hok]

theorem split_limbBase (n : Nat) : n % limbBase + limbBase * (n / limbBase) = n := Nat.mod_add_div n limbBase

/-- The value after adding a sum into limb `i` and keeping the carry apart. -/
theorem setLimb_add (x : Slot) {i : Nat} (hi : i < x.limbs.length) (c : Nat) :
    limbsVal (x.setLimb i (limbOf ((x.limb i).toNat + c))).limbs
      + limbBase ^ (i + 1) * (((x.limb i).toNat + c) / limbBase) = limbsVal x.limbs + limbBase ^ i * c := by
  have h := limbsVal_set x.limbs i (limbOf ((x.limb i).toNat + c)) hi
  have hs := split_limbBase ((x.limb i).toNat + c)
  rw [limbOf_toNat, ← limb_def] at h
  rw [Slot.setLimb_limbs]
  have e : limbBase ^ i * (((x.limb i).toNat + c) % limbBase)
      + limbBase ^ (i + 1) * (((x.limb i).toNat + c) / limbBase) = limbBase ^ i * (x.limb i).toNat + limbBase ^ i * c := by
    rw [pow_succ, mul_assoc, ← Nat.mul_add, hs, Nat.mul_add]
  omega

theorem addScalarLoop_zero (capMax : Option Nat) (fuel i : Nat) (x : Slot) :
    addScalarLoop capMax fuel i 0 x = .ok x := by
  cases fuel <;> simp [addScalarLoop]

/-- The carry loop from limb `i`: the carry, at the weight of limb `i`, is added to the value (R75). -/
theorem addScalarLoop_eq {capMax : Option Nat} (fuel : Nat) :
    ∀ (i c : Nat) (x : Slot), x.ok capMax → i ≤ x.size - 1 → x.size ≤ fuel + i → c < limbBase →
      addScalarLoop capMax fuel i c x = x.grownTo capMax (x.val + limbBase ^ i * c) := by
  induction fuel with
  | zero =>
    intro i c x h hi hf
    have := h.sizePos
    omega
  | succ fuel ih =>
    intro i c x h hi hf hc
    by_cases hc0 : c = 0
    · subst hc0
      rw [addScalarLoop_zero, Nat.mul_zero, Nat.add_zero, Slot.grownTo_self h]
    · have hlen : i < x.limbs.length := by have := h.length; have := h.sizePos; have := h.sizeCap; omega
      have hadd := setLimb_add x hlen c
      have hval := (Slot.ok_iff.mp h).2
      rw [h.val_eq, addScalarLoop, if_neg hc0]
      simp only
      generalize hy : x.setLimb i (limbOf ((x.limb i).toNat + c)) = y at hadd
      have hysh : y.shape capMax := hy ▸ h.shape.setLimb i _
      have hys : y.size = x.size := by rw [← hy]; rfl
      have hyc : y.cap = x.cap := by rw [← hy]; rfl
      have hcarry : ((x.limb i).toNat + c) / limbBase < limbBase := by
        have := limb_toNat_lt (x.limb i)
        rw [Nat.div_lt_iff_lt_mul (by norm_num)]
        simp only [limbBase] at *; omega
      by_cases hlt : i < x.size - 1
      · have hyv : limbsVal y.limbs < limbBase ^ (y.size - 1) := by
          rw [hys, ← hy]; exact setLimb_val_lt hval hlt _
        have hyok : y.ok capMax := Slot.ok_iff.mpr ⟨hysh, hyv⟩
        rw [guardCheck_used hysh hyv]
        simp only
        rw [ih (i + 1) _ y hyok (by omega) (by omega) hcarry, hyok.val_eq, hadd,
          Slot.grownTo_congr capMax hys hyc]
      · have hi' : i = x.size - 1 := by omega
        have h0 : (x.limb i).toNat = 0 := by
          rw [(limb_eq_zero_iff _).mp (h.zeroAbove i (by omega))]
        rw [h0, Nat.zero_add, Nat.div_eq_of_lt hc] at hadd ⊢
        rw [Nat.mul_zero, Nat.add_zero] at hadd
        have hyv : limbsVal y.limbs < limbBase ^ y.size := by
          have hval' : limbsVal x.limbs < limbBase ^ i := by rw [hi']; exact hval
          have e : limbBase ^ x.size = limbBase ^ i * limbBase := by
            rw [← pow_succ]; congr 1; have := h.sizePos; omega
          have e2 : limbBase ^ i * c + limbBase ^ i ≤ limbBase ^ i * limbBase := by
            calc _ = limbBase ^ i * (c + 1) := by ring
              _ ≤ _ := Nat.mul_le_mul_left _ hc
          rw [hadd, hys, e]
          omega
        rw [guardCheck_eq_grownTo hysh hyv, hadd, Slot.grownTo_congr capMax hys hyc]
        cases hz : x.grownTo capMax (limbsVal x.limbs + limbBase ^ i * c) with
        | ok z => simp only [addScalarLoop_zero]
        | error f => rfl

/-- AddScalar on a LIVE slot adds exactly, growing as R82 says. -/
theorem addScalar_eq {capMax : Option Nat} {x : Slot} (h : x.ok capMax) {v : Nat} (hv : v < limbBase) :
    addScalar capMax v x = x.grownTo capMax (x.val + v) := by
  have h1 := h.length
  have h2 := h.sizeCap
  rw [addScalar, addScalarLoop_eq _ 0 v x h (Nat.zero_le _) (by omega) hv, pow_zero, Nat.one_mul]

/-- The limb loop of MULS from limb `i`: the product of the limbs from `i` upward, and the carry in, are added to the
limbs already done (R76). -/
theorem mulScalarLoop_eq {capMax : Option Nat} {m : Nat} (hm : m < limbBase) (n : Nat) :
    ∀ (i c : Nat) (x : Slot), x.ok capMax → i + n = x.size - 1 → c < limbBase →
      ∃ y c', mulScalarLoop capMax m n i c x = .ok (y, c') ∧ y.ok capMax ∧ y.size = x.size ∧ y.cap = x.cap ∧
        c' < limbBase ∧
        limbsVal y.limbs + limbBase ^ (x.size - 1) * c' =
          limbsVal x.limbs % limbBase ^ i + limbBase ^ i * (c + m * (limbsVal x.limbs / limbBase ^ i)) := by
  induction n with
  | zero =>
    intro i c x h hi hc
    have hv := (Slot.ok_iff.mp h).2
    refine ⟨x, c, rfl, h, rfl, rfl, hc, ?_⟩
    rw [← hi, Nat.add_zero] at hv ⊢
    rw [Nat.mod_eq_of_lt hv, Nat.div_eq_of_lt hv]
    ring
  | succ n ih =>
    intro i c x h hi hc
    have hv := (Slot.ok_iff.mp h).2
    have hlen : i < x.limbs.length := by have := h.length; have := h.sizeCap; omega
    have hset := limbsVal_set_parts x.limbs (limbOf ((x.limb i).toNat * m + c)) hlen
    have hparts := limbsVal_parts x.limbs i
    have hyv := setLimb_val_lt hv (i := i) (by omega) (limbOf ((x.limb i).toNat * m + c))
    have hysh := h.shape.setLimb i (limbOf ((x.limb i).toNat * m + c))
    have hyok : (x.setLimb i (limbOf ((x.limb i).toNat * m + c))).ok capMax := Slot.ok_iff.mpr ⟨hysh, hyv⟩
    have hcarry : ((x.limb i).toNat * m + c) / limbBase < limbBase := by
      have hl := limb_toNat_lt (x.limb i)
      rw [Nat.div_lt_iff_lt_mul (by norm_num)]
      have : (x.limb i).toNat * m ≤ (limbBase - 1) * (limbBase - 1) := Nat.mul_le_mul (by omega) (by omega)
      simp only [limbBase] at *
      omega
    obtain ⟨y, c', hrun, hok, hs, hcap, hc', hsum⟩ := ih (i + 1) _ _ hyok (by simpa using by omega) hcarry
    refine ⟨y, c', ?_, hok, hs, hcap, hc', ?_⟩
    · rw [mulScalarLoop]
      simp only [guardCheck_used hysh hyv]
      exact hrun
    · rw [Slot.setLimb_size, Slot.setLimb_limbs, hset, limbOf_toNat] at hsum
      obtain ⟨hd, hmod⟩ := div_of_parts (lo := limbsVal x.limbs % limbBase ^ i) (i := i)
        (hi := limbsVal x.limbs / limbBase ^ (i + 1)) (mod_pow_lt _ _)
        (Nat.mod_lt ((x.limb i).toNat * m + c) (show 0 < limbBase by norm_num))
      rw [hd, hmod] at hsum
      rw [hsum]
      have hx : limbsVal x.limbs / limbBase ^ i =
          (x.limb i).toNat + limbBase * (limbsVal x.limbs / limbBase ^ (i + 1)) := by
        rw [limb_def, limbsVal_digit, pow_succ, ← Nat.div_div_eq_div_mul, Nat.mod_add_div]
      rw [hx]
      have hs := split_limbBase ((x.limb i).toNat * m + c)
      calc _ = limbsVal x.limbs % limbBase ^ i + limbBase ^ i *
            (((x.limb i).toNat * m + c) % limbBase + limbBase * (((x.limb i).toNat * m + c) / limbBase)
              + m * (limbBase * (limbsVal x.limbs / limbBase ^ (i + 1)))) := by rw [pow_succ]; ring
        _ = _ := by rw [hs]; ring

/-- MulScalar on a LIVE slot multiplies exactly, growing as R82 says. -/
theorem mulScalar_eq {capMax : Option Nat} {x : Slot} (h : x.ok capMax) {m : Nat} (hm : m < limbBase) :
    mulScalar capMax m x = x.grownTo capMax (x.val * m) := by
  obtain ⟨y, c, hrun, hok, hs, hcap, hc, hsum⟩ :=
    mulScalarLoop_eq hm (x.size - 1) 0 0 x h (Nat.zero_add _) (by norm_num)
  have hval : x.val * m = limbsVal y.limbs + limbBase ^ (x.size - 1) * c := by
    rw [hsum, h.val_eq, pow_zero, Nat.mod_one, Nat.div_one]; ring
  rw [mulScalar, hrun]
  simp only
  split
  · rename_i hc0
    subst hc0
    rw [hval, Nat.mul_zero, Nat.add_zero, ← hok.val_eq, ← Slot.grownTo_congr capMax hs hcap, Slot.grownTo_self hok]
  · have hsz := h.sizePos
    have hlen : x.size - 1 < y.limbs.length := by have := hok.length; have := hok.sizeCap; omega
    have h0 : (y.limb (x.size - 1)).toNat = 0 := by
      rw [(limb_eq_zero_iff _).mp (hok.zeroAbove _ (by omega))]
    have hset := limbsVal_set y.limbs (x.size - 1) (limbOf c) hlen
    rw [← limb_def, h0, Nat.mul_zero, Nat.add_zero, limbOf_toNat, Nat.mod_eq_of_lt hc] at hset
    have hyv := (Slot.ok_iff.mp hok).2
    rw [hs] at hyv
    have hlt : limbsVal y.limbs + limbBase ^ (x.size - 1) * c < limbBase ^ x.size := by
      have e : limbBase ^ x.size = limbBase ^ (x.size - 1) * limbBase := by
        rw [← pow_succ]; congr 1; omega
      have e2 : limbBase ^ (x.size - 1) * c + limbBase ^ (x.size - 1) ≤ limbBase ^ (x.size - 1) * limbBase := by
        calc _ = limbBase ^ (x.size - 1) * (c + 1) := by ring
          _ ≤ _ := Nat.mul_le_mul_left _ hc
      omega
    rw [guardCheck_eq_grownTo (hok.shape.setLimb _ _)
        (by rw [Slot.setLimb_limbs, Slot.setLimb_size, hset, hs]; exact hlt),
      Slot.setLimb_limbs, hset, ← hval]
    exact Slot.grownTo_congr capMax hs hcap _

end Sys2Proof.Machine
end

