-- ==== Sys2Proof/Laws/Shift.lean ====
section
/-! SUPPORT. What ShiftLeft and ShiftRight do, told by the value (43_shift_engine.md R95, R97 to R100). -/

namespace Sys2Proof.Machine

theorem limbBase_split {k : Nat} (hk : k ≤ 32) : 2 ^ k * 2 ^ (32 - k) = limbBase := by
  rw [← pow_add, Nat.add_sub_cancel' hk]; rfl

/-- A multiple of `2^k` and a number below `2^k` have no bit in common. -/
theorem or_toNat {a b : Limb} {k : Nat} (ha : 2 ^ k ∣ a.toNat) (hb : b.toNat < 2 ^ k) :
    (a ||| b).toNat = a.toNat + b.toNat := by
  obtain ⟨q, hq⟩ := ha
  rw [BitVec.toNat_or, hq, Nat.two_pow_add_eq_or_of_lt hb]

theorem dvd_mod_limbBase {k n : Nat} (hk : k ≤ 32) (h : 2 ^ k ∣ n) : 2 ^ k ∣ n % limbBase :=
  (Nat.dvd_mod_iff ⟨2 ^ (32 - k), (limbBase_split hk).symm⟩).mpr h

/-- One limb of a left shift (R95). -/
theorem shiftLeft_limb {k : Nat} (hk : k ≤ 32) (hi lo : Limb) :
    (limbOf (hi.toNat * 2 ^ k) ||| limbOf (lo.toNat / 2 ^ (32 - k))).toNat =
      hi.toNat * 2 ^ k % limbBase + lo.toNat / 2 ^ (32 - k) := by
  have hlo : lo.toNat / 2 ^ (32 - k) < 2 ^ k := by
    rw [Nat.div_lt_iff_lt_mul (Nat.pow_pos (by norm_num)), limbBase_split hk]; exact limb_toNat_lt lo
  have hlo' : lo.toNat / 2 ^ (32 - k) % limbBase = lo.toNat / 2 ^ (32 - k) :=
    Nat.mod_eq_of_lt (lt_of_le_of_lt (Nat.div_le_self _ _) (limb_toNat_lt lo))
  rw [or_toNat (k := k)]
  · rw [limbOf_toNat, limbOf_toNat, hlo']
  · rw [limbOf_toNat]; exact dvd_mod_limbBase hk (Nat.dvd_mul_left _ _)
  · rw [limbOf_toNat, hlo']; exact hlo

/-- One limb of a right shift (R97). -/
theorem shiftRight_limb {k : Nat} (hk : k ≤ 32) (lo hi : Limb) :
    (limbOf (lo.toNat / 2 ^ k) ||| limbOf (hi.toNat * 2 ^ (32 - k))).toNat =
      lo.toNat / 2 ^ k + hi.toNat * 2 ^ (32 - k) % limbBase := by
  have h := shiftLeft_limb (k := 32 - k) (Nat.sub_le _ _) hi lo
  rw [Nat.sub_sub_self hk] at h
  rw [BitVec.or_comm, h, Nat.add_comm]

theorem shiftLeftLoop_frame (k n : Nat) :
    ∀ x : Slot, (shiftLeftLoop k n x).size = x.size ∧ (shiftLeftLoop k n x).cap = x.cap ∧
      (shiftLeftLoop k n x).limbs.length = x.limbs.length := by
  induction n with
  | zero => intro x; exact ⟨rfl, rfl, rfl⟩
  | succ n ih => intro x; rw [shiftLeftLoop]; exact ⟨(ih _).1, (ih _).2.1, by rw [(ih _).2.2]; simp⟩

/-- The top bits of the lower part cross into the limb above. -/
theorem shl_carry {P q C k : Nat} (hk : k ≤ 32) (hq : q < 2 ^ k) :
    P * (q + C * 2 ^ k % limbBase) = P * ((q + C * 2 ^ k) % limbBase) := by
  have hd : 2 ^ k ∣ C * 2 ^ k % limbBase := dvd_mod_limbBase hk (Nat.dvd_mul_left _ _)
  have hb : 2 ^ k ∣ limbBase := ⟨_, (limbBase_split hk).symm⟩
  have hlt : C * 2 ^ k % limbBase < limbBase := Nat.mod_lt _ (by norm_num)
  obtain ⟨e, he⟩ := hd
  obtain ⟨f, hf⟩ := hb
  have : q + C * 2 ^ k % limbBase < limbBase := by
    rw [he] at hlt ⊢
    rw [hf] at hlt ⊢
    have : e < f := lt_of_mul_lt_mul_left hlt (Nat.zero_le _)
    calc q + 2 ^ k * e < 2 ^ k * (e + 1) := by rw [Nat.mul_add, Nat.mul_one]; omega
      _ ≤ 2 ^ k * f := Nat.mul_le_mul_left _ this
  congr 1
  rw [Nat.add_mod q, Nat.mod_eq_of_lt (a := q)]
  · exact (Nat.mod_eq_of_lt this).symm
  · omega

/-- The limb loop of ShiftLeft from index `n` down, with limb 0 last: the limbs up to `n` are shifted as one number,
the limbs above stay (R95). -/
theorem shiftLeftLoop_eq {k : Nat} (hk : k ≤ 32) (n : Nat) :
    ∀ x : Slot, n < x.limbs.length →
      let y := shiftLeftLoop k n x
      limbsVal (y.setLimb 0 (limbOf ((y.limb 0).toNat * 2 ^ k))).limbs =
        (limbsVal x.limbs % limbBase ^ (n + 1) * 2 ^ k) % limbBase ^ (n + 1)
          + limbBase ^ (n + 1) * (limbsVal x.limbs / limbBase ^ (n + 1)) := by
  induction n with
  | zero =>
    intro x hn
    simp only [shiftLeftLoop, Slot.setLimb_limbs]
    rw [limbsVal_set_parts _ _ hn, limbOf_toNat, limb_def, limbsVal_digit]
    simp [Nat.mod_one]
  | succ n ih =>
    intro x hn
    simp only [shiftLeftLoop]
    have hlen : n < (x.setLimb (n + 1) (limbOf ((x.limb (n + 1)).toNat * 2 ^ k) |||
        limbOf ((x.limb n).toNat / 2 ^ (32 - k)))).limbs.length := by simp; omega
    have h := ih _ hlen
    simp only at h
    rw [h]
    clear h ih hlen
    rw [Slot.setLimb_limbs, limbsVal_set_parts _ _ hn, shiftLeft_limb hk]
    have hplt := shiftLeft_limb hk (x.limb (n + 1)) (x.limb n)
    have hp : (x.limb (n + 1)).toNat * 2 ^ k % limbBase + (x.limb n).toNat / 2 ^ (32 - k) < limbBase :=
      hplt ▸ limb_toNat_lt _
    generalize hlo : limbsVal x.limbs % limbBase ^ (n + 1) = lo
    generalize hhi : limbsVal x.limbs / limbBase ^ (n + 1 + 1) = hi
    have hlolt : lo < limbBase ^ (n + 1) := hlo ▸ mod_pow_lt _ _
    -- the whole, in parts
    have hwhole : limbsVal x.limbs % limbBase ^ (n + 1 + 1) = lo + limbBase ^ (n + 1) * (x.limb (n + 1)).toNat := by
      rw [pow_succ, Nat.mod_mul, hlo, limb_def, limbsVal_digit]
    have htop : (x.limb n).toNat = lo / limbBase ^ n := by
      rw [limb_def, limbsVal_digit, ← hlo, pow_succ, Nat.mod_mul_right_div_self]
    have hq : lo * 2 ^ k / limbBase ^ (n + 1) = (x.limb n).toNat / 2 ^ (32 - k) := by
      rw [htop, Nat.div_div_eq_div_mul, pow_succ, ← limbBase_split hk, mul_comm (2 ^ k), ← mul_assoc,
        Nat.mul_div_mul_right _ _ (Nat.pow_pos (by norm_num))]
    have hqlt : (x.limb n).toNat / 2 ^ (32 - k) < 2 ^ k := by
      rw [Nat.div_lt_iff_lt_mul (Nat.pow_pos (by norm_num)), limbBase_split hk]; exact limb_toNat_lt _
    have hpos : 0 < limbBase ^ (n + 1) := Nat.pow_pos (by norm_num)
    generalize hA : (x.limb (n + 1)).toNat = C at *
    generalize hB : (x.limb n).toNat / 2 ^ (32 - k) = q at *
    have e1 : (lo + limbBase ^ (n + 1) * (C * 2 ^ k % limbBase + q) + limbBase ^ (n + 1 + 1) * hi) % limbBase ^ (n + 1)
        = lo := by
      rw [pow_succ (n := n + 1), mul_assoc, add_assoc, ← Nat.mul_add, Nat.add_mul_mod_self_left, Nat.mod_eq_of_lt hlolt]
    have e2 : (lo + limbBase ^ (n + 1) * (C * 2 ^ k % limbBase + q) + limbBase ^ (n + 1 + 1) * hi) / limbBase ^ (n + 1)
        = C * 2 ^ k % limbBase + q + limbBase * hi := by
      rw [pow_succ (n := n + 1), mul_assoc, add_assoc, ← Nat.mul_add, Nat.add_mul_div_left _ _ hpos,
        Nat.div_eq_of_lt hlolt, Nat.zero_add]
    rw [e1, e2, hwhole]
    have e3 : (lo + limbBase ^ (n + 1) * C) * 2 ^ k % limbBase ^ (n + 1 + 1) =
        lo * 2 ^ k % limbBase ^ (n + 1) + limbBase ^ (n + 1) * (q + C * 2 ^ k % limbBase) := by
      rw [show (lo + limbBase ^ (n + 1) * C) * 2 ^ k = lo * 2 ^ k + limbBase ^ (n + 1) * (C * 2 ^ k) by ring,
        pow_succ (n := n + 1), Nat.mod_mul, Nat.add_mul_mod_self_left, Nat.add_mul_div_left _ _ hpos, hq,
        shl_carry hk hqlt]
    rw [e3, pow_succ (n := n + 1)]
    ring

/-- ShiftLeft on a LIVE slot multiplies by `2^k`, growing when the top used limb had a 1 among its top `k` bits (R95). -/
theorem shiftLeft_eq {capMax : Option Nat} {x : Slot} (h : x.ok capMax) {k : Nat} (hk : k ≤ 31) :
    shiftLeft capMax k x = x.grownTo capMax (x.val * 2 ^ k) := by
  unfold shiftLeft
  split
  · rename_i hk0
    subst hk0
    rw [pow_zero, Nat.mul_one, Slot.grownTo_self h]
  · have h1 := h.sizePos
    have h2 := h.sizeCap
    have h3 := h.length
    have hrun := shiftLeftLoop_eq (k := k) (by omega) (x.size - 1) x (by omega)
    obtain ⟨hs, hc, hl⟩ := shiftLeftLoop_frame k (x.size - 1) x
    simp only at hrun ⊢
    have hv := (Slot.ok_iff.mp h).2
    rw [Nat.sub_add_cancel h1] at hrun
    have hv' : limbsVal x.limbs < limbBase ^ x.size := lt_of_lt_of_le hv (limbBase_pow_le (Nat.sub_le _ _))
    have hlt : limbsVal x.limbs * 2 ^ k < limbBase ^ x.size := by
      calc limbsVal x.limbs * 2 ^ k < limbBase ^ (x.size - 1) * 2 ^ k :=
            Nat.mul_lt_mul_of_pos_right hv (Nat.pow_pos (by norm_num))
        _ ≤ limbBase ^ (x.size - 1) * limbBase :=
            Nat.mul_le_mul_left _ (by
              rw [show limbBase = 2 ^ 32 from rfl]; exact Nat.pow_le_pow_right (by norm_num) (by omega))
        _ = limbBase ^ x.size := by rw [← pow_succ, Nat.sub_add_cancel h1]
    rw [Nat.mod_eq_of_lt hv', Nat.mod_eq_of_lt hlt, Nat.div_eq_of_lt hv', Nat.mul_zero, Nat.add_zero] at hrun
    generalize hy : (shiftLeftLoop k (x.size - 1) x).setLimb 0
      (limbOf (((shiftLeftLoop k (x.size - 1) x).limb 0).toNat * 2 ^ k)) = y at hrun
    have hys : y.size = x.size := by rw [← hy]; exact hs
    have hyc : y.cap = x.cap := by rw [← hy]; exact hc
    have hyl : y.limbs.length = y.cap := by rw [← hy]; simp [hl, hc, h3]
    have hsh : y.shape capMax :=
      ⟨hyc ▸ h.capacity, hyl, hys ▸ h1, by rw [hys, hyc]; exact h2, by rw [hys, hyc]; exact h.bounded⟩
    rw [guardCheck_eq_grownTo hsh (by rw [hrun, hys]; exact hlt), hrun, h.val_eq]
    exact Slot.grownTo_congr capMax hys hyc _

theorem shiftRightLoop_frame (k n : Nat) :
    ∀ (i : Nat) (x : Slot), (shiftRightLoop k n i x).size = x.size ∧ (shiftRightLoop k n i x).cap = x.cap ∧
      (shiftRightLoop k n i x).limbs.length = x.limbs.length := by
  induction n with
  | zero => intro i x; exact ⟨rfl, rfl, rfl⟩
  | succ n ih => intro i x; rw [shiftRightLoop]; exact ⟨(ih _ _).1, (ih _ _).2.1, by rw [(ih _ _).2.2]; simp⟩

/-- The limb loop of ShiftRight from limb `i`: the limbs from `i` upward are shifted as one number, the limbs below
stay (R97). -/
theorem shiftRightLoop_eq {k : Nat} (hk : k ≤ 32) (n : Nat) :
    ∀ (i : Nat) (x : Slot), i + n < x.limbs.length → limbsVal x.limbs < limbBase ^ (i + n) →
      limbsVal (shiftRightLoop k n i x).limbs =
        limbsVal x.limbs % limbBase ^ i + limbBase ^ i * (limbsVal x.limbs / limbBase ^ i / 2 ^ k) := by
  induction n with
  | zero =>
    intro i x hi hv
    rw [Nat.add_zero] at hv
    simp [shiftRightLoop, Nat.mod_eq_of_lt hv, Nat.div_eq_of_lt hv]
  | succ n ih =>
    intro i x hi hv
    simp only [shiftRightLoop]
    have hset := limbsVal_set_parts x.limbs
      (limbOf ((x.limb i).toNat / 2 ^ k) ||| limbOf ((x.limb (i + 1)).toNat * 2 ^ (32 - k))) (i := i) (by omega)
    have hplt := shiftRight_limb hk (x.limb i) (x.limb (i + 1))
    have hp := hplt ▸ limb_toNat_lt _
    rw [hplt] at hset
    obtain ⟨hd, hm⟩ := div_of_parts (hi := limbsVal x.limbs / limbBase ^ (i + 1)) (mod_pow_lt (limbsVal x.limbs) i) hp
    rw [ih (i + 1) _ (by simp; omega), Slot.setLimb_limbs, hset, hd, hm]
    · have hx : limbsVal x.limbs / limbBase ^ i =
          (x.limb i).toNat + limbBase * (limbsVal x.limbs / limbBase ^ (i + 1)) := by
        rw [limb_def, limbsVal_digit, pow_succ, ← Nat.div_div_eq_div_mul, Nat.mod_add_div]
      have hn : (x.limb (i + 1)).toNat = limbsVal x.limbs / limbBase ^ (i + 1) % limbBase := by
        rw [limb_def, limbsVal_digit]
      rw [hx, hn]
      generalize limbsVal x.limbs / limbBase ^ (i + 1) = H
      have e1 : ((x.limb i).toNat + limbBase * H) / 2 ^ k = (x.limb i).toNat / 2 ^ k + 2 ^ (32 - k) * H := by
        rw [← limbBase_split hk, mul_assoc, Nat.add_mul_div_left _ _ (Nat.pow_pos (by norm_num))]
      have e2 : H % limbBase * 2 ^ (32 - k) % limbBase = 2 ^ (32 - k) * H % limbBase := by
        rw [Nat.mod_mul_mod, mul_comm]
      have e3 : H / 2 ^ k = 2 ^ (32 - k) * H / limbBase := by
        rw [← limbBase_split hk, mul_comm (2 ^ k), Nat.mul_div_mul_left _ _ (Nat.pow_pos (by norm_num))]
      rw [e1, e2, e3, pow_succ]
      have := split_limbBase (2 ^ (32 - k) * H)
      calc _ = limbsVal x.limbs % limbBase ^ i + limbBase ^ i * ((x.limb i).toNat / 2 ^ k
            + (2 ^ (32 - k) * H % limbBase + limbBase * (2 ^ (32 - k) * H / limbBase))) := by ring
        _ = _ := by rw [this]
    · apply limbsVal_lt_of_zero
      intro j hj
      rw [Slot.setLimb_limbs, getD_set_ne _ _ (by omega)]
      exact getD_zero_of_val_lt _ hv (by omega)

/-- ShiftRight on a LIVE slot divides by `2^k`, with at most one limb of shrink (R97). -/
theorem shiftRight_eq {capMax : Option Nat} {x : Slot} (h : x.ok capMax) {k : Nat} (hk : k ≤ 31) :
    shiftRight k x = x.shrunkBy k := by
  unfold shiftRight Slot.shrunkBy
  split
  · rename_i hk0
    simp only [hk0, ne_eq, not_true_eq_false, false_and, if_false, pow_zero, Nat.div_one]
    exact h.eq_holding
  · rename_i hk0
    have h1 := h.sizePos
    have h2 := h.sizeCap
    have h3 := h.length
    have hv := (Slot.ok_iff.mp h).2
    have hrun := shiftRightLoop_eq (k := k) (by omega) (x.size - 1) 0 x (by omega) (by simpa using hv)
    obtain ⟨hs, hc, hl⟩ := shiftRightLoop_frame k (x.size - 1) 0 x
    rw [pow_zero, Nat.mod_one, Nat.div_one, Nat.zero_add, Nat.one_mul, ← h.val_eq] at hrun
    simp only
    generalize shiftRightLoop k (x.size - 1) 0 x = y at *
    have hyl : y.limbs.length = y.cap := by rw [hl, hc, h3]
    have hyh := Slot.eq_holding hyl
    rw [hrun, hs, hc] at hyh
    have hq : x.val / 2 ^ k < limbBase ^ (x.size - 1) := lt_of_le_of_lt (Nat.div_le_self _ _) h.val_lt
    by_cases h2s : 2 < x.size
    · have htop : y.limb (y.size - 2) = 0 ↔ x.val / 2 ^ k < limbBase ^ (x.size - 2) := by
        have := topLimb_eq_zero_iff (ls := y.limbs) (size := x.size - 1) (by omega) (by rw [hrun]; exact hq)
        rw [hrun] at this
        rw [limb_def, hs]
        exact this
      by_cases hsm : x.val / 2 ^ k < limbBase ^ (x.size - 2)
      · rw [if_pos ⟨hs ▸ h2s, htop.mpr hsm⟩, if_pos ⟨hk0, h2s, hsm⟩]
        rw [hyh]; rfl
      · rw [if_neg (fun hh => hsm (htop.mp hh.2)), if_neg (fun hh => hsm hh.2.2)]
        exact hyh
    · rw [if_neg (fun hh => h2s (hs ▸ hh.1)), if_neg (fun hh => h2s hh.2.1)]
      exact hyh

/-- The content of a right shift is LIVE with the shifted value (R97). -/
theorem shrunkBy_ok {capMax : Option Nat} {x : Slot} (h : x.ok capMax) (k : Nat) :
    (x.shrunkBy k).ok capMax ∧ (x.shrunkBy k).val = x.val / 2 ^ k := by
  have hq : x.val / 2 ^ k < limbBase ^ (x.size - 1) := lt_of_le_of_lt (Nat.div_le_self _ _) h.val_lt
  have h2 := h.sizeCap
  unfold Slot.shrunkBy
  split
  · rename_i hc
    refine Slot.holding_ok h.capacity (by omega) (by omega) (fun c hcm => ?_) (by
      rw [show x.size - 1 - 1 = x.size - 2 by omega]; exact hc.2.2)
    have := h.bounded c hcm
    omega
  · exact Slot.holding_ok h.capacity h.sizePos h2 h.bounded hq

end Sys2Proof.Machine
end

