-- ==== Sys2Proof/Laws/Divide.lean ====
section
/-! SUPPORT. What DivScalar does, told by the value (41_scalar_arithmetic.md R77, R80, R81). -/

namespace Sys2Proof.Machine

/-- Setting the low bit of an even value in a normalised slot, with its GuardCheck (R77). -/
theorem setLowBit_eq {capMax : Option Nat} {u : Nat} (hf : fitsSize capMax (normalSize (2 * u + 1))) :
    guardCheck capMax ((Slot.normal (2 * u)).setLimb 0 ((Slot.normal (2 * u)).limb 0 ||| 1)) =
      .ok (Slot.normal (2 * u + 1)) := by
  have hf0 : fitsSize capMax (normalSize (2 * u)) := hf.mono (normalSize_mono (by omega))
  have hsh : (Slot.normal (2 * u)).shape capMax := built_shape (normalSize_pos _) hf0 _
  have hval : limbsVal (Slot.normal (2 * u)).limbs = 2 * u := by
    have := normal_ok hf0; rw [← this.1.val_eq]; exact this.2
  have hlen : 0 < (Slot.normal (2 * u)).limbs.length := by
    have := lt_capacityAbove (normalSize (2 * u)); simp [Slot.normal]; omega
  have hlow : ((Slot.normal (2 * u)).limb 0).toNat = 2 * u % limbBase := by
    rw [limb_def, limbsVal_digit, hval, pow_zero, Nat.div_one]
  have hone : ((Slot.normal (2 * u)).limb 0 ||| 1).toNat = 2 * u % limbBase + 1 := by
    rw [or_toNat (k := 1), hlow]
    · rfl
    · rw [hlow]; exact dvd_mod_limbBase (by norm_num) ⟨u, by ring⟩
    · decide
  have hset := limbsVal_set (Slot.normal (2 * u)).limbs 0 ((Slot.normal (2 * u)).limb 0 ||| 1) hlen
  rw [hone, ← limb_def, hlow, hval, pow_zero] at hset
  have hnew : limbsVal ((Slot.normal (2 * u)).setLimb 0 ((Slot.normal (2 * u)).limb 0 ||| 1)).limbs = 2 * u + 1 := by
    rw [Slot.setLimb_limbs]; omega
  have hlt : 2 * u + 1 < limbBase ^ normalSize (2 * u) := by
    have h := lt_pow_limbCount (2 * u)
    rw [normalSize, pow_succ]
    have : 1 ≤ limbBase ^ limbCount (2 * u) := Nat.one_le_pow _ _ (by norm_num)
    simp only [limbBase] at *
    omega
  rw [guardCheck_eq_grownTo (hsh.setLimb _ _) (by rw [hnew]; exact hlt), hnew,
    Slot.setLimb_grownTo, grownTo_normal hf0 (by omega) hlt,
    builtTo_of_fits hf]
  rfl

/-- Doubling a normalised quotient that still fits (R95). -/
theorem double_normal {capMax : Option Nat} {u : Nat} (hf : fitsSize capMax (normalSize (2 * u))) :
    shiftLeft capMax 1 (Slot.normal u) = .ok (Slot.normal (2 * u)) := by
  have hf0 : fitsSize capMax (normalSize u) := hf.mono (normalSize_mono (by omega))
  obtain ⟨hok, hv⟩ := normal_ok hf0
  have hlt : u * 2 ^ 1 < limbBase ^ normalSize u := by
    have h := lt_pow_limbCount u
    rw [normalSize, pow_succ]
    have : 1 ≤ limbBase ^ limbCount u := Nat.one_le_pow _ _ (by norm_num)
    simp only [limbBase] at *
    omega
  rw [shiftLeft_eq hok (by norm_num), hv, grownTo_normal hf0 (by omega) hlt,
    show u * 2 ^ 1 = 2 * u by ring, builtTo_of_fits hf]
  rfl

/-- The number the running remainder and the quotient stand for, one dividend bit further (R77). -/
theorem div_bit {v u rem b : Nat} (hv : 0 < v) (hr : rem < v) (hb : b ≤ 1) :
    (if v ≤ rem * 2 + b then 2 * u + 1 else 2 * u) = (2 * (rem + v * u) + b) / v ∧
    (if v ≤ rem * 2 + b then rem * 2 + b - v else rem * 2 + b) = (2 * (rem + v * u) + b) % v := by
  split
  · have h : 2 * (rem + v * u) + b = (rem * 2 + b - v) + v * (2 * u + 1) := by
      have : v * (2 * u + 1) = 2 * (v * u) + v := by ring
      omega
    rw [h, Nat.add_mul_div_left _ _ hv, Nat.add_mul_mod_self_left, Nat.div_eq_of_lt (by omega),
      Nat.mod_eq_of_lt (by omega)]
    simp
  · have h : 2 * (rem + v * u) + b = (rem * 2 + b) + v * (2 * u) := by
      have : v * (2 * u) = 2 * (v * u) := by ring
      omega
    rw [h, Nat.add_mul_div_left _ _ hv, Nat.add_mul_mod_self_left, Nat.div_eq_of_lt (by omega),
      Nat.mod_eq_of_lt (by omega)]
    simp

theorem bit_parts (l : Limb) (j : Nat) :
    l.toNat % 2 ^ (j + 1) = (l.getLsbD j).toNat * 2 ^ j + l.toNat % 2 ^ j := by
  rw [pow_succ, Nat.mod_mul, BitVec.getLsbD, Nat.testBit_eq_decide_div_mod_eq]
  have : l.toNat / 2 ^ j % 2 < 2 := Nat.mod_lt _ (by norm_num)
  rcases Nat.lt_succ_iff_lt_or_eq.mp this with h | h
  · have h0 : l.toNat / 2 ^ j % 2 = 0 := by omega
    simp [h0]
  · simp [h, Nat.add_comm]

/-- The bit loop of DIVS: `n` more bits of the dividend brought down (R77). -/
theorem divBits_eq {capMax : Option Nat} {v : Nat} (hv : 0 < v) (l : Limb) (n : Nat) :
    ∀ (u rem : Nat), rem < v →
      fitsSize capMax (normalSize (((rem + v * u) * 2 ^ n + l.toNat % 2 ^ n) / v)) →
      divBits capMax v l n (Slot.normal u) rem =
        .ok (Slot.normal (((rem + v * u) * 2 ^ n + l.toNat % 2 ^ n) / v),
          ((rem + v * u) * 2 ^ n + l.toNat % 2 ^ n) % v) := by
  induction n with
  | zero =>
    intro u rem hr _
    simp only [pow_zero, Nat.mod_one, Nat.mul_one, Nat.add_zero]
    rw [Nat.add_mul_div_left _ _ hv, Nat.add_mul_mod_self_left, Nat.div_eq_of_lt hr, Nat.mod_eq_of_lt hr, Nat.zero_add]
    rfl
  | succ j ih =>
    intro u rem hr hf
    have hb : (l.getLsbD j).toNat ≤ 1 := Bool.toNat_le _
    generalize hbb : (l.getLsbD j).toNat = b at hb
    obtain ⟨hq, hm⟩ := div_bit (u := u) hv hr hb
    have htotal : (rem + v * u) * 2 ^ (j + 1) + l.toNat % 2 ^ (j + 1) =
        (2 * (rem + v * u) + b) * 2 ^ j + l.toNat % 2 ^ j := by
      rw [bit_parts, hbb, pow_succ]; ring
    have hsplit := Nat.mod_add_div (2 * (rem + v * u) + b) v
    rw [htotal] at hf ⊢
    have hnext : fitsSize capMax (normalSize ((2 * (rem + v * u) + b) / v)) := by
      apply hf.mono (normalSize_mono (Nat.div_le_div_right _))
      exact le_trans (Nat.le_mul_of_pos_right _ (Nat.pow_pos (by norm_num))) (Nat.le_add_right _ _)
    have hlast := ih ((2 * (rem + v * u) + b) / v) ((2 * (rem + v * u) + b) % v) (Nat.mod_lt _ hv)
      (by rw [hsplit]; exact hf)
    rw [hsplit] at hlast
    rw [← hlast, divBits]
    simp only [hbb]
    have hdouble : 2 * u ≤ (2 * (rem + v * u) + b) / v := by rw [← hq]; split <;> omega
    rw [double_normal (hnext.mono (normalSize_mono hdouble))]
    simp only
    by_cases hge : v ≤ rem * 2 + b
    · rw [if_pos hge] at hq hm ⊢
      rw [setLowBit_eq (by rw [hq]; exact hnext)]
      simp only
      rw [hm, hq]
    · rw [if_neg hge] at hq hm ⊢
      rw [hm, hq]

/-- The limb loop of DIVS: `n` more limbs of the dividend brought down (R77). -/
theorem divLimbs_eq {capMax : Option Nat} {v : Nat} (hv : 0 < v) (a : Slot) (n : Nat) :
    ∀ (u rem : Nat), rem < v →
      fitsSize capMax (normalSize (((rem + v * u) * limbBase ^ n + limbsVal a.limbs % limbBase ^ n) / v)) →
      divLimbs capMax v a n (Slot.normal u) rem =
        .ok (Slot.normal (((rem + v * u) * limbBase ^ n + limbsVal a.limbs % limbBase ^ n) / v),
          ((rem + v * u) * limbBase ^ n + limbsVal a.limbs % limbBase ^ n) % v) := by
  induction n with
  | zero =>
    intro u rem hr _
    simp only [pow_zero, Nat.mod_one, Nat.mul_one, Nat.add_zero]
    rw [Nat.add_mul_div_left _ _ hv, Nat.add_mul_mod_self_left, Nat.div_eq_of_lt hr, Nat.mod_eq_of_lt hr, Nat.zero_add]
    rfl
  | succ n ih =>
    intro u rem hr hf
    have hl : (a.limb n).toNat % 2 ^ 32 = (a.limb n).toNat := Nat.mod_eq_of_lt (limb_toNat_lt _)
    have htotal : (rem + v * u) * limbBase ^ (n + 1) + limbsVal a.limbs % limbBase ^ (n + 1) =
        ((rem + v * u) * 2 ^ 32 + (a.limb n).toNat) * limbBase ^ n + limbsVal a.limbs % limbBase ^ n := by
      rw [limb_def, limbsVal_digit, pow_succ, Nat.mod_mul]
      rw [show (2 : Nat) ^ 32 = limbBase from rfl]
      ring
    have hbits := divBits_eq (capMax := capMax) hv (a.limb n) 32 u rem hr
    rw [hl] at hbits
    have hsplit := Nat.mod_add_div ((rem + v * u) * 2 ^ 32 + (a.limb n).toNat) v
    rw [htotal] at hf ⊢
    have hnext : fitsSize capMax (normalSize (((rem + v * u) * 2 ^ 32 + (a.limb n).toNat) / v)) := by
      apply hf.mono (normalSize_mono (Nat.div_le_div_right _))
      exact le_trans (Nat.le_mul_of_pos_right _ (Nat.pow_pos (by norm_num))) (Nat.le_add_right _ _)
    have hlast := ih (((rem + v * u) * 2 ^ 32 + (a.limb n).toNat) / v) (((rem + v * u) * 2 ^ 32 + (a.limb n).toNat) % v)
      (Nat.mod_lt _ hv) (by rw [hsplit]; exact hf)
    rw [hsplit] at hlast
    rw [← hlast, divLimbs, hbits hnext]

/-- A quotient never outgrows a LIVE dividend (R77, faults). -/
theorem quotient_fits {capMax : Option Nat} {a : Slot} (h : a.ok capMax)
    (hcm : ∀ c, capMax = some c → isCapacity c) (v : Nat) :
    fitsSize capMax (normalSize (a.val / v)) := by
  have h1 := h.sizePos
  have hle : normalSize (a.val / v) ≤ a.size := by
    have : limbCount (a.val / v) ≤ a.size - 1 :=
      (limbCount_le_iff _ _).mpr (lt_of_le_of_lt (Nat.div_le_self _ _) h.val_lt)
    simp only [normalSize]; omega
  cases hc : capMax with
  | none => rfl
  | some c =>
    apply fitsSize.mono hle
    have hb := h.bounded c hc
    have := capacityAbove_le_of_lt (hcm c hc) hb.2
    simpa [fitsSize, aboveCapMax] using this

/-- DivScalar on a LIVE dividend: the normalised quotient and the remainder, and no fault (R77, R80, R81). -/
theorem divScalar_eq {capMax : Option Nat} {a : Slot} (h : a.ok capMax)
    (hcm : ∀ c, capMax = some c → isCapacity c) {v : Nat} (hv : 0 < v) :
    divScalar capMax v a = .ok (Slot.normal (a.val / v), a.val % v) := by
  have hval := (Slot.ok_iff.mp h).2
  have hf := quotient_fits h hcm v
  have hrun := divLimbs_eq (capMax := capMax) hv a (a.size - 1) 0 0 hv
  rw [Nat.mod_eq_of_lt hval, ← h.val_eq, Nat.mul_zero, Nat.add_zero, Nat.zero_mul, Nat.zero_add] at hrun
  rw [divScalar, fresh_eq_normal]
  exact hrun hf

end Sys2Proof.Machine
end

