-- ==== Sys2Proof/Laws/Vector.lean ====
section
/-! SUPPORT. What the effect of ADDV does, told by the values (42_vector_add.md R90, R91). -/

namespace Sys2Proof.Machine

/-- An operand's limb with zeros above its size is a digit of its value (R90). -/
theorem limbOrZero_toNat {capMax : Option Nat} {a : Slot} (h : a.ok capMax) (i : Nat) :
    (a.limbOrZero i).toNat = a.val / limbBase ^ i % limbBase := by
  rw [h.val_eq, ← limbsVal_digit, ← limb_def]
  unfold Slot.limbOrZero
  split
  · rfl
  · rw [h.zeroAbove i (by omega)]

/-- Growing a built slot several times (R61, R67). -/
theorem growTimes_built {capMax : Option Nat} (n : Nat) :
    ∀ {size v : Nat}, fitsSize capMax size → v < limbBase ^ size →
      growTimes capMax n (Slot.holding size (capacityAbove size) v) = builtTo capMax (size + n) v := by
  induction n with
  | zero => intro size v hf _; rw [growTimes, Nat.add_zero, builtTo_of_fits hf]
  | succ n ih =>
    intro size v hf hv
    rw [growTimes, growByOne_built hf hv]
    by_cases hn : fitsSize capMax (size + 1)
    · rw [builtTo_of_fits hn]
      simp only
      rw [ih hn (lt_of_lt_of_le hv (limbBase_pow_le (Nat.le_succ _))), Nat.add_right_comm, Nat.add_assoc]
    · rw [builtTo_of_not_fits hn, builtTo_of_not_fits (fun h => hn (h.mono (by omega)))]

/-- The pre-growth of ADDV brings a built slot whose size is at most `i + 1` to that size (R93). -/
theorem growToIndex_built {capMax : Option Nat} {size i v : Nat} (hf : fitsSize capMax size) (hv : v < limbBase ^ size)
    (hs : size ≤ i + 1) :
    growToIndex capMax i (Slot.holding size (capacityAbove size) v) = builtTo capMax (i + 1) v := by
  rw [growToIndex, Slot.holding_size, growTimes_built _ hf hv, Nat.add_sub_cancel' hs]

/-- The size of a sum (R91): `n` when there is no carry into position `n - 1`, else `n + 1`. -/
abbrev sumSize (n total : Nat) : Nat := if total < limbBase ^ (n - 1) then n else n + 1

/-- One position of ADDV on a built slot of size `i + 1` whose limbs from `i` upward are zero (R90). -/
theorem addPosition_built {capMax : Option Nat} {i v sum : Nat} (hf : fitsSize capMax (i + 1))
    (hv : v < limbBase ^ i) :
    guardCheck capMax ((Slot.holding (i + 1) (capacityAbove (i + 1)) v).setLimb i (limbOf sum)) =
      (if sum % limbBase = 0 then builtTo capMax (i + 1) v
       else builtTo capMax (i + 2) (v + limbBase ^ i * (sum % limbBase))) := by
  have hsh := (built_shape (Nat.le_add_left 1 i) hf v).setLimb i (limbOf sum)
  have hlt := lt_capacityAbove (i + 1)
  have hlen : i < (Slot.holding (i + 1) (capacityAbove (i + 1)) v).limbs.length := by simp; omega
  have hval : limbsVal (Slot.holding (i + 1) (capacityAbove (i + 1)) v).limbs = v :=
    Slot.holding_limbsVal (lt_of_lt_of_le hv (limbBase_pow_le (by omega)))
  have hset := limbsVal_set _ i (limbOf sum) hlen
  rw [hval, limbsVal_digit, hval, Nat.div_eq_of_lt hv, Nat.zero_mod, Nat.mul_zero, Nat.add_zero, limbOf_toNat] at hset
  have hm : sum % limbBase < limbBase := Nat.mod_lt _ (by norm_num)
  have hnew : v + limbBase ^ i * (sum % limbBase) < limbBase ^ (i + 1) := by
    have : limbBase ^ i * (sum % limbBase) + limbBase ^ i ≤ limbBase ^ i * limbBase := by
      calc _ = limbBase ^ i * (sum % limbBase + 1) := by ring
        _ ≤ _ := Nat.mul_le_mul_left _ hm
    rw [pow_succ]; omega
  rw [guardCheck_eq_grownTo hsh (by rw [Slot.setLimb_limbs, hset]; exact hnew), Slot.setLimb_limbs, hset,
    Slot.setLimb_grownTo, grownTo_built hf,
    Nat.add_sub_cancel]
  by_cases h0 : sum % limbBase = 0
  · rw [if_pos h0, h0, Nat.mul_zero, Nat.add_zero, if_pos hv]
  · have : ¬ v + limbBase ^ i * (sum % limbBase) < limbBase ^ i := by
      have : limbBase ^ i * 1 ≤ limbBase ^ i * (sum % limbBase) := Nat.mul_le_mul_left _ (Nat.pos_of_ne_zero h0)
      omega
    rw [if_neg h0, if_neg this]

/-- The limb loop of ADDV from position `i`, on a built slot that holds the sum of the limbs below `i`, less the carry
into `i` (R90, R91). -/
theorem addVectorLoop_eq {capMax : Option Nat} {a b : Slot} (ha : a.ok capMax) (hb : b.ok capMax) (n : Nat)
    (han : a.val < limbBase ^ (n - 1)) (hbn : b.val < limbBase ^ (n - 1)) (m : Nat) :
    ∀ {i c size v : Nat}, i + (m + 1) = n → size ≤ i + 1 → fitsSize capMax size → v < limbBase ^ i →
      v < limbBase ^ size → c ≤ 1 →
      v + limbBase ^ i * c = a.val % limbBase ^ i + b.val % limbBase ^ i →
      addVectorLoop capMax a b (m + 1) i c (Slot.holding size (capacityAbove size) v) =
        builtTo capMax (sumSize n (a.val + b.val)) (a.val + b.val) := by
  induction m with
  | zero =>
    intro i c size v hn hs hf hv hvs hc hsum
    have hi : n - 1 = i := by omega
    rw [hi] at han hbn
    rw [Nat.mod_eq_of_lt han, Nat.mod_eq_of_lt hbn] at hsum
    rw [addVectorLoop, growToIndex_built hf hvs hs]
    have hsz : sumSize n (a.val + b.val) = if c = 0 then i + 1 else i + 2 := by
      unfold sumSize
      rw [hi, ← hsum]
      by_cases hc0 : c = 0
      · rw [if_pos hc0, hc0, Nat.mul_zero, Nat.add_zero, if_pos hv]; omega
      · have hc1 : c = 1 := by omega
        rw [if_neg hc0, hc1, Nat.mul_one, if_neg (by omega)]; omega
    by_cases hfi : fitsSize capMax (i + 1)
    · rw [builtTo_of_fits hfi]
      simp only
      rw [limbOrZero_toNat ha, limbOrZero_toNat hb, Nat.div_eq_of_lt han, Nat.div_eq_of_lt hbn, Nat.zero_mod,
        Nat.zero_add, addPosition_built hfi hv]
      have hcm : c % limbBase = c := Nat.mod_eq_of_lt (lt_of_le_of_lt hc (by norm_num))
      rw [hcm, hsz, ← hsum]
      by_cases hc0 : c = 0
      · rw [if_pos hc0, if_pos hc0, hc0, Nat.mul_zero, Nat.add_zero, builtTo_of_fits hfi]
        simp only [addVectorLoop, Nat.add_zero, builtTo_of_fits hfi]
      · rw [if_neg hc0, if_neg hc0]
        cases builtTo capMax (i + 2) (v + limbBase ^ i * c) <;> rfl
    · rw [builtTo_of_not_fits hfi, builtTo_of_not_fits]
      intro h
      apply hfi (h.mono _)
      rw [hsz]; split <;> omega
  | succ m ih =>
    intro i c size v hn hs hf hv hvs hc hsum
    have hge : i + 2 ≤ sumSize n (a.val + b.val) := by unfold sumSize; split <;> omega
    rw [addVectorLoop, growToIndex_built hf hvs hs]
    by_cases hfi : fitsSize capMax (i + 1)
    · rw [builtTo_of_fits hfi]
      simp only
      rw [limbOrZero_toNat ha, limbOrZero_toNat hb, addPosition_built hfi hv]
      generalize hA : a.val / limbBase ^ i % limbBase = A
      generalize hB : b.val / limbBase ^ i % limbBase = B
      have hAlt : A < limbBase := hA ▸ Nat.mod_lt _ (by norm_num)
      have hBlt : B < limbBase := hB ▸ Nat.mod_lt _ (by norm_num)
      have hcarry : (A + B + c) / limbBase ≤ 1 := by
        rw [← Nat.lt_succ_iff, Nat.div_lt_iff_lt_mul (by norm_num)]; omega
      have hsplit := split_limbBase (A + B + c)
      have hsum' : v + limbBase ^ i * ((A + B + c) % limbBase) + limbBase ^ (i + 1) * ((A + B + c) / limbBase) =
          a.val % limbBase ^ (i + 1) + b.val % limbBase ^ (i + 1) := by
        rw [pow_succ, Nat.mod_mul, Nat.mod_mul, hA, hB]
        calc _ = v + limbBase ^ i * ((A + B + c) % limbBase + limbBase * ((A + B + c) / limbBase)) := by ring
          _ = (v + limbBase ^ i * c) + limbBase ^ i * (A + B) := by rw [hsplit]; ring
          _ = _ := by rw [hsum]; ring
      have hm : (A + B + c) % limbBase < limbBase := Nat.mod_lt _ (by norm_num)
      have hv1 : v < limbBase ^ (i + 1) := lt_of_lt_of_le hv (limbBase_pow_le (Nat.le_succ _))
      have hnew : v + limbBase ^ i * ((A + B + c) % limbBase) < limbBase ^ (i + 1) := by
        have : limbBase ^ i * ((A + B + c) % limbBase) + limbBase ^ i ≤ limbBase ^ i * limbBase := by
          calc _ = limbBase ^ i * ((A + B + c) % limbBase + 1) := by ring
            _ ≤ _ := Nat.mul_le_mul_left _ hm
        rw [pow_succ]; omega
      by_cases h0 : (A + B + c) % limbBase = 0
      · rw [if_pos h0, builtTo_of_fits hfi]
        simp only
        rw [h0, Nat.mul_zero, Nat.add_zero] at hsum'
        exact ih (by omega) (by omega) hfi hv1 hv1 hcarry hsum'
      · rw [if_neg h0]
        by_cases hfi2 : fitsSize capMax (i + 2)
        · rw [builtTo_of_fits hfi2]
          simp only
          exact ih (by omega) (by omega) hfi2 hnew
            (lt_of_lt_of_le hnew (limbBase_pow_le (Nat.le_succ _))) hcarry hsum'
        · rw [builtTo_of_not_fits hfi2, builtTo_of_not_fits (fun h => hfi2 (h.mono hge))]
    · rw [builtTo_of_not_fits hfi, builtTo_of_not_fits (fun h => hfi (h.mono (by omega)))]

/-- The effect of ADDV on LIVE sources: the exact sum, with the size of R91, or AllocationFailure. -/
theorem addVector_eq {capMax : Option Nat} {a b : Slot} (ha : a.ok capMax) (hb : b.ok capMax)
    (hcm : ∀ c, capMax = some c → 16 ≤ c) :
    addVector capMax a b =
      builtTo capMax (sumSize (max a.size b.size) (a.val + b.val)) (a.val + b.val) := by
  have h1 := ha.sizePos
  have h2 := hb.sizePos
  have han : a.val < limbBase ^ (max a.size b.size - 1) :=
    lt_of_lt_of_le ha.val_lt (limbBase_pow_le (by omega))
  have hbn : b.val < limbBase ^ (max a.size b.size - 1) :=
    lt_of_lt_of_le hb.val_lt (limbBase_pow_le (by omega))
  obtain ⟨m, hm⟩ : ∃ m, max a.size b.size = m + 1 := ⟨max a.size b.size - 1, by omega⟩
  have hfresh : Slot.fresh = Slot.holding 1 (capacityAbove 1) 0 := fresh_eq_normal
  rw [addVector, hfresh]
  conv_lhs => rw [hm]
  exact addVectorLoop_eq ha hb _ han hbn m (by omega) (Nat.le_refl _) (fitsSize_one hcm) (by norm_num)
    (by norm_num) (Nat.zero_le _) (by simp [Nat.mod_one])

end Sys2Proof.Machine
end

