-- ==== Sys2Proof/Laws/Codec.lean ====
section
/-! SUPPORT. What EqualsScalar, the copy of DCOPY and the two digit loops do (45_equality_copy_inspect.md R115, R116;
44_decimal_codec.md R105, R106, R109). -/

namespace Sys2Proof.Machine

/-! ### EQS -/

/-- EqualsScalar compares the value (R115). -/
theorem equalsScalar_eq {capMax : Option Nat} {x : Slot} (h : x.ok capMax) (v : Limb) :
    equalsScalar x v = decide (x.val = v.toNat) := by
  rw [Bool.eq_iff_iff, decide_eq_true_iff, h.val_eq]
  simp only [equalsScalar, Bool.and_eq_true, beq_iff_eq, List.all_eq_true, List.mem_range]
  have h0 : (x.limb 0).toNat = limbsVal x.limbs % limbBase := by
    rw [limb_def, limbsVal_digit, pow_zero, Nat.div_one]
  constructor
  · rintro ⟨hv, hz⟩
    have hlt : limbsVal x.limbs < limbBase ^ 1 := by
      apply limbsVal_lt_of_zero
      intro i hi
      by_cases hs : i < x.size
      · have := hz (i - 1) (by omega)
        rwa [Nat.sub_add_cancel hi] at this
      · exact h.zeroAbove i (by omega)
    rw [pow_one] at hlt
    rw [← hv, h0, Nat.mod_eq_of_lt hlt]
  · intro hv
    have hlt : limbsVal x.limbs < limbBase := hv ▸ limb_toNat_lt v
    refine ⟨BitVec.eq_of_toNat_eq (by rw [h0, Nat.mod_eq_of_lt hlt, hv]), fun i _ => ?_⟩
    exact getD_zero_of_val_lt (k := 1) _ (by rwa [pow_one]) (by omega)

/-! ### DCOPY -/

/-- The copy of DCOPY: the source's size and value in the destination's capacity (R116). -/
theorem copyInto_eq {capMax : Option Nat} {dst src : Slot} (hs : src.ok capMax) (hc : src.size ≤ dst.cap) :
    copyInto dst src = Slot.holding src.size dst.cap src.val := by
  have hlen : (copyInto dst src).limbs.length = (copyInto dst src).cap := by simp [copyInto]
  have hdig : ∀ i, (copyInto dst src).limbs.getD i 0 = src.limbs.getD i 0 := by
    intro i
    simp only [copyInto, List.getD_eq_getElem?_getD, List.getElem?_map]
    by_cases hi : i < dst.cap
    · simp only [List.getElem?_range hi, Option.map_some, Option.getD_some]
      split
      · simp [Slot.limb]
      · rename_i hn
        have := hs.zeroAbove i (by omega)
        simpa [Slot.limb] using this.symm
    · rw [List.getElem?_eq_none (by simpa using hi)]
      have := hs.zeroAbove i (by omega)
      simpa [Slot.limb] using this.symm
  have hlt : limbsVal (copyInto dst src).limbs < limbBase ^ (src.size - 1) := by
    apply limbsVal_lt_of_zero
    intro i hi
    rw [hdig]
    exact hs.zeroAbove i hi
  have hval : limbsVal (copyInto dst src).limbs = limbsVal src.limbs := by
    have key : ∀ (as bs : List Limb), (∀ i, as.getD i 0 = bs.getD i 0) → limbsVal as = limbsVal bs := by
      intro as
      induction as with
      | nil =>
        intro bs hb
        have := limbsVal_take_of_zero bs 0 (fun i _ => by rw [← hb]; simp)
        simpa using this
      | cons a as ih =>
        intro bs hb
        cases bs with
        | nil =>
          have := limbsVal_take_of_zero (a :: as) 0 (fun i _ => by rw [hb]; simp)
          simpa using this.symm
        | cons b bs =>
          have h0 : a = b := by simpa using hb 0
          rw [limbsVal_cons, limbsVal_cons, h0, ih bs (fun i => by simpa using hb (i + 1))]
    exact key _ _ hdig
  rw [Slot.eq_holding hlen, hval, ← hs.val_eq]
  rfl

theorem copyInto_ok {capMax : Option Nat} {dst src : Slot} (hd : dst.ok capMax) (hs : src.ok capMax)
    (hc : src.size ≤ dst.cap) : (copyInto dst src).ok capMax ∧ (copyInto dst src).val = src.val := by
  rw [copyInto_eq hs hc]
  exact Slot.holding_ok hd.capacity hs.sizePos hc
    (fun c h => ⟨(hd.bounded c h).1, (hs.bounded c h).2⟩) hs.val_lt

/-! ### FROMDEC -/

theorem digitValue_lt (b : Byte) : digitValue b < 256 := by
  unfold digitValue
  exact lt_of_le_of_lt (Nat.sub_le _ _) b.isLt

/-- Horner's step in a normalised slot (R105, R109). -/
theorem hornerStep_lt (n d : Nat) (hd : d < 256) : 10 * n + d < limbBase ^ normalSize n := by
  have h := lt_pow_limbCount n
  rw [normalSize, pow_succ]
  have : 1 ≤ limbBase ^ limbCount n := Nat.one_le_pow _ _ (by norm_num)
  simp only [limbBase] at *
  omega

theorem decimalFrom_ge (bs : List Byte) : ∀ n : Nat, n ≤ decimalFrom n bs := by
  induction bs with
  | nil => exact fun n => Nat.le_refl n
  | cons b bs ih =>
    intro n
    exact le_trans (by unfold digitAppended; omega) (ih (digitAppended n b))

theorem builtTo_normal {capMax : Option Nat} {v : Nat} (h : fitsSize capMax (normalSize v)) :
    builtTo capMax (normalSize v) v = .ok (Slot.normal v) := builtTo_of_fits h v

/-- One digit of FROMDEC on a normalised accumulator (R105). -/
theorem parseDigit_normal {capMax : Option Nat} {n : Nat} (b : Byte) (hf : fitsSize capMax (normalSize n)) :
    parseDigit capMax b (Slot.normal n) =
      builtTo capMax (normalSize (digitAppended n b)) (digitAppended n b) := by
  unfold digitAppended
  have hb : digitValue b < limbBase := by
    have := digitValue_lt b
    simp only [limbBase]
    omega
  have hlt0 : n * 10 < limbBase ^ normalSize n := by
    have := hornerStep_lt n 0 (by norm_num); omega
  obtain ⟨hok, hval⟩ := normal_ok hf
  rw [parseDigit, mulScalar_eq hok (by norm_num), hval, grownTo_normal hf (by omega) hlt0]
  by_cases hf1 : fitsSize capMax (normalSize (n * 10))
  · obtain ⟨hok1, hval1⟩ := normal_ok hf1
    have hlt : n * 10 + digitValue b < limbBase ^ normalSize (n * 10) := by
      rw [mul_comm]
      exact lt_of_lt_of_le (hornerStep_lt n _ (digitValue_lt b)) (limbBase_pow_le (normalSize_mono (by omega)))
    rw [builtTo_normal hf1]
    simp only
    rw [addScalar_eq hok1 hb, hval1, grownTo_normal hf1 (by omega) hlt, mul_comm n 10]
  · rw [builtTo_of_not_fits hf1, builtTo_of_not_fits (fun h => hf1 (h.mono (normalSize_mono (by omega))))]

/-- The digit loop of FROMDEC from a normalised accumulator: Horner's method, and the normalised result (R105, R109). -/
theorem parseDigits_eq {capMax : Option Nat} (bs : List Byte) :
    ∀ n : Nat, fitsSize capMax (normalSize n) →
      parseDigits capMax bs (Slot.normal n) = builtTo capMax (normalSize (decimalFrom n bs)) (decimalFrom n bs) := by
  induction bs with
  | nil => intro n hf; rw [parseDigits, decimalFrom, builtTo_normal hf]
  | cons b bs ih =>
    intro n hf
    rw [parseDigits, parseDigit_normal b hf, decimalFrom]
    by_cases hf1 : fitsSize capMax (normalSize (digitAppended n b))
    · rw [builtTo_normal hf1]
      exact ih _ hf1
    · rw [builtTo_of_not_fits hf1,
        builtTo_of_not_fits (fun h' => hf1 (h'.mono (normalSize_mono (decimalFrom_ge bs _))))]

/-- The effect of FROMDEC: the number the string denotes, normalised, or AllocationFailure (R105, R109). -/
theorem parseDigits_fresh {capMax : Option Nat} (hcm : ∀ c, capMax = some c → 16 ≤ c) (bs : List Byte) :
    parseDigits capMax bs Slot.fresh = builtTo capMax (normalSize (decimalValue bs)) (decimalValue bs) := by
  rw [fresh_eq_normal]
  exact parseDigits_eq bs 0 (fitsSize_one hcm)

/-! ### TODEC -/

theorem decimalString_small {v : Nat} (h : v < 10) : decimalString v = [digitByte v] := by
  unfold decimalString digitByte
  split
  · rename_i h0; subst h0; rfl
  · rename_i h0
    rw [Nat.digits_of_lt 10 v h0 h]; rfl

theorem decimalString_large {v : Nat} (h : 10 ≤ v) :
    decimalString v = decimalString (v / 10) ++ [digitByte (v % 10)] := by
  have h1 : ¬ v = 0 := by omega
  have h2 : ¬ v / 10 = 0 := by omega
  unfold decimalString digitByte
  rw [if_neg h1, if_neg h2, Nat.digits_def' (by norm_num) (by omega)]
  simp

/-- The digit loop of TODEC: the decimal string before the digits already there, or BufferTooSmall when it has more
digits than room (R106, R108). -/
theorem renderDigits_eq (room : Nat) :
    ∀ {w : Slot} {digits : List Byte}, w.ok none →
      renderDigits room w digits =
        if (decimalString w.val).length ≤ room then .ok (decimalString w.val ++ digits)
        else .error .bufferTooSmall := by
  induction room with
  | zero =>
    intro w digits _
    have : 0 < (decimalString w.val).length := by
      by_cases h : w.val < 10
      · rw [decimalString_small h]; simp
      · rw [decimalString_large (by omega)]; simp
    rw [renderDigits, if_neg (by omega)]
  | succ room ih =>
    intro w digits h
    rw [renderDigits, divScalar_eq h (fun c hc => by cases hc) (by norm_num)]
    simp only
    obtain ⟨hok, hval⟩ := normal_ok (capMax := none) (v := w.val / 10) rfl
    rw [equalsScalar_eq hok, hval]
    by_cases hlt : w.val < 10
    · have h0 : w.val / 10 = 0 := Nat.div_eq_of_lt hlt
      rw [decimalString_small hlt, h0, Nat.mod_eq_of_lt hlt]
      simp
    · have h0 : ¬ w.val / 10 = 0 := by omega
      have : (decide (w.val / 10 = BitVec.toNat (0 : Limb))) = false := by simpa using h0
      rw [this, decimalString_large (by omega)]
      simp only [Bool.false_eq_true, if_false]
      rw [ih hok, hval]
      simp

end Sys2Proof.Machine
end

