-- ==== Sys2Proof/Laws/State.lean ====
section
/-! SUPPORT. What each update of the state leaves in each field: one lemma per field and update, so that no proof unfolds
a record update. -/

namespace Sys2Proof.Machine

variable (s : State)

/-! ### setSlot -/

@[simp] theorem setSlot_params (n : Nat) (x : Slot) : (s.setSlot n x).params = s.params := rfl
@[simp] theorem setSlot_slots (n : Nat) (x : Slot) : (s.setSlot n x).slots = s.slots.set n x := rfl
@[simp] theorem setSlot_err (n : Nat) (x : Slot) : (s.setSlot n x).err = s.err := rfl
@[simp] theorem setSlot_halt (n : Nat) (x : Slot) : (s.setSlot n x).halt = s.halt := rfl
@[simp] theorem setSlot_busy (n : Nat) (x : Slot) : (s.setSlot n x).busy = s.busy := rfl
@[simp] theorem setSlot_res0 (n : Nat) (x : Slot) : (s.setSlot n x).res0 = s.res0 := rfl
@[simp] theorem setSlot_res1 (n : Nat) (x : Slot) : (s.setSlot n x).res1 = s.res1 := rfl
@[simp] theorem setSlot_cbuf (n : Nat) (x : Slot) : (s.setSlot n x).cbuf = s.cbuf := rfl
@[simp] theorem setSlot_cbufDraw (n : Nat) (x : Slot) : (s.setSlot n x).cbufDraw = s.cbufDraw := rfl
@[simp] theorem setSlot_draws (n : Nat) (x : Slot) : (s.setSlot n x).draws = s.draws := rfl
@[simp] theorem setSlot_host (n : Nat) (x : Slot) : (s.setSlot n x).host = s.host := rfl
@[simp] theorem setSlot_hostGot (n : Nat) (x : Slot) : (s.setSlot n x).hostGot = s.hostGot := rfl

/-! ### setRes0 -/

@[simp] theorem setRes0_params (v : BitVec 32) : (s.setRes0 v).params = s.params := rfl
@[simp] theorem setRes0_slots (v : BitVec 32) : (s.setRes0 v).slots = s.slots := rfl
@[simp] theorem setRes0_err (v : BitVec 32) : (s.setRes0 v).err = s.err := rfl
@[simp] theorem setRes0_halt (v : BitVec 32) : (s.setRes0 v).halt = s.halt := rfl
@[simp] theorem setRes0_busy (v : BitVec 32) : (s.setRes0 v).busy = s.busy := rfl
@[simp] theorem setRes0_res0 (v : BitVec 32) : (s.setRes0 v).res0 = v := rfl
@[simp] theorem setRes0_res1 (v : BitVec 32) : (s.setRes0 v).res1 = s.res1 := rfl
@[simp] theorem setRes0_cbuf (v : BitVec 32) : (s.setRes0 v).cbuf = s.cbuf := rfl
@[simp] theorem setRes0_cbufDraw (v : BitVec 32) : (s.setRes0 v).cbufDraw = s.cbufDraw := rfl
@[simp] theorem setRes0_draws (v : BitVec 32) : (s.setRes0 v).draws = s.draws := rfl
@[simp] theorem setRes0_host (v : BitVec 32) : (s.setRes0 v).host = s.host := rfl
@[simp] theorem setRes0_hostGot (v : BitVec 32) : (s.setRes0 v).hostGot = s.hostGot := rfl

/-! ### setRes1 -/

@[simp] theorem setRes1_params (v : BitVec 32) : (s.setRes1 v).params = s.params := rfl
@[simp] theorem setRes1_slots (v : BitVec 32) : (s.setRes1 v).slots = s.slots := rfl
@[simp] theorem setRes1_err (v : BitVec 32) : (s.setRes1 v).err = s.err := rfl
@[simp] theorem setRes1_halt (v : BitVec 32) : (s.setRes1 v).halt = s.halt := rfl
@[simp] theorem setRes1_busy (v : BitVec 32) : (s.setRes1 v).busy = s.busy := rfl
@[simp] theorem setRes1_res0 (v : BitVec 32) : (s.setRes1 v).res0 = s.res0 := rfl
@[simp] theorem setRes1_res1 (v : BitVec 32) : (s.setRes1 v).res1 = v := rfl
@[simp] theorem setRes1_cbuf (v : BitVec 32) : (s.setRes1 v).cbuf = s.cbuf := rfl
@[simp] theorem setRes1_cbufDraw (v : BitVec 32) : (s.setRes1 v).cbufDraw = s.cbufDraw := rfl
@[simp] theorem setRes1_draws (v : BitVec 32) : (s.setRes1 v).draws = s.draws := rfl
@[simp] theorem setRes1_host (v : BitVec 32) : (s.setRes1 v).host = s.host := rfl
@[simp] theorem setRes1_hostGot (v : BitVec 32) : (s.setRes1 v).hostGot = s.hostGot := rfl

/-! ### writeCbuf -/

@[simp] theorem writeCbuf_params (a : Nat) (v : Byte) : (s.writeCbuf a v).params = s.params := rfl
@[simp] theorem writeCbuf_slots (a : Nat) (v : Byte) : (s.writeCbuf a v).slots = s.slots := rfl
@[simp] theorem writeCbuf_err (a : Nat) (v : Byte) : (s.writeCbuf a v).err = s.err := rfl
@[simp] theorem writeCbuf_halt (a : Nat) (v : Byte) : (s.writeCbuf a v).halt = s.halt := rfl
@[simp] theorem writeCbuf_busy (a : Nat) (v : Byte) : (s.writeCbuf a v).busy = s.busy := rfl
@[simp] theorem writeCbuf_res0 (a : Nat) (v : Byte) : (s.writeCbuf a v).res0 = s.res0 := rfl
@[simp] theorem writeCbuf_res1 (a : Nat) (v : Byte) : (s.writeCbuf a v).res1 = s.res1 := rfl
@[simp] theorem writeCbuf_cbuf (a : Nat) (v : Byte) : (s.writeCbuf a v).cbuf = s.cbuf.write a v := rfl
@[simp] theorem writeCbuf_cbufDraw (a : Nat) (v : Byte) : (s.writeCbuf a v).cbufDraw = s.cbufDraw := rfl
@[simp] theorem writeCbuf_draws (a : Nat) (v : Byte) : (s.writeCbuf a v).draws = s.draws := rfl
@[simp] theorem writeCbuf_host (a : Nat) (v : Byte) : (s.writeCbuf a v).host = s.host := rfl
@[simp] theorem writeCbuf_hostGot (a : Nat) (v : Byte) : (s.writeCbuf a v).hostGot = s.hostGot := rfl

/-! ### writeString -/

@[simp] theorem writeString_params (bytes : List Byte) : (s.writeString bytes).params = s.params := rfl
@[simp] theorem writeString_slots (bytes : List Byte) : (s.writeString bytes).slots = s.slots := rfl
@[simp] theorem writeString_err (bytes : List Byte) : (s.writeString bytes).err = s.err := rfl
@[simp] theorem writeString_halt (bytes : List Byte) : (s.writeString bytes).halt = s.halt := rfl
@[simp] theorem writeString_busy (bytes : List Byte) : (s.writeString bytes).busy = s.busy := rfl
@[simp] theorem writeString_res0 (bytes : List Byte) : (s.writeString bytes).res0 = s.res0 := rfl
@[simp] theorem writeString_res1 (bytes : List Byte) : (s.writeString bytes).res1 = s.res1 := rfl
@[simp] theorem writeString_cbuf (bytes : List Byte) :
    (s.writeString bytes).cbuf = s.cbuf.writeBytes 0 bytes := rfl
@[simp] theorem writeString_cbufDraw (bytes : List Byte) : (s.writeString bytes).cbufDraw = s.cbufDraw := rfl
@[simp] theorem writeString_draws (bytes : List Byte) : (s.writeString bytes).draws = s.draws := rfl
@[simp] theorem writeString_host (bytes : List Byte) : (s.writeString bytes).host = s.host := rfl
@[simp] theorem writeString_hostGot (bytes : List Byte) : (s.writeString bytes).hostGot = s.hostGot := rfl

/-! ### spoilCbuf -/

@[simp] theorem spoilCbuf_params (n : Nat) : (s.spoilCbuf n).params = s.params := rfl
@[simp] theorem spoilCbuf_slots (n : Nat) : (s.spoilCbuf n).slots = s.slots := rfl
@[simp] theorem spoilCbuf_err (n : Nat) : (s.spoilCbuf n).err = s.err := rfl
@[simp] theorem spoilCbuf_halt (n : Nat) : (s.spoilCbuf n).halt = s.halt := rfl
@[simp] theorem spoilCbuf_busy (n : Nat) : (s.spoilCbuf n).busy = s.busy := rfl
@[simp] theorem spoilCbuf_res0 (n : Nat) : (s.spoilCbuf n).res0 = s.res0 := rfl
@[simp] theorem spoilCbuf_res1 (n : Nat) : (s.spoilCbuf n).res1 = s.res1 := rfl
@[simp] theorem spoilCbuf_cbuf (n : Nat) :
    (s.spoilCbuf n).cbuf = s.cbuf.writeBytes 0 ((List.range n).map (Config.freeByte s.draws)) := rfl
@[simp] theorem spoilCbuf_cbufDraw (n : Nat) : (s.spoilCbuf n).cbufDraw = s.cbufDraw := rfl
@[simp] theorem spoilCbuf_draws (n : Nat) : (s.spoilCbuf n).draws = s.draws + 1 := rfl
@[simp] theorem spoilCbuf_host (n : Nat) : (s.spoilCbuf n).host = s.host := rfl
@[simp] theorem spoilCbuf_hostGot (n : Nat) : (s.spoilCbuf n).hostGot = s.hostGot := rfl

/-! ### spoilSlot -/

@[simp] theorem spoilSlot_params (d : Nat) : (s.spoilSlot d).params = s.params := rfl
@[simp] theorem spoilSlot_slots (d : Nat) : (s.spoilSlot d).slots = s.slots.set d (Slot.unspecified s.draws) := rfl
@[simp] theorem spoilSlot_err (d : Nat) : (s.spoilSlot d).err = s.err := rfl
@[simp] theorem spoilSlot_halt (d : Nat) : (s.spoilSlot d).halt = s.halt := rfl
@[simp] theorem spoilSlot_busy (d : Nat) : (s.spoilSlot d).busy = s.busy := rfl
@[simp] theorem spoilSlot_res0 (d : Nat) : (s.spoilSlot d).res0 = s.res0 := rfl
@[simp] theorem spoilSlot_res1 (d : Nat) : (s.spoilSlot d).res1 = s.res1 := rfl
@[simp] theorem spoilSlot_cbuf (d : Nat) : (s.spoilSlot d).cbuf = s.cbuf := rfl
@[simp] theorem spoilSlot_cbufDraw (d : Nat) : (s.spoilSlot d).cbufDraw = s.cbufDraw := rfl
@[simp] theorem spoilSlot_draws (d : Nat) : (s.spoilSlot d).draws = s.draws + 1 := rfl
@[simp] theorem spoilSlot_host (d : Nat) : (s.spoilSlot d).host = s.host := rfl
@[simp] theorem spoilSlot_hostGot (d : Nat) : (s.spoilSlot d).hostGot = s.hostGot := rfl

/-! ### complete -/

@[simp] theorem complete_params : (s.complete).params = s.params := rfl
@[simp] theorem complete_slots : (s.complete).slots = s.slots := rfl
@[simp] theorem complete_err : (s.complete).err = none := rfl
@[simp] theorem complete_halt : (s.complete).halt = s.halt := rfl
@[simp] theorem complete_busy : (s.complete).busy = false := rfl
@[simp] theorem complete_res0 : (s.complete).res0 = s.res0 := rfl
@[simp] theorem complete_res1 : (s.complete).res1 = s.res1 := rfl
@[simp] theorem complete_cbuf : (s.complete).cbuf = s.cbuf := rfl
@[simp] theorem complete_cbufDraw : (s.complete).cbufDraw = s.cbufDraw := rfl
@[simp] theorem complete_draws : (s.complete).draws = s.draws := rfl
@[simp] theorem complete_host : (s.complete).host = s.host := rfl
@[simp] theorem complete_hostGot : (s.complete).hostGot = s.hostGot := rfl

/-! ### takeFault -/

@[simp] theorem takeFault_params (f : ErrCode) : (s.takeFault f).params = s.params := rfl
@[simp] theorem takeFault_slots (f : ErrCode) : (s.takeFault f).slots = s.slots := rfl
@[simp] theorem takeFault_err (f : ErrCode) : (s.takeFault f).err = some f := rfl
@[simp] theorem takeFault_halt (f : ErrCode) : (s.takeFault f).halt = (s.halt || f.fatal) := rfl
@[simp] theorem takeFault_busy (f : ErrCode) : (s.takeFault f).busy = false := rfl
@[simp] theorem takeFault_res0 (f : ErrCode) : (s.takeFault f).res0 = s.res0 := rfl
@[simp] theorem takeFault_res1 (f : ErrCode) : (s.takeFault f).res1 = s.res1 := rfl
@[simp] theorem takeFault_cbuf (f : ErrCode) : (s.takeFault f).cbuf = s.cbuf := rfl
@[simp] theorem takeFault_cbufDraw (f : ErrCode) : (s.takeFault f).cbufDraw = s.cbufDraw := rfl
@[simp] theorem takeFault_draws (f : ErrCode) : (s.takeFault f).draws = s.draws := rfl
@[simp] theorem takeFault_host (f : ErrCode) : (s.takeFault f).host = s.host := rfl
@[simp] theorem takeFault_hostGot (f : ErrCode) : (s.takeFault f).hostGot = s.hostGot := rfl

/-! ### hostReset -/

@[simp] theorem hostReset_params : (s.hostReset).params = s.params := rfl
@[simp] theorem hostReset_slots : (s.hostReset).slots = List.replicate s.params.nslots Slot.empty := rfl
@[simp] theorem hostReset_err : (s.hostReset).err = none := rfl
@[simp] theorem hostReset_halt : (s.hostReset).halt = false := rfl
@[simp] theorem hostReset_busy : (s.hostReset).busy = false := rfl
@[simp] theorem hostReset_res0 : (s.hostReset).res0 = 0 := rfl
@[simp] theorem hostReset_res1 : (s.hostReset).res1 = 0 := rfl
@[simp] theorem hostReset_cbuf : (s.hostReset).cbuf = [] := rfl
@[simp] theorem hostReset_cbufDraw : (s.hostReset).cbufDraw = s.draws := rfl
@[simp] theorem hostReset_draws : (s.hostReset).draws = s.draws + 1 := rfl
@[simp] theorem hostReset_host : (s.hostReset).host = s.host := rfl
@[simp] theorem hostReset_hostGot : (s.hostReset).hostGot = s.hostGot := rfl

/-! ### withHost -/

@[simp] theorem withHost_params (acts : List HostAction) : (s.withHost acts).params = s.params := rfl
@[simp] theorem withHost_slots (acts : List HostAction) : (s.withHost acts).slots = s.slots := rfl
@[simp] theorem withHost_err (acts : List HostAction) : (s.withHost acts).err = s.err := rfl
@[simp] theorem withHost_halt (acts : List HostAction) : (s.withHost acts).halt = s.halt := rfl
@[simp] theorem withHost_busy (acts : List HostAction) : (s.withHost acts).busy = s.busy := rfl
@[simp] theorem withHost_res0 (acts : List HostAction) : (s.withHost acts).res0 = s.res0 := rfl
@[simp] theorem withHost_res1 (acts : List HostAction) : (s.withHost acts).res1 = s.res1 := rfl
@[simp] theorem withHost_cbuf (acts : List HostAction) : (s.withHost acts).cbuf = s.cbuf := rfl
@[simp] theorem withHost_cbufDraw (acts : List HostAction) : (s.withHost acts).cbufDraw = s.cbufDraw := rfl
@[simp] theorem withHost_draws (acts : List HostAction) : (s.withHost acts).draws = s.draws := rfl
@[simp] theorem withHost_host (acts : List HostAction) : (s.withHost acts).host = acts := rfl
@[simp] theorem withHost_hostGot (acts : List HostAction) : (s.withHost acts).hostGot = s.hostGot := rfl

/-! ### gave -/

@[simp] theorem gave_params (v : HostRead) : (s.gave v).params = s.params := rfl
@[simp] theorem gave_slots (v : HostRead) : (s.gave v).slots = s.slots := rfl
@[simp] theorem gave_err (v : HostRead) : (s.gave v).err = s.err := rfl
@[simp] theorem gave_halt (v : HostRead) : (s.gave v).halt = s.halt := rfl
@[simp] theorem gave_busy (v : HostRead) : (s.gave v).busy = s.busy := rfl
@[simp] theorem gave_res0 (v : HostRead) : (s.gave v).res0 = s.res0 := rfl
@[simp] theorem gave_res1 (v : HostRead) : (s.gave v).res1 = s.res1 := rfl
@[simp] theorem gave_cbuf (v : HostRead) : (s.gave v).cbuf = s.cbuf := rfl
@[simp] theorem gave_cbufDraw (v : HostRead) : (s.gave v).cbufDraw = s.cbufDraw := rfl
@[simp] theorem gave_draws (v : HostRead) : (s.gave v).draws = s.draws := rfl
@[simp] theorem gave_host (v : HostRead) : (s.gave v).host = s.host := rfl
@[simp] theorem gave_hostGot (v : HostRead) : (s.gave v).hostGot = v :: s.hostGot := rfl

/-! ### the reset state (R26) -/

@[simp] theorem resetWith_params (p : Params) : (State.resetWith p).params = p := rfl
@[simp] theorem resetWith_slots (p : Params) : (State.resetWith p).slots = List.replicate p.nslots Slot.empty := rfl
@[simp] theorem resetWith_err (p : Params) : (State.resetWith p).err = none := rfl
@[simp] theorem resetWith_halt (p : Params) : (State.resetWith p).halt = false := rfl
@[simp] theorem resetWith_busy (p : Params) : (State.resetWith p).busy = false := rfl
@[simp] theorem resetWith_res0 (p : Params) : (State.resetWith p).res0 = 0 := rfl
@[simp] theorem resetWith_res1 (p : Params) : (State.resetWith p).res1 = 0 := rfl
@[simp] theorem resetWith_cbuf (p : Params) : (State.resetWith p).cbuf = [] := rfl
@[simp] theorem resetWith_cbufDraw (p : Params) : (State.resetWith p).cbufDraw = 0 := rfl
@[simp] theorem resetWith_draws (p : Params) : (State.resetWith p).draws = 1 := rfl
@[simp] theorem resetWith_host (p : Params) : (State.resetWith p).host = [] := rfl
@[simp] theorem resetWith_hostGot (p : Params) : (State.resetWith p).hostGot = [] := rfl

/-! ### reading a slot after an update -/

/-- An update that leaves the slot file alone leaves every slot alone. -/
theorem slot_congr {s t : State} (h : t.slots = s.slots) (n : Nat) : t.slot n = s.slot n := by
  unfold State.slot; rw [h]

@[simp] theorem setRes0_slot (v : BitVec 32) (n : Nat) : (s.setRes0 v).slot n = s.slot n := rfl
@[simp] theorem setRes1_slot (v : BitVec 32) (n : Nat) : (s.setRes1 v).slot n = s.slot n := rfl
@[simp] theorem writeCbuf_slot (a : Nat) (v : Byte) (n : Nat) : (s.writeCbuf a v).slot n = s.slot n := rfl
@[simp] theorem writeString_slot (bs : List Byte) (n : Nat) : (s.writeString bs).slot n = s.slot n := rfl
@[simp] theorem spoilCbuf_slot (k n : Nat) : (s.spoilCbuf k).slot n = s.slot n := rfl
@[simp] theorem complete_slot (n : Nat) : s.complete.slot n = s.slot n := rfl
@[simp] theorem takeFault_slot (f : ErrCode) (n : Nat) : (s.takeFault f).slot n = s.slot n := rfl
@[simp] theorem withHost_slot (acts : List HostAction) (n : Nat) : (s.withHost acts).slot n = s.slot n := rfl
@[simp] theorem gave_slot (v : HostRead) (n : Nat) : (s.gave v).slot n = s.slot n := rfl

theorem getD_replicate_empty (k n : Nat) : (List.replicate k Slot.empty).getD n Slot.empty = Slot.empty := by
  simp only [List.getD_eq_getElem?_getD, List.getElem?_replicate]
  split <;> rfl

/-- After reset every slot is EMPTY (R26). -/
@[simp] theorem resetWith_slot (p : Params) (n : Nat) : (State.resetWith p).slot n = Slot.empty :=
  getD_replicate_empty p.nslots n

@[simp] theorem hostReset_slot (n : Nat) : s.hostReset.slot n = Slot.empty :=
  getD_replicate_empty s.params.nslots n

/-- The slot just written, where it exists. -/
theorem setSlot_slot_self {n : Nat} (x : Slot) (h : n < s.slots.length) : (s.setSlot n x).slot n = x := by
  simp [State.slot, State.setSlot, List.getD_eq_getElem?_getD, h]

/-- Every other slot. -/
theorem setSlot_slot_ne {n m : Nat} (x : Slot) (h : n ≠ m) : (s.setSlot n x).slot m = s.slot m := by
  simp [State.slot, State.setSlot, List.getD_eq_getElem?_getD, List.getElem?_set_ne h]

theorem spoilSlot_slot_ne {n m : Nat} (h : n ≠ m) : (s.spoilSlot n).slot m = s.slot m := by
  simp [State.slot, State.spoilSlot, List.getD_eq_getElem?_getD, List.getElem?_set_ne h]

/-! ### CBUF after an update -/

/-- An update that leaves the character memory and its draw alone leaves every byte alone. -/
theorem cbufByte_congr {s t : State} (h : t.cbuf = s.cbuf) (hd : t.cbufDraw = s.cbufDraw) (a : Nat) :
    t.cbufByte a = s.cbufByte a := by
  unfold State.cbufByte; rw [h, hd]

@[simp] theorem setSlot_cbufByte (n : Nat) (x : Slot) (a : Nat) : (s.setSlot n x).cbufByte a = s.cbufByte a := rfl
@[simp] theorem setRes0_cbufByte (v : BitVec 32) (a : Nat) : (s.setRes0 v).cbufByte a = s.cbufByte a := rfl
@[simp] theorem setRes1_cbufByte (v : BitVec 32) (a : Nat) : (s.setRes1 v).cbufByte a = s.cbufByte a := rfl
@[simp] theorem spoilSlot_cbufByte (d a : Nat) : (s.spoilSlot d).cbufByte a = s.cbufByte a := rfl
@[simp] theorem complete_cbufByte (a : Nat) : s.complete.cbufByte a = s.cbufByte a := rfl
@[simp] theorem takeFault_cbufByte (f : ErrCode) (a : Nat) : (s.takeFault f).cbufByte a = s.cbufByte a := rfl
@[simp] theorem withHost_cbufByte (acts : List HostAction) (a : Nat) : (s.withHost acts).cbufByte a = s.cbufByte a := rfl
@[simp] theorem gave_cbufByte (v : HostRead) (a : Nat) : (s.gave v).cbufByte a = s.cbufByte a := rfl

end Sys2Proof.Machine
end

