-- ==== Sys2Proof/Laws/Memory.lean ====
section
/-! SUPPORT. The character memory: its canonical form is kept, and a write is read back (10_state.md R22, 20_memory.md
R30). -/

namespace Sys2Proof.Machine

/-! ### The addresses a memory lists -/

theorem Memory.write_addresses (m : Memory) (a : Nat) (v : Byte) :
    ∀ c ∈ m.write a v, c.1 = a ∨ ∃ c' ∈ m, c'.1 = c.1 := by
  induction m with
  | nil => intro c hc; left; simp only [Memory.write, List.mem_singleton] at hc; rw [hc]
  | cons cell rest ih =>
    obtain ⟨b, w⟩ := cell
    intro c hc
    simp only [Memory.write] at hc
    split at hc
    · rcases List.mem_cons.mp hc with rfl | h
      · exact Or.inl rfl
      · exact Or.inr ⟨c, h, rfl⟩
    · split at hc
      · rcases List.mem_cons.mp hc with rfl | h
        · exact Or.inl rfl
        · exact Or.inr ⟨c, List.mem_cons_of_mem _ h, rfl⟩
      · rcases List.mem_cons.mp hc with rfl | h
        · exact Or.inr ⟨_, List.mem_cons_self, rfl⟩
        · rcases ih c h with h' | ⟨c', hc', he⟩
          · exact Or.inl h'
          · exact Or.inr ⟨c', List.mem_cons_of_mem _ hc', he⟩

/-- A bound on the addresses is kept by a write below it. -/
theorem Memory.write_bound {m : Memory} {n a : Nat} (v : Byte) (hm : ∀ c ∈ m, c.1 < n) (ha : a < n) :
    ∀ c ∈ m.write a v, c.1 < n := by
  intro c hc
  rcases Memory.write_addresses m a v c hc with h | ⟨c', hc', h⟩
  · rw [h]; exact ha
  · rw [← h]; exact hm c' hc'

theorem Memory.writeBytes_bound {n : Nat} (bs : List Byte) :
    ∀ {m : Memory} {a : Nat}, (∀ c ∈ m, c.1 < n) → a + bs.length ≤ n → ∀ c ∈ m.writeBytes a bs, c.1 < n := by
  induction bs with
  | nil => intro m a hm _; exact hm
  | cons b bs ih =>
    intro m a hm ha
    rw [List.length_cons] at ha
    exact ih (Memory.write_bound b hm (by omega)) (by omega)

/-! ### The canonical form is kept -/

/-- A write keeps addresses strictly rising. -/
theorem Memory.write_wf {m : Memory} (a : Nat) (v : Byte) (h : m.wf) : (m.write a v).wf := by
  induction m with
  | nil => simp [Memory.write, Memory.wf]
  | cons cell rest ih =>
    obtain ⟨b, w⟩ := cell
    simp only [Memory.wf, List.map_cons, List.pairwise_cons, List.mem_map, forall_exists_index, and_imp] at h
    obtain ⟨hb, hrest⟩ := h
    simp only [Memory.write]
    split
    · rename_i hab
      simp only [Memory.wf, List.map_cons, List.pairwise_cons, List.mem_cons, List.mem_map, forall_exists_index, and_imp,
        forall_eq_or_imp]
      refine ⟨⟨hab, fun y x hx hy => ?_⟩, hb, hrest⟩
      exact lt_trans hab (hb y x hx hy)
    · split
      · rename_i hab
        subst hab
        simp only [Memory.wf, List.map_cons, List.pairwise_cons, List.mem_map, forall_exists_index, and_imp]
        exact ⟨hb, hrest⟩
      · rename_i h1 h2
        simp only [Memory.wf, List.map_cons, List.pairwise_cons, List.mem_map, forall_exists_index, and_imp]
        refine ⟨fun y x hx hy => ?_, ih hrest⟩
        rcases Memory.write_addresses rest a v x hx with h' | ⟨c', hc', h'⟩
        · omega
        · exact hb y c' hc' (h'.trans hy)

theorem Memory.writeBytes_wf (bs : List Byte) : ∀ {m : Memory} {a : Nat}, m.wf → (m.writeBytes a bs).wf := by
  induction bs with
  | nil => intro m a h; exact h
  | cons b bs ih => intro m a h; exact ih (Memory.write_wf a b h)

/-- Every update of the state keeps the character memory in canonical form. -/
theorem writeCbuf_wf {s : State} (a : Nat) (v : Byte) (h : s.cbuf.wf) : (s.writeCbuf a v).cbuf.wf := Memory.write_wf a v h

theorem writeString_wf {s : State} (bs : List Byte) (h : s.cbuf.wf) : (s.writeString bs).cbuf.wf :=
  Memory.writeBytes_wf bs h

theorem spoilCbuf_wf {s : State} (n : Nat) (h : s.cbuf.wf) : (s.spoilCbuf n).cbuf.wf := Memory.writeBytes_wf _ h

theorem hostReset_wf (s : State) : s.hostReset.cbuf.wf := List.Pairwise.nil

theorem reset_wf : State.reset.cbuf.wf := List.Pairwise.nil

/-! ### Read after write -/

theorem Memory.read_write_self (m : Memory) (a : Nat) (v : Byte) : (m.write a v).read a = some v := by
  induction m with
  | nil => simp [Memory.write, Memory.read]
  | cons cell rest ih =>
    obtain ⟨b, w⟩ := cell
    simp only [Memory.write]
    split
    · simp [Memory.read]
    · split
      · simp [Memory.read]
      · rename_i h1 h2
        simp only [Memory.read]
        rw [if_neg (by omega), ih]

theorem Memory.read_write_ne (m : Memory) {a a' : Nat} (v : Byte) (h : a ≠ a') :
    (m.write a v).read a' = m.read a' := by
  induction m with
  | nil => simp [Memory.write, Memory.read, h]
  | cons cell rest ih =>
    obtain ⟨b, w⟩ := cell
    simp only [Memory.write]
    split
    · simp [Memory.read, h]
    · split
      · rename_i h2
        subst h2
        simp [Memory.read, h]
      · simp only [Memory.read, ih]

/-- Bytes outside the string written read as before. -/
theorem Memory.read_writeBytes_outside (bs : List Byte) :
    ∀ {m : Memory} {a a' : Nat}, a' < a ∨ a + bs.length ≤ a' → (m.writeBytes a bs).read a' = m.read a' := by
  induction bs with
  | nil => intro m a a' _; rfl
  | cons b bs ih =>
    intro m a a' h
    rw [List.length_cons] at h
    rw [Memory.writeBytes, ih (by omega), Memory.read_write_ne _ _ (by omega)]

/-- Bytes inside the string written read as written. -/
theorem Memory.read_writeBytes_inside (bs : List Byte) :
    ∀ {m : Memory} {a i : Nat} (h : i < bs.length), (m.writeBytes a bs).read (a + i) = some bs[i] := by
  induction bs with
  | nil => intro m a i h; simp at h
  | cons b bs ih =>
    intro m a i h
    cases i with
    | zero =>
      rw [Memory.writeBytes, Memory.read_writeBytes_outside bs (by omega)]
      exact Memory.read_write_self m a b
    | succ i =>
      rw [Memory.writeBytes, show a + (i + 1) = (a + 1) + i by omega]
      exact ih (by simpa using h)

/-! ### The bytes of CBUF -/

theorem writeCbuf_cbufByte (s : State) (a : Nat) (v : Byte) (a' : Nat) :
    (s.writeCbuf a v).cbufByte a' = if a' = a then v else s.cbufByte a' := by
  unfold State.cbufByte
  split
  · rename_i h; subst h; simp [Memory.read_write_self]
  · rename_i h
    simp [Memory.read_write_ne _ _ (fun h' => h h'.symm)]

theorem writeString_cbufByte_inside (s : State) (bs : List Byte) {i : Nat} (h : i < bs.length) :
    (s.writeString bs).cbufByte i = bs[i] := by
  have := Memory.read_writeBytes_inside bs (m := s.cbuf) (a := 0) h
  rw [Nat.zero_add] at this
  simp [State.cbufByte, this]

theorem writeString_cbufByte_outside (s : State) (bs : List Byte) {i : Nat} (h : bs.length ≤ i) :
    (s.writeString bs).cbufByte i = s.cbufByte i := by
  have := Memory.read_writeBytes_outside bs (m := s.cbuf) (a := 0) (a' := i) (by omega)
  simp [State.cbufByte, this]

/-- A string written is the string read back, byte for byte (R33). -/
theorem writeString_cbufString (s : State) (bs : List Byte) : (s.writeString bs).cbufString bs.length = bs := by
  apply List.ext_getElem
  · simp [State.cbufString]
  · intro i h1 h2
    simp [State.cbufString, writeString_cbufByte_inside s bs h2]

/-- A spoiled byte is a free value of the new draw (U13); bytes from `n` upward read as before. -/
theorem spoilCbuf_cbufByte (s : State) (n i : Nat) :
    (s.spoilCbuf n).cbufByte i = if i < n then Config.freeByte s.draws i else s.cbufByte i := by
  split
  · rename_i h
    have := Memory.read_writeBytes_inside ((List.range n).map (Config.freeByte s.draws)) (m := s.cbuf) (a := 0) (i := i)
      (by simpa using h)
    rw [Nat.zero_add] at this
    simp [State.cbufByte, this]
  · rename_i h
    have := Memory.read_writeBytes_outside ((List.range n).map (Config.freeByte s.draws)) (m := s.cbuf) (a := 0)
      (a' := i) (by simp; omega)
    simp [State.cbufByte, this]

end Sys2Proof.Machine
end

