-- ==== Sys2Proof/Laws/Command.lean ====
section
/-! SUPPORT. The operand checks, the shared course of a command, and what one command can do (60_exceptions.md R125,
R127, R128). -/

namespace Sys2Proof.Machine

/-! ### The checks -/

@[simp] theorem orElse_eq_none {α : Type} (a b : Option α) : (a <|> b) = none ↔ a = none ∧ b = none := by
  cases a <;> simp

theorem orElse_eq_some {α : Type} (a b : Option α) (x : α) :
    (a <|> b) = some x ↔ a = some x ∨ (a = none ∧ b = some x) := by
  cases a <;> simp

@[simp] theorem raiseIf_eq_none (c : Bool) (f : ErrCode) : raiseIf c f = none ↔ c = false := by
  cases c <;> simp [raiseIf]

@[simp] theorem raiseIf_eq_some (c : Bool) (f g : ErrCode) : raiseIf c f = some g ↔ c = true ∧ f = g := by
  cases c <;> simp [raiseIf]

variable {s t : State}

@[simp] theorem badSlot_eq_none (ds : List Nat) : s.badSlot ds = none ↔ ∀ d ∈ ds, d < s.params.nslots := by
  simp [State.badSlot]

@[simp] theorem notLive_eq_none (ds : List Nat) : s.notLive ds = none ↔ ∀ d ∈ ds, (s.slot d).live = true := by
  simp [State.notLive]

@[simp] theorem slotInUse_eq_none (d : Nat) : s.slotInUse d = none ↔ (s.slot d).live = false := by
  simp [State.slotInUse]

@[simp] theorem sameSlot_eq_none (d : Nat) (as : List Nat) : sameSlot d as = none ↔ ∀ a ∈ as, d ≠ a := by
  simp [sameSlot]

@[simp] theorem badShift_eq_none (k : Imm) : badShift k = none ↔ k.toNat ≤ 31 := by
  simp [badShift]

@[simp] theorem zeroDivisor_eq_none (v : Imm) : zeroDivisor v = none ↔ v ≠ 0 := by
  simp [zeroDivisor]

@[simp] theorem badString_eq_none (n : Imm) : s.badString n = none ↔ n.toNat ≤ s.params.cbufBytes := by
  simp [State.badString]

@[simp] theorem badIndex_eq_none (a : Nat) (idx : Imm) : s.badIndex a idx = none ↔ idx.toNat < (s.slot a).size := by
  simp [State.badIndex]

@[simp] theorem copyTooSmall_eq_none (d a : Nat) : s.copyTooSmall d a = none ↔ (s.slot a).size ≤ (s.slot d).cap := by
  simp [State.copyTooSmall]

@[simp] theorem badDigit_eq_none (len : Imm) :
    s.badDigit len = none ↔ ∀ b ∈ s.cbufString len.toNat, isDigit b = true := by
  simp [State.badDigit]

/-! ### The course of a command -/

theorem command_halted (h : s.halt = true) (c : Option ErrCode) (e : State) : s.command c e = s := by
  simp [State.command, h]

theorem command_fault (h : s.halt = false) (f : ErrCode) (e : State) : s.command (some f) e = s.takeFault f := by
  simp [State.command, h]

theorem command_effect (h : s.halt = false) (e : State) : s.command none e = e := by
  simp [State.command, h]

/-- All a presented command can come to: dropped, one fault of its checks, or its effect (R125, R128). -/
theorem command_cases (c : Option ErrCode) (e : State) :
    (s.halt = true ∧ s.command c e = s) ∨
    (s.halt = false ∧ ∃ f, c = some f ∧ s.command c e = s.takeFault f) ∨
    (s.halt = false ∧ c = none ∧ s.command c e = e) := by
  cases hh : s.halt with
  | true => exact Or.inl ⟨rfl, command_halted hh c e⟩
  | false =>
    cases c with
    | some f => exact Or.inr (Or.inl ⟨rfl, f, rfl, command_fault hh f e⟩)
    | none => exact Or.inr (Or.inr ⟨rfl, rfl, command_effect hh e⟩)

/-- While HALT is set every command is dropped (R130). -/
theorem exec_halted (i : Instr) (h : s.halt = true) : exec i s = .next s := by
  cases i <;>
    simp [exec, execAlloc, execReset, execRelease, execAdds, execMuls, execDivs, execAddv, execShl, execShr, execFromdec,
      execTodec, execEqs, execDcopy, execRdsz, execRdl, command_halted h, h]

/-! ### Growth and rendering raise one fault each (R127) -/

theorem growByOne_error {capMax : Option Nat} {x : Slot} {f : ErrCode} (h : growByOne capMax x = .error f) :
    f = .allocationFailure := by
  simp only [growByOne, expand] at h
  repeat' split at h
  all_goals first
    | (cases h; done)
    | (cases h; rfl)

theorem guardCheck_error {capMax : Option Nat} {x : Slot} {f : ErrCode} (h : guardCheck capMax x = .error f) :
    f = .allocationFailure := by
  unfold guardCheck at h
  split at h
  · exact growByOne_error h
  · cases h

theorem growTimes_error {capMax : Option Nat} (n : Nat) :
    ∀ {x : Slot} {f : ErrCode}, growTimes capMax n x = .error f → f = .allocationFailure := by
  induction n with
  | zero => intro x f h; cases h
  | succ n ih =>
    intro x f h
    rw [growTimes] at h
    split at h
    · exact ih h
    · rename_i hg; cases h; exact growByOne_error hg

theorem addScalarLoop_error {capMax : Option Nat} (n : Nat) :
    ∀ {i c : Nat} {x : Slot} {f : ErrCode}, addScalarLoop capMax n i c x = .error f → f = .allocationFailure := by
  induction n with
  | zero => intro i c x f h; cases h
  | succ n ih =>
    intro i c x f h
    rw [addScalarLoop] at h
    split at h
    · cases h
    · simp only at h
      split at h
      · exact ih h
      · rename_i hg; cases h; exact guardCheck_error hg

theorem addScalar_error {capMax : Option Nat} {v : Nat} {x : Slot} {f : ErrCode} (h : addScalar capMax v x = .error f) :
    f = .allocationFailure := addScalarLoop_error _ h

theorem mulScalarLoop_error {capMax : Option Nat} {m : Nat} (n : Nat) :
    ∀ {i c : Nat} {x : Slot} {f : ErrCode}, mulScalarLoop capMax m n i c x = .error f → f = .allocationFailure := by
  induction n with
  | zero => intro i c x f h; cases h
  | succ n ih =>
    intro i c x f h
    rw [mulScalarLoop] at h
    split at h
    · exact ih h
    · rename_i hg; cases h; exact guardCheck_error hg

theorem mulScalar_error {capMax : Option Nat} {m : Nat} {x : Slot} {f : ErrCode} (h : mulScalar capMax m x = .error f) :
    f = .allocationFailure := by
  unfold mulScalar at h
  split at h
  · split at h
    · cases h
    · exact guardCheck_error h
  · rename_i hg; cases h; exact mulScalarLoop_error _ hg

theorem shiftLeft_error {capMax : Option Nat} {k : Nat} {x : Slot} {f : ErrCode} (h : shiftLeft capMax k x = .error f) :
    f = .allocationFailure := by
  unfold shiftLeft at h
  split at h
  · cases h
  · exact guardCheck_error h

theorem divBits_error {capMax : Option Nat} {v : Nat} {l : Limb} (n : Nat) :
    ∀ {q : Slot} {r : Nat} {f : ErrCode}, divBits capMax v l n q r = .error f → f = .allocationFailure := by
  induction n with
  | zero => intro q r f h; cases h
  | succ n ih =>
    intro q r f h
    rw [divBits] at h
    split at h
    · split at h
      · split at h
        · exact ih h
        · rename_i hg; cases h; exact guardCheck_error hg
      · exact ih h
    · rename_i hg; cases h; exact shiftLeft_error hg

theorem divLimbs_error {capMax : Option Nat} {v : Nat} {a : Slot} (n : Nat) :
    ∀ {q : Slot} {r : Nat} {f : ErrCode}, divLimbs capMax v a n q r = .error f → f = .allocationFailure := by
  induction n with
  | zero => intro q r f h; cases h
  | succ n ih =>
    intro q r f h
    rw [divLimbs] at h
    split at h
    · exact ih h
    · rename_i hg; cases h; exact divBits_error _ hg

theorem divScalar_error {capMax : Option Nat} {v : Nat} {a : Slot} {f : ErrCode} (h : divScalar capMax v a = .error f) :
    f = .allocationFailure := divLimbs_error _ h

theorem addVectorLoop_error {capMax : Option Nat} {a b : Slot} (n : Nat) :
    ∀ {i c : Nat} {x : Slot} {f : ErrCode}, addVectorLoop capMax a b n i c x = .error f → f = .allocationFailure := by
  induction n with
  | zero => intro i c x f h; cases h
  | succ n ih =>
    intro i c x f h
    rw [addVectorLoop] at h
    split at h
    · simp only at h
      split at h
      · exact ih h
      · rename_i hg; cases h; exact guardCheck_error hg
    · rename_i hg; cases h; exact growTimes_error _ hg

theorem addVector_error {capMax : Option Nat} {a b : Slot} {f : ErrCode} (h : addVector capMax a b = .error f) :
    f = .allocationFailure := addVectorLoop_error _ h

theorem parseDigits_error {capMax : Option Nat} (bs : List Byte) :
    ∀ {x : Slot} {f : ErrCode}, parseDigits capMax bs x = .error f → f = .allocationFailure := by
  induction bs with
  | nil => intro x f h; cases h
  | cons b bs ih =>
    intro x f h
    rw [parseDigits] at h
    split at h
    · exact ih h
    · rename_i hg
      cases h
      unfold parseDigit at hg
      split at hg
      · exact addScalar_error hg
      · rename_i hm; cases hg; exact mulScalar_error hm

/-- The end of a slot-writing command: the new content, or the fatal fault with the slot unspecified (R130). -/
theorem finishSlot_cases (d : Nat) {r : Except ErrCode Slot} (hr : ∀ f, r = .error f → f = .allocationFailure) :
    (∃ x, r = .ok x ∧ s.finishSlot d r = (s.setSlot d x).complete) ∨
    (r = .error .allocationFailure ∧ s.finishSlot d r = (s.spoilSlot d).takeFault .allocationFailure) := by
  cases r with
  | ok x => exact Or.inl ⟨x, rfl, rfl⟩
  | error f => have := hr f rfl; subst this; exact Or.inr ⟨rfl, rfl⟩

end Sys2Proof.Machine
end

