-- ==== Sys2Proof/Laws/Encoding.lean ====
section
/-! SUPPORT. Command words by their five fields (30_encoding.md R45, R49). -/

namespace Sys2Proof

/-! ### Packing and unpacking -/

theorem packC64_and (a a' : Imm) (b b' c c' d d' e e' : Byte) :
    packC64 a b c d e &&& packC64 a' b' c' d' e' =
      packC64 (a &&& a') (b &&& b') (c &&& c') (d &&& d') (e &&& e') := by
  have h2 : (a ++ b) &&& (a' ++ b') = (a &&& a') ++ (b &&& b') := BitVec.and_append
  have h3 : (a ++ b ++ c) &&& (a' ++ b' ++ c') = (a ++ b &&& a' ++ b') ++ (c &&& c') := BitVec.and_append
  have h4 : (a ++ b ++ c ++ d) &&& (a' ++ b' ++ c' ++ d') = (a ++ b ++ c &&& a' ++ b' ++ c') ++ (d &&& d') :=
    BitVec.and_append
  have h5 : (a ++ b ++ c ++ d ++ e) &&& (a' ++ b' ++ c' ++ d' ++ e') =
      (a ++ b ++ c ++ d &&& a' ++ b' ++ c' ++ d') ++ (e &&& e') := BitVec.and_append
  unfold packC64
  refine h5.trans ?_
  rw [h4, h3, h2]

/-- A packed word as a number (R52). -/
theorem packC64_toNat (a : Imm) (b c d e : Byte) :
    (packC64 a b c d e).toNat =
      a.toNat * 2 ^ 32 + b.toNat * 2 ^ 24 + c.toNat * 2 ^ 16 + d.toNat * 2 ^ 8 + e.toNat := by
  have h1 := BitVec.toNat_append (a ++ b ++ c ++ d) e
  have h2 := BitVec.toNat_append (a ++ b ++ c) d
  have h3 := BitVec.toNat_append (a ++ b) c
  have h4 := BitVec.toNat_append a b
  rw [← Nat.shiftLeft_add_eq_or_of_lt e.isLt] at h1
  rw [← Nat.shiftLeft_add_eq_or_of_lt d.isLt] at h2
  rw [← Nat.shiftLeft_add_eq_or_of_lt c.isLt] at h3
  rw [← Nat.shiftLeft_add_eq_or_of_lt b.isLt] at h4
  simp only [Nat.shiftLeft_eq] at h1 h2 h3 h4
  refine h1.trans ?_
  rw [h2, h3, h4]
  ring

theorem field_toNat (w : CmdWord) (lo len : Nat) :
    (w.extractLsb' lo len).toNat = w.toNat / 2 ^ lo % 2 ^ len := by
  simp [BitVec.extractLsb'_toNat, Nat.shiftRight_eq_div_pow]

@[simp] theorem immField_pack (a : Imm) (b c d e : Byte) : immField (packC64 a b c d e) = a := by
  apply BitVec.eq_of_toNat_eq
  rw [immField, field_toNat, packC64_toNat]
  have := a.isLt; have := b.isLt; have := c.isLt; have := d.isLt; have := e.isLt
  omega

@[simp] theorem opField_pack (a : Imm) (b c d e : Byte) : opField (packC64 a b c d e) = b := by
  apply BitVec.eq_of_toNat_eq
  rw [opField, field_toNat, packC64_toNat]
  have := a.isLt; have := b.isLt; have := c.isLt; have := d.isLt; have := e.isLt
  omega

@[simp] theorem rdField_pack (a : Imm) (b c d e : Byte) : rdField (packC64 a b c d e) = c := by
  apply BitVec.eq_of_toNat_eq
  rw [rdField, field_toNat, packC64_toNat]
  have := a.isLt; have := b.isLt; have := c.isLt; have := d.isLt; have := e.isLt
  omega

@[simp] theorem raField_pack (a : Imm) (b c d e : Byte) : raField (packC64 a b c d e) = d := by
  apply BitVec.eq_of_toNat_eq
  rw [raField, field_toNat, packC64_toNat]
  have := a.isLt; have := b.isLt; have := c.isLt; have := d.isLt; have := e.isLt
  omega

@[simp] theorem rbField_pack (a : Imm) (b c d e : Byte) : rbField (packC64 a b c d e) = e := by
  apply BitVec.eq_of_toNat_eq
  rw [rbField, field_toNat, packC64_toNat]
  have := a.isLt; have := b.isLt; have := c.isLt; have := d.isLt; have := e.isLt
  omega

/-- Every word is its five fields. -/
theorem packC64_fields (w : CmdWord) :
    packC64 (immField w) (opField w) (rdField w) (raField w) (rbField w) = w := by
  apply BitVec.eq_of_toNat_eq
  rw [packC64_toNat, immField, opField, rdField, raField, rbField]
  simp only [field_toNat]
  have := w.isLt
  omega

/-- A slot index that has an encoding comes back from its field. -/
theorem slotIndex_slotByte {n : Nat} (h : n < slotFieldLimit) : slotIndex (slotByte n) = n := by
  simp only [slotIndex, slotByte, BitVec.toNat_ofNat]
  exact Nat.mod_eq_of_lt h

end Sys2Proof
end

