-- ==== Sys2Proof/Laws/Exec.lean ====
section
/-! SUPPORT. Everything one command, one host action and one step can do (60_exceptions.md R125, R129, R130;
70_reset_and_hazards.md R152). -/

namespace Sys2Proof.Machine

/-! ### Growth without a limit never fails (R62: "With CAP_MAX = ∞ the test never fails") -/

theorem growByOne_none (x : Slot) : ∃ y, growByOne none x = .ok y := by
  simp only [growByOne, expand, aboveCapMax, Bool.false_eq_true, if_false]
  split <;> exact ⟨_, rfl⟩

theorem guardCheck_none (x : Slot) : ∃ y, guardCheck none x = .ok y := by
  unfold guardCheck
  split
  · exact growByOne_none x
  · exact ⟨x, rfl⟩

theorem shiftLeft_none (k : Nat) (x : Slot) : ∃ y, shiftLeft none k x = .ok y := by
  unfold shiftLeft
  split
  · exact ⟨x, rfl⟩
  · exact guardCheck_none _

theorem divBits_none (v : Nat) (l : Limb) (n : Nat) :
    ∀ (q : Slot) (r : Nat), ∃ p, divBits none v l n q r = .ok p := by
  induction n with
  | zero => exact fun q r => ⟨_, rfl⟩
  | succ n ih =>
    intro q r
    obtain ⟨y, hy⟩ := shiftLeft_none 1 q
    obtain ⟨z, hz⟩ := guardCheck_none (y.setLimb 0 (y.limb 0 ||| 1))
    rw [divBits]
    simp only [hy, hz]
    split
    · exact ih _ _
    · exact ih _ _

theorem divLimbs_none (v : Nat) (a : Slot) (n : Nat) :
    ∀ (q : Slot) (r : Nat), ∃ p, divLimbs none v a n q r = .ok p := by
  induction n with
  | zero => exact fun q r => ⟨_, rfl⟩
  | succ n ih =>
    intro q r
    obtain ⟨p, hp⟩ := divBits_none v (a.limb n) 32 q r
    rw [divLimbs, hp]
    exact ih _ _

theorem divScalar_none (v : Nat) (a : Slot) : ∃ p, divScalar none v a = .ok p := divLimbs_none v a _ _ _

/-- The digit loop of TODEC answers a string within its room, or BufferTooSmall, and nothing else (R106). -/
theorem renderDigits_cases (room : Nat) :
    ∀ (w : Slot) (digits : List Byte),
      (∃ ds, renderDigits room w digits = .ok ds ∧ ds.length ≤ room + digits.length) ∨
      renderDigits room w digits = .error .bufferTooSmall := by
  induction room with
  | zero => exact fun w digits => Or.inr rfl
  | succ room ih =>
    intro w digits
    obtain ⟨⟨q, r⟩, hp⟩ := divScalar_none 10 w
    rw [renderDigits, hp]
    simp only
    split
    · exact Or.inl ⟨_, rfl, by simp⟩
    · rcases ih q (digitByte r :: digits) with ⟨ds, hds, hl⟩ | h
      · exact Or.inl ⟨ds, hds, by simp only [List.length_cons] at hl; omega⟩
      · exact Or.inr h

/-! ### What one command can do -/

/-- The ways a command that is not dropped changes the state (R125): one constructor each. -/
inductive Effect (s : State) (i : Instr) : State → Prop where
  /-- a recoverable fault of the checks: only STATUS (R129) -/
  | fault (f : ErrCode) (hf : f ≠ .allocationFailure) : Effect s i (s.takeFault f)
  /-- the fatal fault: the slot being grown is unspecified (R130) -/
  | fatal (d : Nat) (hd : d ∈ i.slotFields) (hn : d < s.params.nslots) :
      Effect s i ((s.spoilSlot d).takeFault .allocationFailure)
  /-- completion with nothing written: a self-copy (R116) -/
  | nothing : Effect s i s.complete
  /-- one slot written -/
  | slot (d : Nat) (x : Slot) (hd : d ∈ i.slotFields) (hn : d < s.params.nslots) : Effect s i (s.setSlot d x).complete
  /-- one slot and RES0 written: DIVS -/
  | slotRes0 (d : Nat) (x : Slot) (v : BitVec 32) (hd : d ∈ i.slotFields) (hn : d < s.params.nslots) :
      Effect s i ((s.setSlot d x).setRes0 v).complete
  /-- RES0 written: EQS, RDL -/
  | res0 (v : BitVec 32) : Effect s i (s.setRes0 v).complete
  /-- RES0 and RES1 written: RDSZ -/
  | res01 (v w : BitVec 32) : Effect s i ((s.setRes0 v).setRes1 w).complete
  /-- a string and RES0 written: TODEC -/
  | string (ds : List Byte) (v : BitVec 32) (hl : ds.length ≤ s.params.cbufBytes) :
      Effect s i ((s.writeString ds).setRes0 v).complete
  /-- TODEC's BufferTooSmall (R129) -/
  | spoiled (n : Nat) (hl : n ≤ s.params.cbufBytes) : Effect s i ((s.spoilCbuf n).takeFault .bufferTooSmall)

theorem badSlot_ne {s : State} {ds : List Nat} : s.badSlot ds ≠ some .allocationFailure := by
  simp [State.badSlot]

theorem checks_ne_allocationFailure {s : State} :
    (∀ ds, s.badSlot ds ≠ some .allocationFailure) ∧ (∀ ds, s.notLive ds ≠ some .allocationFailure) ∧
    (∀ d, s.slotInUse d ≠ some .allocationFailure) ∧ (∀ d as, sameSlot d as ≠ some .allocationFailure) ∧
    (∀ k, badShift k ≠ some .allocationFailure) ∧ (∀ v, zeroDivisor v ≠ some .allocationFailure) ∧
    (∀ n, s.badString n ≠ some .allocationFailure) ∧ (∀ a n, s.badIndex a n ≠ some .allocationFailure) ∧
    (∀ d a, s.copyTooSmall d a ≠ some .allocationFailure) ∧ (∀ n, s.badDigit n ≠ some .allocationFailure) := by
  simp [State.badSlot, State.notLive, State.slotInUse, sameSlot, badShift, zeroDivisor, State.badString,
    State.badIndex, State.copyTooSmall, State.badDigit]

/-- A presented command whose checks raise recoverable faults only, and whose effect is one of the ways, does one of
the ways. -/
theorem command_effect_cases {s : State} {i : Instr} {c : Option ErrCode} {e : State} (hh : s.halt = false)
    (hc : c ≠ some .allocationFailure) (he : c = none → Effect s i e) : Effect s i (s.command c e) := by
  rcases command_cases (s := s) c e with ⟨h, _⟩ | ⟨_, f, hf, h⟩ | ⟨_, hn, h⟩
  · rw [hh] at h; cases h
  · rw [h]; exact Effect.fault f (fun h' => hc (hf.trans (congrArg some h')))
  · rw [h]; exact he hn

theorem effect_finishSlot {s : State} {i : Instr} {d : Nat} {r : Except ErrCode Slot} (hd : d ∈ i.slotFields)
    (hn : d < s.params.nslots) (hr : ∀ f, r = .error f → f = .allocationFailure) : Effect s i (s.finishSlot d r) := by
  rcases finishSlot_cases (s := s) d hr with ⟨x, _, h⟩ | ⟨_, h⟩
  · rw [h]; exact Effect.slot d x hd hn
  · rw [h]; exact Effect.fatal d hd hn

/-- ALL ONE COMMAND CAN DO while HALT is clear. -/
theorem exec_effect {s t : State} {i : Instr} (hh : s.halt = false) (h : exec i s = .next t) : Effect s i t := by
  obtain ⟨c1, c2, c3, c4, c5, c6, c7, c8, c9, c10⟩ := checks_ne_allocationFailure (s := s)
  cases i with
  | alloc d =>
    cases h
    refine command_effect_cases hh (by simp [c1, c3]) fun hn => ?_
    simp at hn
    exact Effect.slot d _ (by simp [Instr.slotFields]) hn.1
  | reset d =>
    cases h
    refine command_effect_cases hh (by simp [c1, c2]) fun hn => ?_
    simp at hn
    exact Effect.slot d _ (by simp [Instr.slotFields]) hn.1
  | release d =>
    cases h
    refine command_effect_cases hh (by simp [c1, c2]) fun hn => ?_
    simp at hn
    exact Effect.slot d _ (by simp [Instr.slotFields]) hn.1
  | adds d v =>
    cases h
    refine command_effect_cases hh (by simp [c1, c2]) fun hn => ?_
    simp at hn
    exact effect_finishSlot (by simp [Instr.slotFields]) hn.1 fun f => addScalar_error
  | muls d m =>
    cases h
    refine command_effect_cases hh (by simp [c1, c2]) fun hn => ?_
    simp at hn
    exact effect_finishSlot (by simp [Instr.slotFields]) hn.1 fun f => mulScalar_error
  | divs d a v =>
    cases h
    refine command_effect_cases hh (by simp [c1, c2, c4, c6]) fun hn => ?_
    simp at hn
    cases hr : divScalar s.params.capMax v.toNat (s.slot a) with
    | ok p => exact Effect.slotRes0 d p.1 _ (by simp [Instr.slotFields]) hn.1.1
    | error f =>
      have := divScalar_error hr
      subst this
      exact Effect.fatal d (by simp [Instr.slotFields]) hn.1.1
  | addv d a b =>
    cases h
    refine command_effect_cases hh (by simp [c1, c2, c4]) fun hn => ?_
    simp at hn
    exact effect_finishSlot (by simp [Instr.slotFields]) hn.1.1 fun f => addVector_error
  | shl d k =>
    cases h
    refine command_effect_cases hh (by simp [c1, c2, c5]) fun hn => ?_
    simp at hn
    exact effect_finishSlot (by simp [Instr.slotFields]) hn.1 fun f => shiftLeft_error
  | shr d k =>
    cases h
    refine command_effect_cases hh (by simp [c1, c2, c5]) fun hn => ?_
    simp at hn
    exact Effect.slot d _ (by simp [Instr.slotFields]) hn.1
  | fromdec d len =>
    cases h
    refine command_effect_cases hh (by simp [c1, c7, c10]) fun hn => ?_
    simp at hn
    exact effect_finishSlot (by simp [Instr.slotFields]) hn.1 fun f => parseDigits_error _
  | todec a capBytes =>
    cases h
    refine command_effect_cases hh (by simp [c1, c2, c7]) fun hn => ?_
    simp at hn
    rcases renderDigits_cases capBytes.toNat (s.slot a) [] with ⟨ds, hds, hl⟩ | hr
    · rw [hds]
      exact Effect.string ds _ (le_trans (by simpa using hl) hn.2.2)
    · rw [hr]
      exact Effect.spoiled _ hn.2.2
  | eqs a v =>
    cases h
    exact command_effect_cases hh (by simp [c1, c2]) fun _ => Effect.res0 _
  | dcopy d a =>
    cases h
    refine command_effect_cases hh (by simp [c1, c2, c9]) fun hn => ?_
    simp at hn
    split
    · exact Effect.nothing
    · exact Effect.slot d _ (by simp [Instr.slotFields]) hn.1.1
  | rdsz a =>
    simp only [exec, execRdsz] at h
    split at h
    · cases h
    · cases h
      exact command_effect_cases hh (by simp [c1, c2]) fun _ => Effect.res01 _ _
  | rdl a idx =>
    cases h
    exact command_effect_cases hh (by simp [c1, c2, c8]) fun _ => Effect.res0 _

/-! ### What one host action and one step can do -/

/-- What a step answers, by the host's next action (R152, R156). -/
theorem step_eq (s : State) :
    step s = match s.host with
      | [] => .next s
      | act :: rest => hostAct act (s.withHost rest) := rfl

/-- A command word presented to an idle block (R54). -/
theorem hostAct_present {s : State} (hb : s.busy = false) (w : CmdWord) :
    hostAct (.present w) s = presentWord s w := by
  simp [hostAct, whenIdle, hb]

theorem presentWord_halted {s : State} (h : s.halt = true) (w : CmdWord) : presentWord s w = .next s := by
  simp [presentWord, h]

theorem presentWord_decoded {s : State} {w : CmdWord} {i : Instr} (h : s.halt = false) (hd : decode w = .ok i) :
    presentWord s w = exec i s := by
  simp [presentWord, h, hd]

theorem presentWord_illegal {s : State} {w : CmdWord} {e : DecodeReject} (h : s.halt = false) (hd : decode w = .error e) :
    presentWord s w = .next (s.takeFault .illegalOperation) := by
  simp [presentWord, h, hd]

end Sys2Proof.Machine
end

