-- ==== Sys2Proof/Laws/PerInstr.lean ====
section
/-! SUPPORT. The per-instruction family HasRow: the word of each well-formed command matches a row of the opcode map, and
that row reads the command back (30_encoding.md R45, R46, R49). -/

namespace Sys2Proof.Laws.HasRow

/-- The word of a well-formed command matches a row of the opcode map that builds the command again (R46, R49). -/
def Statement (i : Instr) : Prop :=
  i.wf = true → ∃ r ∈ opTable, r.accepts (encode i) = true ∧ r.build (encode i) = i

/-- A packed word matches a row when OP and the fields the row requires to be zero do. -/
theorem accepts_pack {r : OpRow} {a a' pa : Imm} {b b' c c' d d' e e' pb pc pd pe : Byte}
    (hm : r.mask = packC64 a' b' c' d' e') (hp : r.pattern = packC64 pa pb pc pd pe)
    (ha : a &&& a' = pa) (hb : b &&& b' = pb) (hc : c &&& c' = pc) (hd : d &&& d' = pd) (he : e &&& e' = pe) :
    r.accepts (packC64 a b c d e) = true := by
  rw [OpRow.accepts, hm, hp, packC64_and, ha, hb, hc, hd, he]
  simp

theorem alloc (d : Nat) : Statement (.alloc d) := by
  intro h
  simp [Instr.wf, Instr.slotFields] at h
  refine ⟨opTable[0], List.getElem_mem _, ?_, ?_⟩
  · exact accepts_pack (a' := 0xFFFFFFFF#32) (b' := 0xFF#8) (c' := 0x00#8) (d' := 0xFF#8) (e' := 0xFF#8)
      (by decide) (by decide : _ = packC64 0 0x01#8 0 0 0) (by simp) (by decide) (by simp) (by simp) (by simp)
  · simp [opTable, limbStoreRows, arithmeticRows, shiftRows, codecRows, inspectRows, encode, slotIndex_slotByte, h]

theorem reset (d : Nat) : Statement (.reset d) := by
  intro h
  simp [Instr.wf, Instr.slotFields] at h
  refine ⟨opTable[1], List.getElem_mem _, ?_, ?_⟩
  · exact accepts_pack (a' := 0xFFFFFFFF#32) (b' := 0xFF#8) (c' := 0x00#8) (d' := 0xFF#8) (e' := 0xFF#8)
      (by decide) (by decide : _ = packC64 0 0x02#8 0 0 0) (by simp) (by decide) (by simp) (by simp) (by simp)
  · simp [opTable, limbStoreRows, arithmeticRows, shiftRows, codecRows, inspectRows, encode, slotIndex_slotByte, h]

theorem release (d : Nat) : Statement (.release d) := by
  intro h
  simp [Instr.wf, Instr.slotFields] at h
  refine ⟨opTable[2], List.getElem_mem _, ?_, ?_⟩
  · exact accepts_pack (a' := 0xFFFFFFFF#32) (b' := 0xFF#8) (c' := 0x00#8) (d' := 0xFF#8) (e' := 0xFF#8)
      (by decide) (by decide : _ = packC64 0 0x03#8 0 0 0) (by simp) (by decide) (by simp) (by simp) (by simp)
  · simp [opTable, limbStoreRows, arithmeticRows, shiftRows, codecRows, inspectRows, encode, slotIndex_slotByte, h]

theorem adds (d : Nat) (v : Imm) : Statement (.adds d v) := by
  intro h
  simp [Instr.wf, Instr.slotFields] at h
  refine ⟨opTable[3], List.getElem_mem _, ?_, ?_⟩
  · exact accepts_pack (a' := 0x00000000#32) (b' := 0xFF#8) (c' := 0x00#8) (d' := 0xFF#8) (e' := 0xFF#8)
      (by decide) (by decide : _ = packC64 0 0x10#8 0 0 0) (by simp) (by decide) (by simp) (by simp) (by simp)
  · simp [opTable, limbStoreRows, arithmeticRows, shiftRows, codecRows, inspectRows, encode, slotIndex_slotByte, h]

theorem muls (d : Nat) (m : Imm) : Statement (.muls d m) := by
  intro h
  simp [Instr.wf, Instr.slotFields] at h
  refine ⟨opTable[4], List.getElem_mem _, ?_, ?_⟩
  · exact accepts_pack (a' := 0x00000000#32) (b' := 0xFF#8) (c' := 0x00#8) (d' := 0xFF#8) (e' := 0xFF#8)
      (by decide) (by decide : _ = packC64 0 0x11#8 0 0 0) (by simp) (by decide) (by simp) (by simp) (by simp)
  · simp [opTable, limbStoreRows, arithmeticRows, shiftRows, codecRows, inspectRows, encode, slotIndex_slotByte, h]

theorem divs (d : Nat) (a : Nat) (v : Imm) : Statement (.divs d a v) := by
  intro h
  simp [Instr.wf, Instr.slotFields] at h
  refine ⟨opTable[5], List.getElem_mem _, ?_, ?_⟩
  · exact accepts_pack (a' := 0x00000000#32) (b' := 0xFF#8) (c' := 0x00#8) (d' := 0x00#8) (e' := 0xFF#8)
      (by decide) (by decide : _ = packC64 0 0x12#8 0 0 0) (by simp) (by decide) (by simp) (by simp) (by simp)
  · simp [opTable, limbStoreRows, arithmeticRows, shiftRows, codecRows, inspectRows, encode, slotIndex_slotByte, h]

theorem addv (d : Nat) (a : Nat) (b : Nat) : Statement (.addv d a b) := by
  intro h
  simp [Instr.wf, Instr.slotFields] at h
  refine ⟨opTable[6], List.getElem_mem _, ?_, ?_⟩
  · exact accepts_pack (a' := 0xFFFFFFFF#32) (b' := 0xFF#8) (c' := 0x00#8) (d' := 0x00#8) (e' := 0x00#8)
      (by decide) (by decide : _ = packC64 0 0x18#8 0 0 0) (by simp) (by decide) (by simp) (by simp) (by simp)
  · simp [opTable, limbStoreRows, arithmeticRows, shiftRows, codecRows, inspectRows, encode, slotIndex_slotByte, h]

theorem shl (d : Nat) (k : Imm) : Statement (.shl d k) := by
  intro h
  simp [Instr.wf, Instr.slotFields] at h
  refine ⟨opTable[7], List.getElem_mem _, ?_, ?_⟩
  · exact accepts_pack (a' := 0x00000000#32) (b' := 0xFF#8) (c' := 0x00#8) (d' := 0xFF#8) (e' := 0xFF#8)
      (by decide) (by decide : _ = packC64 0 0x20#8 0 0 0) (by simp) (by decide) (by simp) (by simp) (by simp)
  · simp [opTable, limbStoreRows, arithmeticRows, shiftRows, codecRows, inspectRows, encode, slotIndex_slotByte, h]

theorem shr (d : Nat) (k : Imm) : Statement (.shr d k) := by
  intro h
  simp [Instr.wf, Instr.slotFields] at h
  refine ⟨opTable[8], List.getElem_mem _, ?_, ?_⟩
  · exact accepts_pack (a' := 0x00000000#32) (b' := 0xFF#8) (c' := 0x00#8) (d' := 0xFF#8) (e' := 0xFF#8)
      (by decide) (by decide : _ = packC64 0 0x21#8 0 0 0) (by simp) (by decide) (by simp) (by simp) (by simp)
  · simp [opTable, limbStoreRows, arithmeticRows, shiftRows, codecRows, inspectRows, encode, slotIndex_slotByte, h]

theorem fromdec (d : Nat) (len : Imm) : Statement (.fromdec d len) := by
  intro h
  simp [Instr.wf, Instr.slotFields] at h
  refine ⟨opTable[9], List.getElem_mem _, ?_, ?_⟩
  · exact accepts_pack (a' := 0x00000000#32) (b' := 0xFF#8) (c' := 0x00#8) (d' := 0xFF#8) (e' := 0xFF#8)
      (by decide) (by decide : _ = packC64 0 0x30#8 0 0 0) (by simp) (by decide) (by simp) (by simp) (by simp)
  · simp [opTable, limbStoreRows, arithmeticRows, shiftRows, codecRows, inspectRows, encode, slotIndex_slotByte, h]

theorem todec (a : Nat) (capBytes : Imm) : Statement (.todec a capBytes) := by
  intro h
  simp [Instr.wf, Instr.slotFields] at h
  refine ⟨opTable[10], List.getElem_mem _, ?_, ?_⟩
  · exact accepts_pack (a' := 0x00000000#32) (b' := 0xFF#8) (c' := 0xFF#8) (d' := 0x00#8) (e' := 0xFF#8)
      (by decide) (by decide : _ = packC64 0 0x31#8 0 0 0) (by simp) (by decide) (by simp) (by simp) (by simp)
  · simp [opTable, limbStoreRows, arithmeticRows, shiftRows, codecRows, inspectRows, encode, slotIndex_slotByte, h]

theorem eqs (a : Nat) (v : Imm) : Statement (.eqs a v) := by
  intro h
  simp [Instr.wf, Instr.slotFields] at h
  refine ⟨opTable[11], List.getElem_mem _, ?_, ?_⟩
  · exact accepts_pack (a' := 0x00000000#32) (b' := 0xFF#8) (c' := 0xFF#8) (d' := 0x00#8) (e' := 0xFF#8)
      (by decide) (by decide : _ = packC64 0 0x40#8 0 0 0) (by simp) (by decide) (by simp) (by simp) (by simp)
  · simp [opTable, limbStoreRows, arithmeticRows, shiftRows, codecRows, inspectRows, encode, slotIndex_slotByte, h]

theorem dcopy (d : Nat) (a : Nat) : Statement (.dcopy d a) := by
  intro h
  simp [Instr.wf, Instr.slotFields] at h
  refine ⟨opTable[12], List.getElem_mem _, ?_, ?_⟩
  · exact accepts_pack (a' := 0xFFFFFFFF#32) (b' := 0xFF#8) (c' := 0x00#8) (d' := 0x00#8) (e' := 0xFF#8)
      (by decide) (by decide : _ = packC64 0 0x41#8 0 0 0) (by simp) (by decide) (by simp) (by simp) (by simp)
  · simp [opTable, limbStoreRows, arithmeticRows, shiftRows, codecRows, inspectRows, encode, slotIndex_slotByte, h]

theorem rdsz (a : Nat) : Statement (.rdsz a) := by
  intro h
  simp [Instr.wf, Instr.slotFields] at h
  refine ⟨opTable[13], List.getElem_mem _, ?_, ?_⟩
  · exact accepts_pack (a' := 0xFFFFFFFF#32) (b' := 0xFF#8) (c' := 0xFF#8) (d' := 0x00#8) (e' := 0xFF#8)
      (by decide) (by decide : _ = packC64 0 0x48#8 0 0 0) (by simp) (by decide) (by simp) (by simp) (by simp)
  · simp [opTable, limbStoreRows, arithmeticRows, shiftRows, codecRows, inspectRows, encode, slotIndex_slotByte, h]

theorem rdl (a : Nat) (idx : Imm) : Statement (.rdl a idx) := by
  intro h
  simp [Instr.wf, Instr.slotFields] at h
  refine ⟨opTable[14], List.getElem_mem _, ?_, ?_⟩
  · exact accepts_pack (a' := 0x00000000#32) (b' := 0xFF#8) (c' := 0xFF#8) (d' := 0x00#8) (e' := 0xFF#8)
      (by decide) (by decide : _ = packC64 0 0x49#8 0 0 0) (by simp) (by decide) (by simp) (by simp) (by simp)
  · simp [opTable, limbStoreRows, arithmeticRows, shiftRows, codecRows, inspectRows, encode, slotIndex_slotByte, h]

end Sys2Proof.Laws.HasRow
end

