-- ==== Sys2Proof/Tests/Slice0.lean ====
section
/-! SUPPORT. The model's own tests: ill-formed commands are refused, words decode as the spec's table prints them, single
commands give the results of 95_test_vectors.md, and every statement's hypotheses are met somewhere. -/

namespace Sys2Proof.Tests

open Sys2Proof.Machine

-- One theorem at a time: each waiting one would hold a thread with a large stack.
set_option Elab.async false

/-! ### Well-formedness: one ill-formed command for each slot position (R48) -/

theorem test_wf_largest_slot : (Instr.addv 255 255 255).wf = true := by decide
theorem test_wf_refuses_rd : (Instr.alloc 256).wf = false := by decide
theorem test_wf_refuses_rd_with_imm : (Instr.adds 256 1#32).wf = false := by decide
theorem test_wf_refuses_ra : (Instr.divs 0 256 1#32).wf = false := by decide
theorem test_wf_refuses_ra_alone : (Instr.todec 256 1#32).wf = false := by decide
theorem test_wf_refuses_rb : (Instr.addv 0 1 256).wf = false := by decide

/-! ### Decoding: a word of 30_encoding.md or 95_test_vectors.md for each command -/

/-- The command a word decodes to. -/
def decoded (w : CmdWord) : Option Instr := (decode w).toOption

theorem test_decode_alloc : decoded 0x0000000001010000#64 = some (.alloc 1) := by decide
theorem test_decode_reset : decoded 0x0000000002020000#64 = some (.reset 2) := by decide
theorem test_decode_release : decoded 0x0000000003000000#64 = some (.release 0) := by decide
theorem test_decode_adds : decoded 0xFFFFFFFF10000000#64 = some (.adds 0 0xFFFFFFFF#32) := by decide
theorem test_decode_muls : decoded 0x0000001911010000#64 = some (.muls 1 25#32) := by decide
theorem test_decode_divs : decoded 0x3B9ACA0012010000#64 = some (.divs 1 0 1000000000#32) := by decide
theorem test_decode_addv : decoded 0x0000000018010200#64 = some (.addv 1 2 0) := by decide
theorem test_decode_shl : decoded 0x0000000420000000#64 = some (.shl 0 4#32) := by decide
theorem test_decode_shr : decoded 0x0000001A21000000#64 = some (.shr 0 26#32) := by decide
theorem test_decode_fromdec : decoded 0x0000000A30000000#64 = some (.fromdec 0 10#32) := by decide
theorem test_decode_todec : decoded 0x0000004031000100#64 = some (.todec 1 64#32) := by decide
theorem test_decode_eqs : decoded 0x0000000540000100#64 = some (.eqs 1 5#32) := by decide
theorem test_decode_dcopy : decoded 0x0000000041010000#64 = some (.dcopy 1 0) := by decide
theorem test_decode_rdsz : decoded 0x0000000048000100#64 = some (.rdsz 1) := by decide
theorem test_decode_rdl : decoded 0x0000000F49000100#64 = some (.rdl 1 15#32) := by decide
theorem test_decode_zero_word : decode 0x0000000000000000#64 = .error .unknownOpcode := by rfl
theorem test_decode_shallow_copy : decode 0x0000000042010200#64 = .error .reservedShallowCopy := by rfl
theorem test_decode_unused_slot_field : decode 0x0000000001010001#64 = .error .unusedFieldNonzero := by rfl
theorem test_decode_unused_imm : decode 0x0000000148000000#64 = .error .unusedFieldNonzero := by rfl
theorem test_decode_opcode_ff : decode 0x00000000FF000000#64 = .error .unknownOpcode := by rfl
theorem test_encode_divs : encode (.divs 1 0 10#32) = 0x0000000A12010000#64 := by decide
theorem test_text_divs : (Instr.divs 1 0 10#32).text = "DIVS s1, s0, #10" := by decide +kernel
theorem test_assemble_divs : assembleText "DIVS s1, s0, #10" = some 0x0000000A12010000#64 := by decide +kernel
theorem test_assemble_hex : assembleText "ADDS s0, #0xFFFFFFFF" = some 0xFFFFFFFF10000000#64 := by decide +kernel
theorem test_assemble_out_of_range : assembleText "ADDS s256, #1" = none := by decide +kernel
theorem test_assemble_no_pseudo : assemble "MOVE" [.slot 1, .slot 0] = none := by decide

/-! ### Small states -/

/-- A block at rest with the given parameters, slots and character memory. -/
def box (p : Params) (slots : List Slot) (cbuf : Memory) : State :=
  { State.resetWith p with slots := slots, cbuf := cbuf }

/-- Four slots, CAP_MAX = 64 limbs, 160 bytes of CBUF. -/
def params : Params := ⟨4, some 64, 160⟩

/-- The same with CAP_MAX = 16 limbs. -/
def smallParams : Params := ⟨4, some 16, 160⟩

/-- The same with CAP_MAX = ∞. -/
def endlessParams : Params := ⟨4, none, 160⟩

/-- A slot of capacity `cap` with these limbs up to its size, zero above. -/
def limbsIn (cap : Nat) (ls : List Limb) : Slot := ⟨ls.length, cap, ls ++ List.replicate (cap - ls.length) 0⟩

/-- A string in CBUF from address 0. -/
def bytesAt0 (bs : List Byte) : Memory := Memory.writeBytes [] 0 bs

/-- What a look at the next state gives. -/
def after {α : Type} (o : Host.Outcome State Fault Refusal) (look : State → α) : Option α :=
  match o with
  | .next t => some (look t)
  | .fault _ => none
  | .refused _ => none

/-- A test state: slots s0, s1 and an EMPTY s2, s3. -/
def two (x y : Slot) : State := box params [x, y, Slot.empty, Slot.empty] []

/-! ### One step each, from 95_test_vectors.md -/

/-- 40_limb_store.md R63, example: from reset, `ALLOC s1`. -/
theorem test_alloc_from_reset :
    after (step (State.reset.withFetchWord 64 0x0000000001010000)) (fun t => (t.slot 1, t.statusWord)) =
      some (⟨1, 16, List.replicate 16 0⟩, 0x00000000#32) := by decide +kernel

/-- P5 step 3. -/
theorem test_alloc_live_slot :
    after (exec (.alloc 0) (two (limbsIn 16 [0]) Slot.empty)) (fun t => (t.slot 0, t.statusWord)) =
      some (limbsIn 16 [0], 0x00000008#32) := by decide +kernel

/-- 40_limb_store.md R64, example: 2^480 in a slot of capacity 32. -/
theorem test_reset_returns_capacity :
    after (exec (.reset 0) (two (limbsIn 32 (List.replicate 15 0 ++ [1, 0])) Slot.empty)) (fun t => t.slot 0) =
      some ⟨1, 16, List.replicate 16 0⟩ := by decide +kernel

/-- P5 step 19. -/
theorem test_reset_empty_slot :
    after (exec (.reset 0) (two Slot.empty Slot.empty)) (fun t => (t.slot 0, t.statusWord)) =
      some (Slot.empty, 0x00000005#32) := by decide +kernel

/-- P5 step 15. -/
theorem test_release :
    after (exec (.release 0) (two (limbsIn 16 [0xFFFFFFFF, 0]) Slot.empty)) (fun t => (t.slot 0, t.statusWord)) =
      some (⟨0, 0, []⟩, 0x00000000#32) := by decide +kernel

/-- P5 step 16. -/
theorem test_release_twice :
    after (exec (.release 0) (two Slot.empty Slot.empty)) (fun t => t.statusWord) = some 0x00000005#32 := by
  decide +kernel

/-- ADDS-4. -/
theorem test_adds_carry_ripples :
    after (exec (.adds 0 0xFFFFFFFF#32) (two (limbsIn 16 [0xFFFFFFFF, 0xFFFFFFFF, 0]) Slot.empty)) (fun t => t.slot 0) =
      some (limbsIn 16 [0xFFFFFFFE, 0, 1, 0]) := by decide +kernel

/-- ADDS-6. -/
theorem test_adds_expands :
    after (exec (.adds 0 1#32) (two (limbsIn 16 (List.replicate 14 0xFFFFFFFF ++ [0])) Slot.empty))
      (fun t => t.slot 0) = some (limbsIn 32 (List.replicate 14 0 ++ [1, 0])) := by decide +kernel

/-- MULS-6. -/
theorem test_muls_largest :
    after (exec (.muls 0 0xFFFFFFFF#32) (two (limbsIn 16 [0xFFFFFFFF, 0xFFFFFFFF, 0]) Slot.empty)) (fun t => t.slot 0) =
      some (limbsIn 16 [1, 0xFFFFFFFF, 0xFFFFFFFE, 0]) := by decide +kernel

/-- MULS-12. -/
theorem test_muls_fatal :
    after (exec (.muls 0 2#32) (box smallParams [limbsIn 16 (List.replicate 14 0xFFFFFFFF ++ [0]), Slot.empty,
      Slot.empty, Slot.empty] [])) (fun t => t.statusWord) = some 0x00000101#32 := by decide +kernel

/-- DIVS-5: the running remainder needs 33 bits. -/
theorem test_divs_wide_remainder :
    after (exec (.divs 1 0 0xFFFFFFFF#32) (two (limbsIn 16 [0, 1, 0]) (limbsIn 16 [9, 9, 0])))
      (fun t => (t.slot 1, t.res0)) = some (limbsIn 16 [1, 0], 1#32) := by decide +kernel

/-- DIVS-10: a divisor above 2^31. -/
theorem test_divs_large_divisor :
    after (exec (.divs 1 0 0x80000001#32) (two (limbsIn 16 [0xFFFFFFFF, 0xFFFFFFFF, 0]) (limbsIn 16 [0])))
      (fun t => (t.slot 1, t.res0)) = some (limbsIn 16 [0xFFFFFFFC, 1, 0], 3#32) := by decide +kernel

/-- ADDV-5: two zero sum limbs, then a carry. -/
theorem test_addv_zero_limbs_then_carry :
    after (exec (.addv 2 0 1) (box params [limbsIn 16 [0xFFFFFFFF, 0xFFFFFFFF, 0], limbsIn 16 [1, 0], limbsIn 16 [0],
      Slot.empty] [])) (fun t => t.slot 2) = some (limbsIn 16 [0, 0, 1, 0]) := by decide +kernel

/-- ADDV-6: one slot twice as source. -/
theorem test_addv_doubles :
    after (exec (.addv 1 0 0) (two (limbsIn 16 [0x80000000, 0]) (limbsIn 32 [7, 0]))) (fun t => t.slot 1) =
      some (limbsIn 16 [0, 1, 0]) := by decide +kernel

/-- SHL-4. -/
theorem test_shl_31 :
    after (exec (.shl 0 31#32) (two (limbsIn 16 [0xFFFFFFFF, 0]) Slot.empty)) (fun t => t.slot 0) =
      some (limbsIn 16 [0x80000000, 0x7FFFFFFF, 0]) := by decide +kernel

/-- SHL-7. -/
theorem test_shl_8 :
    after (exec (.shl 0 8#32) (two (limbsIn 16 [0x89ABCDEF, 0x01234567, 0]) Slot.empty)) (fun t => t.slot 0) =
      some (limbsIn 16 [0xABCDEF00, 0x23456789, 1, 0]) := by decide +kernel

/-- SCN-5, the document's scenario: 123456789123456789 shifted right by 26. -/
theorem test_shr_scenario :
    after (exec (.shr 0 26#32) (two (limbsIn 16 [0xACD05F15, 0x01B69B4B, 0]) Slot.empty))
      (fun t => ((t.slot 0).size, (t.slot 0).limb 0, (t.slot 0).limb 1)) = some (2, 0x6DA6D2EB, 0) := by decide +kernel

/-- SHR-5: at most one limb is removed. -/
theorem test_shr_shrinks_once :
    after (exec (.shr 0 1#32) (two (limbsIn 16 [5, 0, 0, 0]) Slot.empty)) (fun t => t.slot 0) =
      some (limbsIn 16 [2, 0, 0]) := by decide +kernel

/-- DEC-7: "4294967296". -/
theorem test_fromdec_two_to_32 :
    after (exec (.fromdec 0 10#32) (box params (List.replicate 4 Slot.empty)
      (bytesAt0 [0x34, 0x32, 0x39, 0x34, 0x39, 0x36, 0x37, 0x32, 0x39, 0x36]))) (fun t => t.slot 0) =
      some (limbsIn 16 [0, 1, 0]) := by decide +kernel

/-- DEC-18: "12a4". -/
theorem test_fromdec_bad_digit :
    after (exec (.fromdec 0 4#32) (box params (limbsIn 16 [7, 0] :: List.replicate 3 Slot.empty)
      (bytesAt0 [0x31, 0x32, 0x61, 0x34]))) (fun t => (t.slot 0, t.statusWord)) =
      some (limbsIn 16 [7, 0], 0x00000002#32) := by decide +kernel

/-- DEC-5: 10 in two bytes; no byte after them is written. -/
theorem test_todec_exact_buffer :
    after (exec (.todec 0 2#32) (box params (limbsIn 16 [10, 0] :: List.replicate 3 Slot.empty)
      (bytesAt0 [0x78, 0x78, 0x78]))) (fun t => (t.cbufString 3, t.res0)) =
      some ([0x31, 0x30, 0x78], 2#32) := by decide +kernel

/-- DEC-15: a buffer of no bytes. -/
theorem test_todec_too_small :
    after (exec (.todec 0 0#32) (box params (limbsIn 16 [0x3039, 0] :: List.replicate 3 Slot.empty) []))
      (fun t => (t.slot 0, t.res0, t.statusWord)) = some (limbsIn 16 [0x3039, 0], 0#32, 0x00000004#32) := by
  decide +kernel

/-- EQS-4. -/
theorem test_eqs_high_limb :
    after (exec (.eqs 0 5#32) (two (limbsIn 16 [5, 1, 0]) Slot.empty)) (fun t => t.res0) = some 0#32 := by
  decide +kernel

/-- EQS-8. -/
theorem test_eqs_not_normalised :
    after (exec (.eqs 0 5#32) (two (limbsIn 16 [5, 0, 0]) Slot.empty)) (fun t => t.res0) = some 1#32 := by
  decide +kernel

/-- DCOPY-1. -/
theorem test_dcopy_clears_above :
    after (exec (.dcopy 1 0) (two (limbsIn 16 [1, 2, 3, 4, 0]) (limbsIn 16 [9, 9, 9, 9, 9, 9, 0]))) (fun t => t.slot 1) =
      some (limbsIn 16 [1, 2, 3, 4, 0]) := by decide +kernel

/-- DCOPY-3: the size may equal the capacity. -/
theorem test_dcopy_full :
    after (exec (.dcopy 1 0) (two (limbsIn 32 (List.replicate 15 0xFFFFFFFF ++ [0])) (limbsIn 16 [0])))
      (fun t => t.slot 1) = some (limbsIn 16 (List.replicate 15 0xFFFFFFFF ++ [0])) := by decide +kernel

/-- RDSZ-1. -/
theorem test_rdsz :
    after (exec (.rdsz 0) (two (limbsIn 16 [0xB9AC9FF0, 3, 0]) Slot.empty)) (fun t => (t.res0, t.res1)) =
      some (3#32, 0x10#32) := by decide +kernel

/-- RDSZ-2. -/
theorem test_rdsz_empty :
    after (exec (.rdsz 0) (two Slot.empty Slot.empty)) (fun t => t.statusWord) = some 0x00000005#32 := by decide +kernel

/-- RDL-1. -/
theorem test_rdl :
    after (exec (.rdl 0 0#32) (two (limbsIn 16 [0xB9AC9FF0, 3, 0]) Slot.empty)) (fun t => t.res0) =
      some 0xB9AC9FF0#32 := by decide +kernel

/-- RDL-3: the index equals the size. -/
theorem test_rdl_past_size :
    after (exec (.rdl 0 3#32) (two (limbsIn 16 [0xB9AC9FF0, 3, 0]) Slot.empty)) (fun t => t.statusWord) =
      some 0x0000000C#32 := by decide +kernel

/-- FLT-7: UseAfterRelease outranks OperandAlias. -/
theorem test_priority_life_state :
    after (presentWord (two (limbsIn 16 [7, 0]) Slot.empty) 0x0000000018010101#64) (fun t => t.statusWord) =
      some 0x00000005#32 := by decide +kernel

/-- FLT-5: BadSlot outranks ShiftAmountOutOfRange. -/
theorem test_priority_bad_slot :
    after (presentWord (two (limbsIn 16 [7, 0]) Slot.empty) 0x0000002020090000#64) (fun t => t.statusWord) =
      some 0x00000009#32 := by decide +kernel

/-- P7 step 7: a halted block drops even the illegal all-zero word. -/
theorem test_halted_drops :
    after (presentWord ((two Slot.empty Slot.empty).takeFault .allocationFailure) 0#64) (fun t => t.statusWord) =
      some 0x00000101#32 := by decide +kernel

/-! ### Witnesses: states that meet the hypotheses of the statements, at the edges of their clauses -/

theorem capacity_16 : isCapacity 16 := ⟨0, rfl⟩
theorem capacity_32 : isCapacity 32 := ⟨1, rfl⟩
theorem capacity_64 : isCapacity 64 := ⟨2, rfl⟩
theorem capacity_2_31 : isCapacity (2 ^ 31) := ⟨27, by norm_num⟩
theorem capacity_2_32 : isCapacity (2 ^ 32) := ⟨28, by norm_num⟩

/-- A block at rest whose parts are in order is ready. -/
theorem box_ready {p : Params} {slots : List Slot} {cbuf : Memory} (hp : p.ok) (hl : slots.length = p.nslots)
    (hs : ∀ x ∈ slots, x.wf p.capMax) (hc : cbuf.wf) (hb : ∀ c ∈ cbuf, c.1 < p.cbufBytes) :
    (box p slots cbuf).ready := by
  refine ⟨⟨hp, hl, fun _ n hn => ?_, by simp [box, State.resetWith], rfl, hc, hb, Nat.zero_lt_one⟩, rfl⟩
  have hn' : n < slots.length := by rw [hl]; exact hn
  have : (box p slots cbuf).slot n = slots[n] := by simp [State.slot, box, hn']
  rw [this]
  exact hs _ (List.getElem_mem _)

theorem holding_wf {capMax : Option Nat} {size cap v : Nat} (hc : isCapacity cap) (h1 : 1 ≤ size) (h2 : size ≤ cap)
    (hb : ∀ c, capMax = some c → cap ≤ c ∧ size < c) (hv : v < limbBase ^ (size - 1)) :
    (Slot.holding size cap v).wf capMax := Or.inr (Slot.holding_ok hc h1 h2 hb hv).1

/-- s0 = 7, s1 EMPTY, s2 = 2^480 at capacity 32, s3 = 2^32 - 1; CBUF = "12a4". -/
def base : State :=
  box params [Slot.holding 2 16 7, Slot.empty, Slot.holding 17 32 (2 ^ 480), Slot.holding 2 16 (2 ^ 32 - 1)]
    (bytesAt0 [0x31, 0x32, 0x61, 0x34])

theorem base_ready : base.ready := by
  apply box_ready
  · exact ⟨by decide, fun c hc => by cases hc; exact ⟨capacity_64, by norm_num⟩, by decide⟩
  · rfl
  · have h : ∀ c, (some 64 : Option Nat) = some c → c = 64 := fun c hc => (Option.some.inj hc).symm
    simp only [List.forall_mem_cons]
    refine ⟨holding_wf capacity_16 ?_ ?_ (fun c hc => ?_) ?_, Or.inl rfl,
      holding_wf capacity_32 ?_ ?_ (fun c hc => ?_) ?_, holding_wf capacity_16 ?_ ?_ (fun c hc => ?_) ?_, by simp⟩ <;>
      first
        | (rw [h c hc]; norm_num)
        | decide +kernel
  · exact Memory.writeBytes_wf _ List.Pairwise.nil
  · exact Memory.writeBytes_bound _ (by simp) (by decide)

/-- CAP_MAX = 16: s0 = 2^448 - 1, the largest value that fits; s1 EMPTY, s2 = 0, s3 = 5; CBUF = 136 times "9". -/
def tight : State :=
  box smallParams [Slot.holding 15 16 (2 ^ 448 - 1), Slot.empty, Slot.holding 1 16 0, Slot.holding 2 16 5]
    (bytesAt0 (List.replicate 136 0x39))

theorem tight_ready : tight.ready := by
  apply box_ready
  · exact ⟨by decide, fun c hc => by cases hc; exact ⟨capacity_16, by norm_num⟩, by decide⟩
  · rfl
  · have h : ∀ c, (some 16 : Option Nat) = some c → c = 16 := fun c hc => (Option.some.inj hc).symm
    simp only [List.forall_mem_cons]
    refine ⟨holding_wf capacity_16 ?_ ?_ (fun c hc => ?_) ?_, Or.inl rfl,
      holding_wf capacity_16 ?_ ?_ (fun c hc => ?_) ?_, holding_wf capacity_16 ?_ ?_ (fun c hc => ?_) ?_, by simp⟩ <;>
      first
        | (rw [h c hc]; norm_num)
        | decide +kernel
  · exact Memory.writeBytes_wf _ List.Pairwise.nil
  · exact Memory.writeBytes_bound _ (by simp) (by decide +kernel)

/-- CAP_MAX = ∞: s0 is 0 at capacity 2^32, beyond the result registers; s1 is 0 at capacity 2^31. -/
def endless : State :=
  box endlessParams [Slot.holding 1 (2 ^ 32) 0, Slot.holding 1 (2 ^ 31) 0, Slot.empty, Slot.empty] []

theorem endless_ready : endless.ready := by
  apply box_ready
  · exact ⟨by decide, fun c hc => (by cases hc), by decide⟩
  · rfl
  · simp only [List.forall_mem_cons]
    exact ⟨holding_wf capacity_2_32 (by norm_num) (by norm_num) (fun c hc => (by cases hc)) (by norm_num),
      holding_wf capacity_2_31 (by norm_num) (by norm_num) (fun c hc => (by cases hc)) (by norm_num),
      Or.inl rfl, Or.inl rfl, by simp⟩
  · decide
  · decide

/-- CAP_MAX = 64: s0 = 2^480 - 1 at size 16, s1 = 0 at capacity 16, s2 = 5 with two zero used limbs on top; CBUF is three
bytes, "000". -/
def edge : State :=
  box ⟨4, some 64, 3⟩ [Slot.holding 16 32 (2 ^ 480 - 1), Slot.holding 1 16 0, Slot.holding 4 16 5, Slot.empty]
    (bytesAt0 [0x30, 0x30, 0x30])

theorem edge_ready : edge.ready := by
  apply box_ready
  · exact ⟨by decide, fun c hc => by cases hc; exact ⟨capacity_64, by norm_num⟩, by decide⟩
  · rfl
  · have h : ∀ c, (some 64 : Option Nat) = some c → c = 64 := fun c hc => (Option.some.inj hc).symm
    simp only [List.forall_mem_cons]
    refine ⟨holding_wf capacity_32 ?_ ?_ (fun c hc => ?_) ?_, holding_wf capacity_16 ?_ ?_ (fun c hc => ?_) ?_,
      holding_wf capacity_16 ?_ ?_ (fun c hc => ?_) ?_, Or.inl rfl, by simp⟩ <;>
      first
        | (rw [h c hc]; norm_num)
        | decide +kernel
  · exact Memory.writeBytes_wf _ List.Pairwise.nil
  · exact Memory.writeBytes_bound _ (by simp) (by decide)

/-- A block that entered HALT. -/
def halted : State := base.takeFault .allocationFailure

theorem inv_withHost {s : State} (h : s.Inv) (acts : List HostAction) : (s.withHost acts).Inv :=
  ⟨h.params, h.slotCount, h.slotsWf, h.halted, h.idle, h.cbufWf, h.cbufBound, h.drawn⟩

theorem after_next {α : Type} {o : Host.Outcome State Fault Refusal} {look : State → α} {r : α}
    (h : after o look = some r) : ∃ t, o = .next t ∧ look t = r := by
  cases o with
  | next t => exact ⟨t, rfl, Option.some.inj h⟩
  | fault _ => cases h
  | refused _ => cases h

theorem live_of {s : State} {n : Nat} (h : decide (n < s.params.nslots) && (s.slot n).live = true) : s.hasLive n := by
  simpa [State.hasLive] using h

theorem witness_DecodeOfEncode : (Instr.addv 255 0 255).wf = true ∧ (Instr.rdl 255 0xFFFFFFFF#32).wf = true := by decide

theorem witness_EncodeOfDecode : decode 0xFFFFFFFF49FFFF00#64 = .error .unusedFieldNonzero ∧
    decode 0xFFFFFFFF4900FF00#64 = .ok (.rdl 255 0xFFFFFFFF#32) := ⟨rfl, rfl⟩

theorem witness_OpcodeMapIsTheSpecs : (∃ r ∈ opTable, ∃ w : CmdWord, w &&& r.mask = r.pattern) ∧
    decode 0x0000000001FF0000#64 = .ok (.alloc 255) :=
  ⟨⟨opTable[0], List.getElem_mem _, 0x0000000001FF0000#64, by decide⟩, rfl⟩

theorem witness_IllegalWord_no_row :
    (base.withHost [.present 0#64]).host = [.present 0#64] ∧ base.busy = false ∧ base.halt = false ∧
    ∀ r ∈ opTable, 0#64 &&& r.mask ≠ r.pattern := by decide

theorem witness_IllegalWord_opcode :
    opField 0x00000000FF000000#64 ∉ [0x01#8, 0x02#8, 0x03#8, 0x10#8, 0x11#8, 0x12#8, 0x18#8, 0x20#8, 0x21#8, 0x30#8,
      0x31#8, 0x40#8, 0x41#8, 0x48#8, 0x49#8] := by decide

theorem witness_IllegalWord_unused_field : ∃ r ∈ opTable, opField 0x0000000001010001#64 = opField r.pattern ∧
    0x0000000001010001#64 &&& r.mask ≠ r.pattern := ⟨opTable[0], List.getElem_mem _, by decide⟩

theorem witness_AssemblerForm : assemble "DIVS" [.slot 1, .slot 0, .imm 10] = some (.divs 1 0 10#32) := by decide

theorem witness_StepRunsPresentedCommand :
    (base.withHost [.present 0x0000000512010000#64, .readRes0]).host = .present 0x0000000512010000#64 :: [.readRes0] ∧
    base.busy = false ∧ base.halt = false ∧ decode 0x0000000512010000#64 = .ok (.divs 1 0 5#32) := ⟨rfl, rfl, rfl, rfl⟩

theorem witness_FetchWordRunsItsCommand :
    base.busy = false ∧ base.halt = false ∧ (Instr.addv 255 0 1).wf = true := by decide

theorem witness_HaltedBlock : (halted.withHost [.present 0#64]).host = .present 0#64 :: [] ∧ halted.busy = false ∧
    halted.halt = true := ⟨rfl, rfl, rfl⟩

theorem witness_HostReset : ∃ s : State, s.host = .assertReset :: [.readStatus] ∧ s.busy = true ∧ s.halt = true :=
  ⟨{ halted.withHost [.assertReset, .readStatus] with busy := true }, rfl, rfl, rfl⟩

theorem witness_HostReads : base.busy = false ∧ 159 < base.params.cbufBytes ∧ base.host = [] ∧
    (base.withHost [.readStatus]).host = .readStatus :: [] ∧ (base.withHost [.readRes0]).host = .readRes0 :: [] ∧
    (base.withHost [.readRes1]).host = .readRes1 :: [] ∧ (base.withHost [.readCbuf 159]).host = .readCbuf 159 :: [] :=
  ⟨rfl, by decide, rfl, rfl, rfl, rfl, rfl⟩

theorem witness_HostWrite : (base.withHost [.writeCbuf 159 0xFF#8]).host = .writeCbuf 159 0xFF#8 :: [] ∧
    base.busy = false ∧ 159 < base.params.cbufBytes := ⟨rfl, rfl, by decide⟩

theorem witness_HostActionOutside :
    (base.withHost [.readCbuf 160]).host = .readCbuf 160 :: [] ∧ base.busy = false ∧ base.params.cbufBytes ≤ 160 ∧
    ({ base with busy := true, host := [.readRes0] } : State).busy = true ∧
    HostAction.readRes0 ≠ .assertReset ∧ HostAction.readRes0 ≠ .readStatus := by decide

theorem witness_Lifecycle : base.halt = false ∧ base.params.nslots ≤ 4 ∧ 3 < base.params.nslots ∧ (base.slot 1).cap = 0 ∧
    (base.slot 3).cap ≠ 0 := by decide

theorem witness_AddsAndMuls : base.ready ∧ base.hasLive 3 ∧
    (base.slot 3).hasRoom base.params.capMax ((base.slot 3).val + (1#32).toNat) ∧
    (base.slot 3).hasRoom base.params.capMax ((base.slot 3).val * (0xFFFFFFFF#32).toNat) :=
  ⟨base_ready, live_of (by decide), by unfold Slot.hasRoom; decide +kernel, by unfold Slot.hasRoom; decide +kernel⟩

/-- At CAP_MAX = 16 the largest value takes a product by 1, and a sum with 0. -/
theorem witness_AddsAndMuls_edge : tight.ready ∧ tight.hasLive 0 ∧
    (tight.slot 0).hasRoom tight.params.capMax ((tight.slot 0).val + (0#32).toNat) ∧
    (tight.slot 0).hasRoom tight.params.capMax ((tight.slot 0).val * (1#32).toNat) :=
  ⟨tight_ready, live_of (by decide), by unfold Slot.hasRoom; decide +kernel, by unfold Slot.hasRoom; decide +kernel⟩

theorem witness_Divs : base.ready ∧ base.hasLive 0 ∧ base.hasLive 2 ∧ (0 : Nat) ≠ 2 ∧ (1#32).toNat ≠ 0 ∧
    (0xFFFFFFFF#32).toNat ≠ 0 ∧ (0#32).toNat = 0 :=
  ⟨base_ready, live_of (by decide), live_of (by decide), by decide, by decide, by decide, by decide⟩

theorem witness_Addv : base.ready ∧ base.hasLive 0 ∧ base.hasLive 2 ∧ base.hasLive 3 ∧ (0 : Nat) ≠ 2 ∧ (0 : Nat) ≠ 3 ∧
    roomToBuild base.params.capMax
      (sizeAfter (max (base.slot 2).size (base.slot 3).size) ((base.slot 2).val + (base.slot 3).val)) :=
  ⟨base_ready, live_of (by decide), live_of (by decide), live_of (by decide), by decide, by decide,
    32, capacity_32, by decide +kernel, by decide⟩

theorem witness_Shl : base.ready ∧ base.hasLive 3 ∧ (31#32).toNat ≤ 31 ∧ (0#32).toNat ≤ 31 ∧
    (base.slot 3).hasRoom base.params.capMax ((base.slot 3).val * 2 ^ (31#32).toNat) ∧
    (base.slot 3).hasRoom base.params.capMax ((base.slot 3).val * 2 ^ (0#32).toNat) :=
  ⟨base_ready, live_of (by decide), by decide, by decide, by unfold Slot.hasRoom; decide +kernel,
    by unfold Slot.hasRoom; decide +kernel⟩

theorem witness_Shr : base.ready ∧ base.hasLive 2 ∧ (31#32).toNat ≤ 31 ∧ (0#32).toNat ≤ 31 :=
  ⟨base_ready, live_of (by decide), by decide, by decide⟩

/-- Into the EMPTY slot s1, from the two digits "12". -/
theorem witness_Fromdec : base.ready ∧ 1 < base.params.nslots ∧ (2#32).toNat ≤ base.params.cbufBytes ∧
    (∀ p, p < (2#32).toNat → notDigit (base.cbufByte p) = false) ∧
    roomToBuild base.params.capMax (normalSize (decimalValue (base.cbufString (2#32).toNat))) :=
  ⟨base_ready, by decide, by decide, by decide +kernel, 16, capacity_16, by decide +kernel, by decide⟩

/-- Into a LIVE slot, from all of CBUF. -/
theorem witness_Fromdec_edge : edge.ready ∧ 0 < edge.params.nslots ∧ (3#32).toNat ≤ edge.params.cbufBytes ∧
    (∀ p, p < (3#32).toNat → notDigit (edge.cbufByte p) = false) ∧
    roomToBuild edge.params.capMax (normalSize (decimalValue (edge.cbufString (3#32).toNat))) :=
  ⟨edge_ready, by decide, by decide, by decide +kernel, 16, capacity_16, by decide +kernel, by decide⟩

theorem base_val_0 : (base.slot 0).val = 7 := by decide +kernel
theorem base_val_3 : (base.slot 3).val = 4294967295 := by decide +kernel
theorem digits_7 : (decimalString 7).length = 1 := by norm_num [decimalString]
theorem digits_large : (decimalString 4294967295).length = 10 := by norm_num [decimalString]
theorem digits_12 : (decimalString 12).length = 2 := by norm_num [decimalString]

theorem witness_Todec : base.ready ∧ base.hasLive 0 ∧ (1#32).toNat ≤ base.params.cbufBytes ∧
    (decimalString (base.slot 0).val).length ≤ (1#32).toNat :=
  ⟨base_ready, live_of (by decide), by decide, by rw [base_val_0, digits_7]; decide⟩

theorem witness_Todec_ten_digits : base.ready ∧ base.hasLive 3 ∧ (10#32).toNat ≤ base.params.cbufBytes ∧
    (decimalString (base.slot 3).val).length ≤ (10#32).toNat :=
  ⟨base_ready, live_of (by decide), by decide, by rw [base_val_3, digits_large]; decide⟩

theorem witness_TodecBufferTooSmall : base.ready ∧ base.hasLive 3 ∧ (9#32).toNat ≤ base.params.cbufBytes ∧
    (9#32).toNat < (decimalString (base.slot 3).val).length :=
  ⟨base_ready, live_of (by decide), by decide, by rw [base_val_3, digits_large]; decide⟩

theorem witness_Eqs : base.ready ∧ base.hasLive 3 := ⟨base_ready, live_of (by decide)⟩

theorem witness_Dcopy : base.ready ∧ base.hasLive 0 ∧ base.hasLive 2 ∧ (0 : Nat) ≠ 2 ∧
    (base.slot 0).size ≤ (base.slot 2).cap ∧ (base.slot 0).cap < (base.slot 2).size :=
  ⟨base_ready, live_of (by decide), live_of (by decide), by decide, by decide, by decide⟩

/-- A source whose size equals the destination's capacity. -/
theorem witness_Dcopy_edge : edge.ready ∧ edge.hasLive 1 ∧ edge.hasLive 0 ∧ (1 : Nat) ≠ 0 ∧
    (edge.slot 0).size = 16 ∧ (edge.slot 1).cap = 16 :=
  ⟨edge_ready, live_of (by decide +kernel), live_of (by decide +kernel), by decide, rfl, rfl⟩

theorem witness_Rdsz : base.ready ∧ base.hasLive 2 ∧ base.params.capMax ≠ none :=
  ⟨base_ready, live_of (by decide), by decide⟩

theorem endless_live (n : Nat) (h : n < 2) : endless.hasLive n := by
  refine ⟨lt_trans h (by decide), ?_⟩
  rcases (by omega : n = 0 ∨ n = 1) with rfl | rfl
  · show (2 ^ 32 != 0) = true
    decide
  · show (2 ^ 31 != 0) = true
    decide

theorem witness_Rdsz_endless : endless.ready ∧ endless.hasLive 1 ∧ (endless.slot 1).size < 2 ^ 32 ∧
    (endless.slot 1).cap < 2 ^ 32 ∧ endless.hasLive 0 ∧ 2 ^ 32 ≤ (endless.slot 0).cap :=
  ⟨endless_ready, endless_live 1 (by decide), by show 1 < 2 ^ 32; norm_num, by show 2 ^ 31 < 2 ^ 32; norm_num,
    endless_live 0 (by decide), by show 2 ^ 32 ≤ 2 ^ 32; exact Nat.le_refl _⟩

theorem witness_Rdl : base.ready ∧ base.hasLive 0 ∧ (1#32).toNat < (base.slot 0).size ∧
    (1#32).toNat = (base.slot 0).size - 1 ∧ (base.slot 0).size ≤ (2#32).toNat :=
  ⟨base_ready, live_of (by decide), by decide, by decide, by decide⟩

theorem witness_FaultPriority : halted.halt = true ∧ base.halt = false ∧
    (∀ i, decode 0#64 ≠ .ok i) ∧ decode 0x0000000018000000#64 = .ok (.addv 0 0 0) ∧
    base.firstFault (.addv 0 0 0) = some .operandAlias ∧ base.firstFault (.adds 0 1#32) = none :=
  ⟨rfl, rfl, fun i h => (by cases h), rfl, by decide, by decide⟩

theorem witness_RecoverableFault :
    (∃ t, exec (.alloc 0) base = .next t ∧ t.err = some .slotInUse) ∧
    (∃ t, exec (.todec 0 0#32) base = .next t ∧ t.err = some .bufferTooSmall) ∧
    ∃ t, exec (.dcopy 0 2) base = .next t ∧ t.err = some .bufferTooSmall :=
  ⟨after_next (by decide +kernel), after_next (by decide +kernel), after_next (by decide +kernel)⟩

theorem witness_FatalFault : tight.ready ∧ ∃ t, exec (.muls 0 2#32) tight = .next t ∧ t.err = some .allocationFailure :=
  ⟨tight_ready, after_next (by decide +kernel)⟩

theorem no_room_16 {n : Nat} (h : 16 ≤ n) : ¬ roomToBuild (some 16) n := by
  rintro ⟨c, _, hc, ha⟩
  simp [aboveCapMax] at ha
  omega

theorem witness_GrowthBeyondCapMax : tight.ready ∧ tight.hasLive 0 ∧ tight.hasLive 2 ∧ tight.hasLive 3 ∧
    ¬ (tight.slot 0).hasRoom tight.params.capMax ((tight.slot 0).val + (1#32).toNat) ∧
    ¬ (tight.slot 0).hasRoom tight.params.capMax ((tight.slot 0).val * (2#32).toNat) ∧
    ¬ (tight.slot 0).hasRoom tight.params.capMax ((tight.slot 0).val * 2 ^ (1#32).toNat) ∧
    ¬ roomToBuild tight.params.capMax
      (sizeAfter (max (tight.slot 0).size (tight.slot 3).size) ((tight.slot 0).val + (tight.slot 3).val)) ∧
    (∀ p, p < (136#32).toNat → notDigit (tight.cbufByte p) = false) ∧
    ¬ roomToBuild tight.params.capMax (normalSize (decimalValue (tight.cbufString (136#32).toNat))) :=
  ⟨tight_ready, live_of (by decide +kernel), live_of (by decide +kernel), live_of (by decide +kernel),
    by unfold Slot.hasRoom; decide +kernel, by unfold Slot.hasRoom; decide +kernel,
    by unfold Slot.hasRoom; decide +kernel, no_room_16 (by decide +kernel), by decide +kernel,
    no_room_16 (by decide +kernel)⟩

theorem witness_ShiftRange : base.halt = false ∧ base.hasLive 0 ∧ 32 ≤ (32#32).toNat ∧ 32 ≤ (0xFFFFFFFF#32).toNat ∧
    (31#32).toNat ≤ 31 ∧ ∃ t, exec (.shl 0 31#32) base = .next t :=
  ⟨rfl, live_of (by decide), by decide, by decide, by decide, _, rfl⟩

theorem witness_EveryCommandEnds : base.ready ∧ base.params.capMax ≠ none ∧ endless.ready ∧
    ∀ a, Instr.release 0 ≠ .rdsz a := ⟨base_ready, by decide, endless_ready, fun a h => (by cases h)⟩

theorem witness_Frames : base.ready ∧ (∃ t, exec (.adds 0 1#32) base = .next t) ∧
    (Instr.adds 0 1#32).dest ≠ some 2 ∧ (Instr.adds 0 1#32).givesRes0 = false ∧
    (Instr.eqs 0 1#32).givesRes1 = false ∧ (Instr.eqs 0 1#32).grows = false ∧ base.firstFault (.eqs 0 1#32) = none :=
  ⟨base_ready, ⟨_, rfl⟩, by decide, by decide, by decide, by decide, by decide⟩

theorem witness_CbufFrame :
    (∃ t, exec (.todec 0 1#32) base = .next t ∧ t.err = none) ∧
    (∃ t, exec (.todec 3 0#32) base = .next t ∧ t.err = some .bufferTooSmall) ∧
    ∃ t, exec (.todec 1 9#32) base = .next t ∧ t.err = some .useAfterRelease :=
  ⟨after_next (by decide +kernel), after_next (by decide +kernel), after_next (by decide +kernel)⟩

/-- The smallest and the largest parameters R5 allows. -/
theorem witness_ResetMeetsInv : (⟨1, some 16, 1⟩ : Params).ok ∧ (⟨256, some (2 ^ 31), 2 ^ 32 - 1⟩ : Params).ok ∧
    (⟨256, none, 1⟩ : Params).ok :=
  ⟨⟨by decide, fun c hc => (by cases hc; exact ⟨capacity_16, by norm_num⟩), by decide⟩,
    ⟨by decide, fun c hc => (by cases hc; exact ⟨capacity_2_31, Nat.le_refl _⟩), by decide⟩,
    ⟨by decide, fun c hc => (by cases hc), by decide⟩⟩

/-- `ADDS s3, #1` presented to `base`. -/
def aboutToAdd : State := base.withHost [.present 0x0000000110030000#64]

theorem witness_StepKeepsInv : aboutToAdd.Inv ∧
    ∃ t, step aboutToAdd = .next t ∧ (t.halt, decide (3 < t.params.nslots), (t.slot 3).live, (t.slot 3).size) =
      (false, true, true, 3) :=
  ⟨inv_withHost base_ready.1 _, after_next (by decide +kernel)⟩

theorem witness_OnlyResetLeavesHalt : halted.halt = true ∧
    (∀ rest, (halted.withHost [.writeCbuf 0 1#8]).host ≠ .assertReset :: rest) ∧
    ∃ t, step (halted.withHost [.writeCbuf 0 1#8]) = .next t :=
  ⟨rfl, fun _ h => (by cases h), _, rfl⟩

theorem witness_LifeStateChanges : base.Inv ∧
    (∃ t, step (base.withHost [.present 0x0000000003000000#64]) = .next t ∧
      (t.halt, (base.slot 0).live, (t.slot 0).live) = (false, true, false)) ∧
    (∃ t, step (base.withHost [.present 0x0000000001010000#64]) = .next t ∧
      (t.halt, (base.slot 1).live, (t.slot 1).live) = (false, false, true)) ∧
    ∃ t, step (base.withHost [.assertReset]) = .next t ∧ (t.halt, (t.slot 2).live) = (false, false) :=
  ⟨base_ready.1, after_next (by decide +kernel), after_next (by decide +kernel), after_next (by decide +kernel)⟩

theorem witness_SizeAndCapacityAreKept : base.ready ∧ base.hasLive 2 ∧
    (∃ t, exec (.reset 2) base = .next t ∧ (t.halt, (t.slot 2).live, decide ((t.slot 2).cap < (base.slot 2).cap)) =
      (false, true, true)) ∧
    ∃ t, exec (.shr 2 1#32) base = .next t ∧ (t.halt, (t.slot 2).live, (t.slot 2).size, (base.slot 2).size) =
      (false, true, 16, 17) :=
  ⟨base_ready, live_of (by decide), after_next (by decide +kernel), after_next (by decide +kernel)⟩

theorem witness_ShiftThenUnshift : base.ready ∧ base.hasLive 3 ∧ (31#32).toNat ≤ 31 ∧
    (base.slot 3).hasRoom base.params.capMax ((base.slot 3).val * 2 ^ (31#32).toNat) ∧ (base.slot 3).size ≤ 2 :=
  ⟨base_ready, live_of (by decide), by decide, by unfold Slot.hasRoom; decide +kernel, by decide⟩

theorem witness_ShiftThenUnshift_loose : edge.ready ∧ edge.hasLive 2 ∧ (1#32).toNat ≠ 0 ∧
    (edge.slot 2).hasRoom edge.params.capMax ((edge.slot 2).val * 2 ^ (1#32).toNat) ∧ 2 < (edge.slot 2).size ∧
    (edge.slot 2).limb ((edge.slot 2).size - 2) = 0#32 :=
  ⟨edge_ready, live_of (by decide +kernel), by decide, by unfold Slot.hasRoom; decide +kernel, by decide +kernel,
    by decide +kernel⟩

theorem witness_ShrinkFloor : (∃ t, exec (.shr 0 1#32) base = .next t) ∧ (∃ t, exec (.shr 2 1#32) base = .next t) ∧
    (base.slot 0).size = 2 ∧ 2 < (base.slot 2).size := ⟨⟨_, rfl⟩, ⟨_, rfl⟩, rfl, by decide⟩

theorem witness_DecimalRoundTrip : base.ready ∧ 1 < base.params.nslots ∧ (2#32).toNat ≤ base.params.cbufBytes ∧
    (∀ p, p < (2#32).toNat → notDigit (base.cbufByte p) = false) ∧
    roomToBuild base.params.capMax (normalSize (decimalValue (base.cbufString (2#32).toNat))) ∧
    (decimalString (decimalValue (base.cbufString (2#32).toNat))).length ≤ (2#32).toNat ∧
    base.cbufByte 0 ≠ 0x30#8 := by
  have hv : decimalValue (base.cbufString (2#32).toNat) = 12 := by decide +kernel
  refine ⟨base_ready, by decide, by decide, by decide +kernel, ⟨16, capacity_16, by decide +kernel, by decide⟩, ?_,
    by decide +kernel⟩
  rw [hv, digits_12]
  decide

theorem witness_DigitCount : base.ready ∧ base.hasLive 0 ∧ (∃ t, exec (.todec 0 10#32) base = .next t ∧ t.err = none) ∧
    (10#32).toNat ≤ base.params.cbufBytes ∧ 1 ≤ (10#32).toNat ∧ 10 * ((base.slot 0).size - 1) ≤ (10#32).toNat :=
  ⟨base_ready, live_of (by decide), after_next (by decide +kernel), by decide, by decide, by decide⟩

/-- The slot of R66: only the limb at the guard index may be nonzero. -/
def guardWritten : Slot := (Slot.holding 15 16 7).setLimb 14 1

theorem witness_GrowthProcedures : isCapacity guardWritten.cap ∧ guardWritten.limbs.length = guardWritten.cap ∧
    1 ≤ guardWritten.size ∧ guardWritten.size ≤ guardWritten.cap ∧
    (∀ i, guardWritten.size ≤ i → i < guardWritten.cap → guardWritten.limb i = 0#32) ∧
    (growByOne (some 32) guardWritten).toOption.isSome = true ∧
    (growByOne (some 16) guardWritten).toOption.isSome = false ∧
    (guardCheck (some 32) guardWritten).toOption.isSome = true := by
  refine ⟨capacity_16, by decide +kernel, by decide +kernel, by decide +kernel, fun i h1 h2 => ?_, by decide +kernel,
    by decide +kernel, by decide +kernel⟩
  have h1' : 15 ≤ i := h1
  have h2' : i < 16 := h2
  obtain rfl : i = 15 := by omega
  decide +kernel

theorem witness_FromdecIgnoresBytes :
    (∀ p, p < (2#32).toNat → ({ base with cbuf := bytesAt0 [0x31, 0x32] } : State).cbufByte p = base.cbufByte p) ∧
    ∃ t, exec (.fromdec 1 2#32) base = .next t := ⟨by decide +kernel, _, rfl⟩

theorem witness_UnnamedSlots : 2 ∉ (Instr.adds 0 1#32).slotFields ∧ ∃ t, exec (.adds 0 1#32) base = .next t :=
  ⟨by decide, _, rfl⟩

theorem witness_EarlierResults : base.halt = false ∧ (∃ t, exec (.divs 0 3 5#32) base = .next t ∧ t.err = none) ∧
    (Instr.divs 0 3 5#32).givesRes0 = true ∧ (∃ t, exec (.rdsz 0) base = .next t ∧ t.err = none) ∧
    (Instr.rdsz 0).givesRes1 = true :=
  ⟨rfl, after_next (by decide +kernel), rfl, after_next (by decide +kernel), rfl⟩

end Sys2Proof.Tests
end

section
/-! PROOFS. The inversion of a step by its host action (70_reset_and_hazards.md R152), the parameters under every step,
and the invariants after reset (00_scope.md R5; 10_state.md R25, R26). -/

namespace Sys2Proof.Machine

variable {s t : State}

/-! ### What a step that answers a next state did -/

/-- An action R152 allows only when idle is answered only when idle. -/
@[simp] theorem whenIdle_eq_next {r : Host.Outcome State Fault Refusal} :
    whenIdle s r = .next t ↔ s.busy = false ∧ r = .next t := by
  cases hb : s.busy <;> simp [whenIdle, hb]

/-- A host access to CBUF is answered only below CBUF_BYTES (R36). -/
@[simp] theorem whenCbufByte_eq_next {i : Nat} {r : Host.Outcome State Fault Refusal} :
    whenCbufByte s i r = .next t ↔ i < s.params.cbufBytes ∧ r = .next t := by
  by_cases hi : i < s.params.cbufBytes <;> simp [whenCbufByte, hi]

/-- The three courses of a presented word (R54): dropped, illegal, or the command it decodes to. -/
theorem presentWord_next_cases {w : CmdWord} (h : presentWord s w = .next t) :
    (s.halt = true ∧ t = s) ∨
    (s.halt = false ∧ (∃ e, decode w = .error e) ∧ t = s.takeFault .illegalOperation) ∨
    (s.halt = false ∧ ∃ i, decode w = .ok i ∧ exec i s = .next t) := by
  cases hh : s.halt with
  | true =>
    rw [presentWord_halted hh] at h
    cases h
    exact Or.inl ⟨rfl, rfl⟩
  | false =>
    cases hd : decode w with
    | error e =>
      rw [presentWord_illegal hh hd] at h
      cases h
      exact Or.inr (Or.inl ⟨rfl, ⟨e, rfl⟩, rfl⟩)
    | ok i =>
      rw [presentWord_decoded hh hd] at h
      exact Or.inr (Or.inr ⟨rfl, i, rfl, h⟩)

/-- A step idles when the host has nothing left to do, and else takes the host's next action (R152, R156). -/
theorem step_next_cases (h : step s = .next t) :
    (s.host = [] ∧ t = s) ∨
    ∃ act rest, s.host = act :: rest ∧ hostAct act (s.withHost rest) = .next t := by
  rw [step_eq] at h
  cases hs : s.host with
  | nil =>
    rw [hs] at h
    cases h
    exact Or.inl ⟨rfl, rfl⟩
  | cons act rest =>
    rw [hs] at h
    exact Or.inr ⟨act, rest, rfl, h⟩

/-! ### The parameters (R5, R25, R151) -/

theorem Effect.params_eq {i : Instr} (h : Effect s i t) : t.params = s.params := by
  cases h <;> rfl

theorem exec_params_eq {i : Instr} (h : exec i s = .next t) : t.params = s.params := by
  cases hh : s.halt with
  | true =>
    rw [exec_halted i hh] at h
    cases h
    rfl
  | false => exact (exec_effect hh h).params_eq

theorem presentWord_params_eq {w : CmdWord} (h : presentWord s w = .next t) : t.params = s.params := by
  rcases presentWord_next_cases h with ⟨-, rfl⟩ | ⟨-, -, rfl⟩ | ⟨-, i, -, he⟩
  · rfl
  · exact takeFault_params s _
  · exact exec_params_eq he

theorem hostAct_params_eq {act : HostAction} (h : hostAct act s = .next t) : t.params = s.params := by
  cases act with
  | present w =>
    obtain ⟨-, hp⟩ := whenIdle_eq_next.mp h
    exact presentWord_params_eq hp
  | assertReset => cases h; exact hostReset_params s
  | readStatus => cases h; exact gave_params s _
  | readRes0 =>
    obtain ⟨-, ⟨⟩⟩ := whenIdle_eq_next.mp h
    exact gave_params s _
  | readRes1 =>
    obtain ⟨-, ⟨⟩⟩ := whenIdle_eq_next.mp h
    exact gave_params s _
  | readCbuf i =>
    obtain ⟨-, hi⟩ := whenIdle_eq_next.mp h
    obtain ⟨-, ⟨⟩⟩ := whenCbufByte_eq_next.mp hi
    exact gave_params s _
  | writeCbuf i b =>
    obtain ⟨-, hi⟩ := whenIdle_eq_next.mp h
    obtain ⟨-, ⟨⟩⟩ := whenCbufByte_eq_next.mp hi
    exact writeCbuf_params s i b

/-- Settles O42, by the host's next action: a command by the ways `Effect` lists, every other action by its update. -/
theorem stepNeverChangesParameters : Obligations.StepNeverChangesParameters := by
  intro s t h
  rcases step_next_cases h with ⟨-, rfl⟩ | ⟨act, rest, -, ha⟩
  · rfl
  · exact (hostAct_params_eq ha).trans (withHost_params s rest)

/-! ### The invariants after reset (R5, R12, R26) -/

/-- The parameters of the model's own reset state are legal ones (R5; log entry 1). -/
theorem resetParams_ok : resetParams.ok where
  slots := by decide
  cap c hc := by
    obtain rfl : 2 ^ 31 = c := Option.some.inj hc
    exact ⟨⟨27, by norm_num⟩, le_rfl⟩
  cbuf := by decide

theorem resetWith_inv {p : Params} (hp : p.ok) : (State.resetWith p).Inv where
  params := hp
  slotCount := by simp
  slotsWf _ n _ := Or.inl (resetWith_slot p n)
  halted := by simp
  idle := rfl
  cbufWf := List.Pairwise.nil
  cbufBound := by simp
  drawn := Nat.zero_lt_one

/-- Settles O40: every slot is EMPTY after reset, so its invariants ask nothing of it. -/
theorem resetMeetsInv : Obligations.ResetMeetsInv :=
  ⟨fun _ hp => resetWith_inv hp, resetWith_inv resetParams_ok⟩

end Sys2Proof.Machine
end

section
/-! PROOFS. The normal form of a command: its first fault in the order of R128, or else what it computes, written back
(30_encoding.md R54; 60_exceptions.md R125, R127, R128). -/

namespace Sys2Proof.Machine

variable {s t : State} {i : Instr}

/-! ### The checks of a command are the fault conditions of R128 -/

/-- The fault of the first condition that holds (R128). -/
def firstOf (l : List (Bool × ErrCode)) : Option ErrCode := (l.find? fun c => c.1).map fun c => c.2

theorem firstOf_singleton (c : Bool) (f : ErrCode) : firstOf [(c, f)] = raiseIf c f := by
  cases c <;> rfl

theorem firstOf_cons (c : Bool) (f : ErrCode) (c' : Bool × ErrCode) (l : List (Bool × ErrCode)) :
    firstOf ((c, f) :: c' :: l) = (raiseIf c f <|> firstOf (c' :: l)) := by
  cases c <;> simp [firstOf, raiseIf]

theorem firstFault_eq : s.firstFault i = (s.badSlot i.slotFields <|> firstOf (s.ownConditions i)) := by
  cases i <;> exact firstOf_cons _ _ _ _

theorem notLive_eq_raiseIf (ds : List Nat) : s.notLive ds = raiseIf (s.anyEmpty ds) .useAfterRelease := by
  simp [State.notLive, State.anyEmpty, Slot.live, bne, Bool.beq_eq_decide_eq]

theorem slotInUse_eq_raiseIf (d : Nat) : s.slotInUse d = raiseIf (!s.anyEmpty [d]) .slotInUse := by
  simp [State.slotInUse, State.anyEmpty, Slot.live, bne, Bool.beq_eq_decide_eq]

theorem zeroDivisor_eq_raiseIf (v : Imm) : zeroDivisor v = raiseIf (decide (v.toNat = 0)) .divideByZero := by
  unfold zeroDivisor
  congr 1
  rw [Bool.eq_iff_iff, beq_iff_eq, decide_eq_true_iff]
  exact limb_eq_zero_iff v

theorem isDigit_eq_not_notDigit (b : Byte) : isDigit b = !notDigit b := by
  rw [Bool.eq_iff_iff]
  simp [isDigit, notDigit]

theorem badDigit_eq_raiseIf (len : Imm) :
    s.badDigit len = raiseIf ((List.range len.toNat).any fun p => notDigit (s.cbufByte p)) .invalidDigitCharacter := by
  simp [State.badDigit, State.cbufString, List.any_map, isDigit_eq_not_notDigit, Function.comp_def]

theorem sameSlot_single_eq_raiseIf (d a : Nat) : sameSlot d [a] = raiseIf (decide (d = a)) .operandAlias := by
  simp [sameSlot]

theorem sameSlot_pair_eq_raiseIf (d a b : Nat) :
    sameSlot d [a, b] = raiseIf (decide (d = a ∨ d = b)) .operandAlias := by
  simp [sameSlot, Bool.decide_or]

/-! ### What a command computes, apart from where it goes -/

/-- What a command gives when its checks raise nothing: the parts of the state it writes, each with its new content or
the fault met while it was computed. -/
inductive Writeback where
  /-- one slot: every command with a destination but DIVS -/
  | slot (d : Nat) (r : Except ErrCode Slot)
  /-- a quotient for a slot and a remainder for RES0: DIVS -/
  | quotient (d : Nat) (r : Except ErrCode (Slot × Nat))
  /-- RES0: EQS and RDL -/
  | res0 (v : BitVec 32)
  /-- RES0 and RES1: RDSZ -/
  | res01 (v w : BitVec 32)
  /-- a string for a buffer of `capBytes` bytes, and its length for RES0: TODEC -/
  | string (capBytes : Nat) (r : Except ErrCode (List Byte))

/-- The state after a writeback, by the model's own ends of a command. -/
def Writeback.apply (s : State) : Writeback → State
  | .slot d r => s.finishSlot d r
  | .quotient d r => s.finishDiv d r
  | .res0 v => (s.setRes0 v).complete
  | .res01 v w => ((s.setRes0 v).setRes1 w).complete
  | .string capBytes r => s.finishTodec capBytes r

/-- What each command computes from its operands. -/
def State.result (s : State) : Instr → Writeback
  | .alloc d => .slot d (.ok Slot.fresh)
  | .reset d => .slot d (.ok Slot.fresh)
  | .release d => .slot d (.ok Slot.empty)
  | .adds d v => .slot d (addScalar s.params.capMax v.toNat (s.slot d))
  | .muls d m => .slot d (mulScalar s.params.capMax m.toNat (s.slot d))
  | .divs d a v => .quotient d (divScalar s.params.capMax v.toNat (s.slot a))
  | .addv d a b => .slot d (addVector s.params.capMax (s.slot a) (s.slot b))
  | .shl d k => .slot d (shiftLeft s.params.capMax k.toNat (s.slot d))
  | .shr d k => .slot d (.ok (shiftRight k.toNat (s.slot d)))
  | .fromdec d len => .slot d (parseDigits s.params.capMax (s.cbufString len.toNat) Slot.fresh)
  | .todec a capBytes => .string capBytes.toNat (renderDigits capBytes.toNat (s.slot a) [])
  | .eqs a v => .res0 (boolRes (equalsScalar (s.slot a) v))
  | .dcopy d a => .slot d (.ok (if d = a then s.slot d else copyInto (s.slot d) (s.slot a)))
  | .rdsz a => .res01 (BitVec.ofNat 32 (s.slot a).size) (BitVec.ofNat 32 (s.slot a).cap)
  | .rdl a idx => .res0 ((s.slot a).limb idx.toNat)

/-- RDSZ is refused while the size or the capacity it would give is beyond the registers (U20). -/
def State.refuses (s : State) : Instr → Bool
  | .rdsz a => !s.halt && (s.firstFault (.rdsz a)).isNone && !(s.slot a).fitsRegisters
  | _ => false

theorem setSlot_slot_eq_self (d : Nat) : s.setSlot d (s.slot d) = s := by
  have h : s.slots.set d (s.slot d) = s.slots := by
    apply List.ext_getElem?
    intro n
    by_cases hn : d = n
    · subst hn
      by_cases hd : d < s.slots.length <;> simp [State.slot, hd]
    · simp [hn]
  unfold State.setSlot
  rw [h]

/-- A self-copy writes back what is there (R116). -/
theorem apply_dcopy (d a : Nat) :
    (s.result (.dcopy d a)).apply s =
      if d = a then s.complete else (s.setSlot d (copyInto (s.slot d) (s.slot a))).complete := by
  by_cases h : d = a
  · simp [State.result, Writeback.apply, State.finishSlot, h, setSlot_slot_eq_self]
  · simp [State.result, Writeback.apply, State.finishSlot, h]

/-- THE NORMAL FORM of all fifteen commands. In each arm the checks are rewritten to the conditions of R128; what is left
holds by definition, but for the self-copy of DCOPY. -/
theorem exec_eq (s : State) (i : Instr) :
    exec i s = if s.refuses i then .refused .sizeBeyondRegister
      else .next (s.command (s.firstFault i) ((s.result i).apply s)) := by
  cases i <;> simp only [firstFault_eq, State.ownConditions, Instr.slotFields, firstOf_singleton, firstOf_cons,
    ← notLive_eq_raiseIf, ← slotInUse_eq_raiseIf, ← badDigit_eq_raiseIf, ← zeroDivisor_eq_raiseIf,
    ← sameSlot_single_eq_raiseIf, ← sameSlot_pair_eq_raiseIf, State.refuses, apply_dcopy] <;> rfl

/-- A command that answers a next state answers that of its normal form. -/
theorem exec_next (h : exec i s = .next t) : t = s.command (s.firstFault i) ((s.result i).apply s) := by
  rw [exec_eq] at h
  split at h
  · cases h
  · exact (Host.Outcome.next.inj h).symm

/-- It was dropped, or reports its first fault, or writes its result back (R54, R125, R128). -/
theorem exec_next_cases (h : exec i s = .next t) :
    (s.halt = true ∧ t = s) ∨
    (s.halt = false ∧ ∃ f, s.firstFault i = some f ∧ t = s.takeFault f) ∨
    (s.halt = false ∧ s.firstFault i = none ∧ t = (s.result i).apply s) := by
  rw [exec_next h]
  exact command_cases _ _

/-- The same while HALT is clear. -/
theorem exec_unhalted_cases (hh : s.halt = false) (h : exec i s = .next t) :
    (∃ f, s.firstFault i = some f ∧ t = s.takeFault f) ∨
    (s.firstFault i = none ∧ t = (s.result i).apply s) := by
  rcases exec_next_cases h with ⟨hh', -⟩ | ⟨-, hf⟩ | ⟨-, hr⟩
  · exact Bool.noConfusion (hh.symm.trans hh')
  · exact Or.inl hf
  · exact Or.inr hr

end Sys2Proof.Machine
end

section
/-! PROOFS. What a writeback writes, what it leaves, and what it reports (10_state.md R20 to R22; 60_exceptions.md R125,
R129 to R131). -/

namespace Sys2Proof.Machine

variable {s t : State} {i : Instr} {w : Writeback} {n : Nat} {x : Slot}

/-! ### The parts a writeback writes -/

/-- The slot a writeback writes. -/
def Writeback.dest : Writeback → Option Nat
  | .slot d _ | .quotient d _ => some d
  | .res0 _ | .res01 _ _ | .string _ _ => none

/-- Does a writeback write RES0? -/
def Writeback.givesRes0 : Writeback → Bool
  | .quotient _ _ | .res0 _ | .res01 _ _ | .string _ _ => true
  | .slot _ _ => false

/-- Does a writeback write RES1? -/
def Writeback.givesRes1 : Writeback → Bool
  | .res01 _ _ => true
  | .slot _ _ | .quotient _ _ | .res0 _ | .string _ _ => false

/-- The fault met in place of a result. -/
def faultOf {α : Type} : Except ErrCode α → Option ErrCode
  | .ok _ => none
  | .error f => some f

theorem faultOf_eq_some {α : Type} {r : Except ErrCode α} {f : ErrCode} : faultOf r = some f ↔ r = .error f := by
  cases r <;> simp [faultOf]

/-- The fault a writeback reports. -/
def Writeback.failure : Writeback → Option ErrCode
  | .slot _ r => faultOf r
  | .quotient _ r => faultOf r
  | .string _ r => faultOf r
  | .res0 _ | .res01 _ _ => none

/-- The new content of the slot a writeback writes. -/
def Writeback.content : Writeback → Option Slot
  | .slot _ (.ok x) => some x
  | .quotient _ (.ok p) => some p.1
  | .slot _ (.error _) | .quotient _ (.error _) | .res0 _ | .res01 _ _ | .string _ _ => none

@[simp] theorem content_slot_eq_some {d : Nat} {r : Except ErrCode Slot} :
    (Writeback.slot d r).content = some x ↔ r = .ok x := by
  cases r <;> simp [Writeback.content]

@[simp] theorem result_dest (s : State) (i : Instr) : (s.result i).dest = i.dest := by cases i <;> rfl

@[simp] theorem result_givesRes0 (s : State) (i : Instr) : (s.result i).givesRes0 = i.givesRes0 := by cases i <;> rfl

@[simp] theorem result_givesRes1 (s : State) (i : Instr) : (s.result i).givesRes1 = i.givesRes1 := by cases i <;> rfl

theorem result_ne_string (h : ∀ a capBytes, i ≠ .todec a capBytes) (c : Nat) (r : Except ErrCode (List Byte)) :
    s.result i ≠ .string c r := by
  cases i with
  | todec a capBytes => exact absurd rfl (h a capBytes)
  | _ => exact nofun

theorem dest_mem_slotFields {d : Nat} (h : i.dest = some d) : d ∈ i.slotFields := by
  cases i <;> cases h <;> exact List.mem_cons_self

/-! ### Slots -/

theorem finishSlot_slot_ne {d : Nat} (h : d ≠ n) (r : Except ErrCode Slot) :
    (s.finishSlot d r).slot n = s.slot n := by
  cases r with
  | ok x => exact setSlot_slot_ne s x h
  | error f => exact spoilSlot_slot_ne s h

theorem finishDiv_slot_ne {d : Nat} (h : d ≠ n) (r : Except ErrCode (Slot × Nat)) :
    (s.finishDiv d r).slot n = s.slot n := by
  cases r with
  | ok p => exact setSlot_slot_ne s p.1 h
  | error f => exact spoilSlot_slot_ne s h

theorem apply_slot_ne (h : w.dest ≠ some n) : (w.apply s).slot n = s.slot n := by
  cases w with
  | slot d r => exact finishSlot_slot_ne (fun e => h (congrArg some e)) r
  | quotient d r => exact finishDiv_slot_ne (fun e => h (congrArg some e)) r
  | string c r => cases r <;> rfl
  | res0 v => rfl
  | res01 v v' => rfl

theorem content_eq_slot (hd : w.dest = some n) (hf : w.failure = none) (hn : n < s.slots.length) :
    w.content = some ((w.apply s).slot n) := by
  cases w with
  | slot d r =>
    cases hd
    cases r with
    | ok x => exact congrArg some (setSlot_slot_self s x hn).symm
    | error f => cases hf
  | quotient d r =>
    cases hd
    cases r with
    | ok p => exact congrArg some (setSlot_slot_self s p.1 hn).symm
    | error f => cases hf
  | _ => cases hd

/-! ### RES0, RES1 and CBUF -/

theorem apply_res0 (h : w.givesRes0 = false) : (w.apply s).res0 = s.res0 := by
  cases w with
  | slot d r => cases r <;> rfl
  | _ => cases h

theorem apply_res1 (h : w.givesRes1 = false) : (w.apply s).res1 = s.res1 := by
  rcases w with ⟨_, _ | _⟩ | ⟨_, _ | _⟩ | _ | _ | ⟨_, _ | _⟩
  case res01 => cases h
  all_goals rfl

/-- A writeback that reports a fault leaves the result registers alone (R129, R130). -/
theorem apply_results_of_failure (h : w.failure ≠ none) :
    (w.apply s).res0 = s.res0 ∧ (w.apply s).res1 = s.res1 := by
  rcases w with ⟨_, _ | _⟩ | ⟨_, _ | _⟩ | _ | _ | ⟨_, _ | _⟩
  case slot.error | quotient.error | string.error => exact ⟨rfl, rfl⟩
  all_goals exact absurd rfl h

theorem apply_cbufByte (h : ∀ c r, w ≠ .string c r) (p : Nat) : (w.apply s).cbufByte p = s.cbufByte p := by
  cases w with
  | slot d r => cases r <;> rfl
  | quotient d r => cases r <;> rfl
  | string c r => exact absurd rfl (h c r)
  | res0 v => rfl
  | res01 v v' => rfl

/-! ### STATUS -/

@[simp] theorem apply_err : (w.apply s).err = w.failure := by
  rcases w with ⟨_, _ | _⟩ | ⟨_, _ | _⟩ | _ | _ | ⟨_, _ | _⟩ <;> rfl

@[simp] theorem apply_busy : (w.apply s).busy = false := by
  rcases w with ⟨_, _ | _⟩ | ⟨_, _ | _⟩ | _ | _ | ⟨_, _ | _⟩ <;> rfl

theorem apply_halt : (w.apply s).halt = (s.halt || w.failure.any ErrCode.fatal) := by
  rcases w with ⟨_, _ | _⟩ | ⟨_, _ | _⟩ | _ | _ | ⟨_, _ | _⟩ <;>
    simp [Writeback.apply, Writeback.failure, faultOf, State.finishSlot, State.finishDiv, State.finishTodec]

theorem fatal_iff (f : ErrCode) : f.fatal = true ↔ f = .allocationFailure := by
  cases f <;> decide

/-- The report of a command: its first fault, or else what its writeback reports. -/
theorem exec_err (hh : s.halt = false) (h : exec i s = .next t) :
    t.err = (s.firstFault i <|> (s.result i).failure) := by
  rcases exec_unhalted_cases hh h with ⟨f, hf, rfl⟩ | ⟨hf, rfl⟩
  · rw [hf]
    rfl
  · rw [hf, apply_err]
    rfl

theorem exec_busy (hh : s.halt = false) (h : exec i s = .next t) : t.busy = false := by
  rcases exec_unhalted_cases hh h with ⟨f, -, rfl⟩ | ⟨-, rfl⟩
  · rfl
  · exact apply_busy

/-- HALT is set exactly by AllocationFailure (R125, R130). -/
theorem exec_halt_iff (hh : s.halt = false) (h : exec i s = .next t) :
    t.halt = true ↔ t.err = some .allocationFailure := by
  rcases exec_unhalted_cases hh h with ⟨f, -, rfl⟩ | ⟨-, rfl⟩
  · simp [hh, fatal_iff]
  · simp [apply_halt, hh, Option.any_eq_true, fatal_iff]

theorem exec_slot_ne (h : exec i s = .next t) (hd : i.dest ≠ some n) : t.slot n = s.slot n := by
  rcases exec_next_cases h with ⟨-, rfl⟩ | ⟨-, f, -, rfl⟩ | ⟨-, -, rfl⟩
  · rfl
  · exact takeFault_slot s f n
  · exact apply_slot_ne (by rwa [result_dest])

end Sys2Proof.Machine
end

section
/-! PROOFS. What a command makes of its destination (10_state.md R12 to R17; 40_limb_store.md R63 to R66, R82, R91, R95,
R97, R105, R116). -/

namespace Sys2Proof.Machine

variable {s t : State} {i : Instr} {n : Nat} {x : Slot}

/-! ### Operands of a command whose checks raise nothing -/

theorem firstFault_eq_none_iff : s.firstFault i = none ↔
    (∀ m ∈ i.slotFields, m < s.params.nslots) ∧ ∀ c ∈ s.ownConditions i, c.1 = false := by
  simp only [State.firstFault, Option.map_eq_none_iff, List.find?_eq_none, List.forall_mem_cons, Bool.not_eq_true,
    List.any_eq_false, decide_eq_true_eq, not_le]

theorem anyEmpty_eq_false_iff (ms : List Nat) : s.anyEmpty ms = false ↔ ∀ m ∈ ms, (s.slot m).live = true := by
  simp [State.anyEmpty, Slot.live]

/-- Every command but ALLOC and FROMDEC needs its slots LIVE (R127). -/
theorem operands_live (h : s.firstFault i = none) (ha : ∀ d, i ≠ .alloc d) (hf : ∀ d len, i ≠ .fromdec d len) :
    ∀ m ∈ i.slotFields, s.hasLive m := by
  obtain ⟨hn, hc⟩ := firstFault_eq_none_iff.mp h
  have hmem : (s.anyEmpty i.slotFields, ErrCode.useAfterRelease) ∈ s.ownConditions i := by
    cases i with
    | alloc d => exact absurd rfl (ha d)
    | fromdec d len => exact absurd rfl (hf d len)
    | _ => simp [State.ownConditions, Instr.slotFields]
  exact fun m hm => ⟨hn m hm, (anyEmpty_eq_false_iff _).mp (hc _ hmem) m hm⟩

/-- A condition of its own faults does not hold (R127). -/
theorem not_of_checks {p : Prop} [Decidable p] {f : ErrCode} (h : s.firstFault i = none)
    (hm : (decide p, f) ∈ s.ownConditions i) : ¬ p :=
  of_decide_eq_false ((firstFault_eq_none_iff.mp h).2 _ hm)

theorem shift_le_of_checks {k : Imm} (h : s.firstFault i = none)
    (hm : (decide (32 ≤ k.toNat), ErrCode.shiftAmountOutOfRange) ∈ s.ownConditions i) : k.toNat ≤ 31 :=
  Nat.le_of_lt_succ (not_le.mp (not_of_checks h hm))

theorem divisor_pos_of_checks {d a : Nat} {v : Imm} (h : s.firstFault (.divs d a v) = none) : 0 < v.toNat :=
  Nat.pos_of_ne_zero (not_of_checks (f := .divideByZero) h (by simp [State.ownConditions]))

theorem size_le_cap_of_checks {d a : Nat} (h : s.firstFault (.dcopy d a) = none) :
    (s.slot a).size ≤ (s.slot d).cap :=
  not_lt.mp (not_of_checks (f := .bufferTooSmall) h (by simp [State.ownConditions]))

theorem not_live_of_checks {d : Nat} (h : s.firstFault (.alloc d) = none) : (s.slot d).live = false := by
  have hc := (firstFault_eq_none_iff.mp h).2
  simpa [State.ownConditions, State.anyEmpty, Slot.live] using hc

theorem Slot.ok.live {capMax : Option Nat} (h : x.ok capMax) : x.live = true := by
  have hcap := isCapacity_ge h.capacity
  exact bne_iff_ne.mpr (by omega)

theorem Slot.wf.ok_of_live {capMax : Option Nat} (h : x.wf capMax) (hl : x.live = true) : x.ok capMax := by
  rcases h with rfl | h
  · cases hl
  · exact h

/-- In a ready state a LIVE slot has its invariants. -/
theorem State.ready.slot_ok (hs : s.ready) (h : s.hasLive n) : (s.slot n).ok s.params.capMax :=
  (hs.1.slotsWf hs.2 n h.1).ok_of_live h.2

theorem State.Inv.capMax_isCapacity (h : s.Inv) : ∀ c, s.params.capMax = some c → isCapacity c :=
  fun c hc => (h.params.cap c hc).1

theorem State.Inv.capMax_ge (h : s.Inv) : ∀ c, s.params.capMax = some c → 16 ≤ c :=
  fun c hc => isCapacity_ge (h.capMax_isCapacity c hc)

/-! ### Bounds on the new value -/

theorem pow_size_of_pos {size : Nat} (h : 1 ≤ size) : limbBase ^ size = limbBase ^ (size - 1) * limbBase := by
  rw [← pow_succ, Nat.sub_add_cancel h]

/-- A value below the guard, with one limb added to it, needs no limb above the guard (R66). -/
theorem Slot.ok.add_lt {capMax : Option Nat} (h : x.ok capMax) {v : Nat} (hv : v < limbBase) :
    x.val + v < limbBase ^ x.size := by
  have hx := h.val_lt
  rw [pow_size_of_pos h.sizePos]
  calc x.val + v < limbBase ^ (x.size - 1) + v := Nat.add_lt_add_right hx v
    _ ≤ limbBase ^ (x.size - 1) + limbBase ^ (x.size - 1) * v :=
        Nat.add_le_add_left (Nat.le_mul_of_pos_left v (Nat.zero_lt_of_lt hx)) _
    _ = limbBase ^ (x.size - 1) * (v + 1) := by ring
    _ ≤ limbBase ^ (x.size - 1) * limbBase := Nat.mul_le_mul_left _ hv

/-- Nor does it when multiplied by one limb (R66). -/
theorem Slot.ok.mul_lt {capMax : Option Nat} (h : x.ok capMax) {v : Nat} (hv : v < limbBase) :
    x.val * v < limbBase ^ x.size := by
  rw [pow_size_of_pos h.sizePos]
  exact Nat.mul_lt_mul'' h.val_lt hv

theorem two_pow_lt_limbBase {k : Nat} (h : k ≤ 31) : 2 ^ k < limbBase :=
  lt_of_le_of_lt (Nat.pow_le_pow_right two_pos h) (by norm_num)

/-- The sum of two values below a guard is below the guard of a slot of the size of R91. -/
theorem sum_lt_sumSize {m u v : Nat} (hm : 1 ≤ m) (hu : u < limbBase ^ (m - 1)) (hv : v < limbBase ^ (m - 1)) :
    u + v < limbBase ^ (sumSize m (u + v) - 1) := by
  unfold sumSize
  split
  · assumption
  · rw [Nat.add_sub_cancel, pow_size_of_pos hm]
    calc u + v < limbBase ^ (m - 1) * 2 := by omega
      _ ≤ limbBase ^ (m - 1) * limbBase := Nat.mul_le_mul_left _ (by norm_num)

/-! ### Contents that have the invariants -/

theorem fresh_ok {capMax : Option Nat} (h : ∀ c, capMax = some c → 16 ≤ c) : Slot.fresh.ok capMax := by
  have hf : fitsSize capMax (normalSize 0) := by
    rw [show normalSize 0 = 1 from rfl]
    exact fitsSize_one h
  rw [fresh_eq_normal]
  exact (normal_ok hf).1

theorem builtTo_ok {capMax : Option Nat} {size v : Nat} (h1 : 1 ≤ size) (hv : v < limbBase ^ (size - 1))
    (h : builtTo capMax size v = .ok x) : x.ok capMax := by
  by_cases hf : fitsSize capMax size
  · rw [builtTo_of_fits hf] at h
    cases h
    exact (built_ok h1 hf hv).1
  · rw [builtTo_of_not_fits hf] at h
    cases h

/-- The sum ADDV builds (R90, R91). -/
theorem addVector_ok {capMax : Option Nat} {a b : Slot} (ha : a.ok capMax) (hb : b.ok capMax)
    (hcm : ∀ c, capMax = some c → 16 ≤ c) (h : addVector capMax a b = .ok x) : x.ok capMax := by
  have hpos : 1 ≤ max a.size b.size := le_max_of_le_left ha.sizePos
  have hav := lt_of_lt_of_le ha.val_lt (limbBase_pow_le (Nat.sub_le_sub_right (le_max_left a.size b.size) 1))
  have hbv := lt_of_lt_of_le hb.val_lt (limbBase_pow_le (Nat.sub_le_sub_right (le_max_right a.size b.size) 1))
  have hsize : 1 ≤ sumSize (max a.size b.size) (a.val + b.val) := by
    unfold sumSize
    split
    · exact hpos
    · exact Nat.le_add_left 1 _
  rw [addVector_eq ha hb hcm] at h
  exact builtTo_ok hsize (sum_lt_sumSize hpos hav hbv) h

/-- The number FROMDEC builds (R105, R109). -/
theorem parseDigits_ok {capMax : Option Nat} {bs : List Byte} (hcm : ∀ c, capMax = some c → 16 ≤ c)
    (h : parseDigits capMax bs Slot.fresh = .ok x) : x.ok capMax := by
  rw [parseDigits_fresh hcm] at h
  exact builtTo_ok (normalSize_pos _) (lt_pow_limbCount _) h

/-- A slot that grows in place loses neither size nor capacity (R82). -/
theorem grownTo_le {capMax : Option Nat} {y : Slot} {v : Nat} (h : x.grownTo capMax v = .ok y) :
    x.size ≤ y.size ∧ x.cap ≤ y.cap := by
  unfold Slot.grownTo at h
  split at h
  · cases h
    exact ⟨le_rfl, le_rfl⟩
  · split at h
    · cases h
      exact ⟨Nat.le_succ _, le_rfl⟩
    · split at h
      · cases h
      · cases h
        exact ⟨Nat.le_succ _, Nat.le_mul_of_pos_left _ two_pos⟩

theorem shrunkBy_size (x : Slot) (k : Nat) :
    (x.shrunkBy k).size = x.size ∨ (2 < x.size ∧ (x.shrunkBy k).size = x.size - 1) := by
  unfold Slot.shrunkBy
  split
  · rename_i hc
    exact Or.inr ⟨hc.2.1, rfl⟩
  · exact Or.inl rfl

/-! ### The destination of a command that succeeds -/

/-- What a command that succeeds makes of its destination, in a ready state. -/
inductive Rewritten (s : State) : Instr → Nat → Slot → Prop where
  /-- ALLOC: an EMPTY slot becomes a fresh zero (R63) -/
  | alloc (d : Nat) (he : (s.slot d).live = false) : Rewritten s (.alloc d) d Slot.fresh
  /-- RELEASE (R65) -/
  | release (d : Nat) : Rewritten s (.release d) d Slot.empty
  /-- RESET, DIVS, ADDV, FROMDEC: a content built anew; only FROMDEC takes an EMPTY slot (R64, R77, R90, R105) -/
  | rebuilt {i : Instr} {d : Nat} {x : Slot} (hr : i.restarts = true)
      (hl : (s.slot d).live = true ∨ ∃ len, i = .fromdec d len) (hx : x.ok s.params.capMax) : Rewritten s i d x
  /-- ADDS, MULS, SHL: in place, with growth (R82, R95) -/
  | grown {i : Instr} {d v : Nat} {x : Slot} (hl : (s.slot d).ok s.params.capMax)
      (hv : v < limbBase ^ (s.slot d).size) (hx : (s.slot d).grownTo s.params.capMax v = .ok x) : Rewritten s i d x
  /-- SHR: in place, with one limb of shrink at most (R97) -/
  | shrunk {d : Nat} (k : Imm) (hl : (s.slot d).ok s.params.capMax) :
      Rewritten s (.shr d k) d ((s.slot d).shrunkBy k.toNat)
  /-- DCOPY: within the capacity (R116) -/
  | copied {d a : Nat} {x : Slot} (hl : (s.slot d).ok s.params.capMax) (hc : x.cap = (s.slot d).cap)
      (hx : x.ok s.params.capMax) : Rewritten s (.dcopy d a) d x

/-- Each command with a destination, by the law of its arithmetic. -/
theorem result_rewritten {d : Nat} (hs : s.ready) (h0 : s.firstFault i = none) (hd : i.dest = some d)
    (hx : (s.result i).content = some x) : Rewritten s i d x := by
  have hlive := operands_live h0
  have hcm := hs.1.capMax_ge
  cases i with
  | alloc =>
    cases hd
    cases hx
    exact .alloc d (not_live_of_checks h0)
  | reset =>
    cases hd
    cases hx
    have hd := hlive nofun nofun d List.mem_cons_self
    exact .rebuilt rfl (Or.inl hd.2) (fresh_ok hcm)
  | release =>
    cases hd
    cases hx
    exact .release d
  | adds _ v =>
    cases hd
    have hok := hs.slot_ok (hlive nofun nofun d List.mem_cons_self)
    have hr := (addScalar_eq hok v.isLt).symm.trans (content_slot_eq_some.mp hx)
    exact .grown hok (hok.add_lt v.isLt) hr
  | muls _ v =>
    cases hd
    have hok := hs.slot_ok (hlive nofun nofun d List.mem_cons_self)
    have hr := (mulScalar_eq hok v.isLt).symm.trans (content_slot_eq_some.mp hx)
    exact .grown hok (hok.mul_lt v.isLt) hr
  | divs _ a v =>
    cases hd
    have hd := hlive nofun nofun d List.mem_cons_self
    have hok := hs.slot_ok (hlive nofun nofun a (List.mem_cons_of_mem _ List.mem_cons_self))
    rw [State.result, divScalar_eq hok hs.1.capMax_isCapacity (divisor_pos_of_checks h0)] at hx
    cases hx
    exact .rebuilt rfl (Or.inl hd.2) (normal_ok (quotient_fits hok hs.1.capMax_isCapacity _)).1
  | addv _ a b =>
    cases hd
    have hd := hlive nofun nofun d List.mem_cons_self
    have ha := hs.slot_ok (hlive nofun nofun a (by simp [Instr.slotFields]))
    have hb := hs.slot_ok (hlive nofun nofun b (by simp [Instr.slotFields]))
    exact .rebuilt rfl (Or.inl hd.2) (addVector_ok ha hb hcm (content_slot_eq_some.mp hx))
  | shl _ k =>
    cases hd
    have hok := hs.slot_ok (hlive nofun nofun d List.mem_cons_self)
    have hk := shift_le_of_checks (k := k) h0 (by simp [State.ownConditions])
    have hr := (shiftLeft_eq hok hk).symm.trans (content_slot_eq_some.mp hx)
    exact .grown hok (hok.mul_lt (two_pow_lt_limbBase hk)) hr
  | shr _ k =>
    cases hd
    have hok := hs.slot_ok (hlive nofun nofun d List.mem_cons_self)
    have hk := shift_le_of_checks (k := k) h0 (by simp [State.ownConditions])
    rw [State.result, shiftRight_eq hok hk] at hx
    cases hx
    exact .shrunk k hok
  | fromdec _ len =>
    cases hd
    exact .rebuilt rfl (Or.inr ⟨len, rfl⟩) (parseDigits_ok hcm (content_slot_eq_some.mp hx))
  | dcopy _ a =>
    cases hd
    have hok := hs.slot_ok (hlive nofun nofun d List.mem_cons_self)
    have ha := hs.slot_ok (hlive nofun nofun a (List.mem_cons_of_mem _ List.mem_cons_self))
    cases hx
    split
    · exact .copied hok rfl hok
    · exact .copied hok rfl (copyInto_ok hok ha (size_le_cap_of_checks h0)).1
  | _ => cases hd

/-- A result for a slot fails with AllocationFailure only (R127). -/
theorem result_failure_of_dest {d : Nat} {f : ErrCode} (hd : i.dest = some d) (h : (s.result i).failure = some f) :
    f = .allocationFailure := by
  cases i with
  | adds d v => exact addScalar_error (faultOf_eq_some.mp h)
  | muls d m => exact mulScalar_error (faultOf_eq_some.mp h)
  | divs d a v => exact divScalar_error (faultOf_eq_some.mp h)
  | addv d a b => exact addVector_error (faultOf_eq_some.mp h)
  | shl d k => exact shiftLeft_error (faultOf_eq_some.mp h)
  | fromdec d len => exact parseDigits_error _ (faultOf_eq_some.mp h)
  | todec a c => cases hd
  | _ => cases h

/-- ALL THAT BECOMES OF A SLOT under a command that does not end in HALT: it stays, or it is the destination,
rewritten. -/
theorem exec_slot_cases (hs : s.ready) (h : exec i s = .next t) (ht : t.halt = false) (n : Nat) :
    t.slot n = s.slot n ∨ (i.dest = some n ∧ Rewritten s i n (t.slot n)) := by
  by_cases hd : i.dest = some n
  · rcases exec_unhalted_cases hs.2 h with ⟨f, -, rfl⟩ | ⟨h0, rfl⟩
    · exact Or.inl (takeFault_slot s f n)
    · have hlen : n < s.slots.length := by
        rw [hs.1.slotCount]
        exact (firstFault_eq_none_iff.mp h0).1 n (dest_mem_slotFields hd)
      have hok : (s.result i).failure = none := by
        cases hf : (s.result i).failure with
        | none => rfl
        | some f =>
          rw [apply_halt, hf, result_failure_of_dest hd hf] at ht
          simp [ErrCode.fatal] at ht
      exact Or.inr ⟨hd, result_rewritten hs h0 hd (content_eq_slot (by rwa [result_dest]) hok hlen)⟩
  · exact Or.inl (exec_slot_ne h hd)

/-- A rewritten slot is LIVE with its invariants, but for RELEASE (R12). -/
theorem Rewritten.ok_or_release (hs : s.Inv) (h : Rewritten s i n x) :
    x.ok s.params.capMax ∨ (i = .release n ∧ x = Slot.empty) := by
  cases h with
  | alloc _ he => exact Or.inl (fresh_ok hs.capMax_ge)
  | release => exact Or.inr ⟨rfl, rfl⟩
  | rebuilt hr hl hx => exact Or.inl hx
  | grown hl hv hx => exact Or.inl (Slot.grownTo_ok hl.shape hv hx).1
  | shrunk k hl => exact Or.inl (shrunkBy_ok hl _).1
  | copied hl hc hx => exact Or.inl hx

theorem Rewritten.wf (hs : s.Inv) (h : Rewritten s i n x) : x.wf s.params.capMax := by
  rcases h.ok_or_release hs with hx | ⟨-, rfl⟩
  · exact Or.inr hx
  · exact Or.inl rfl

/-- Only ALLOC and FROMDEC fill an EMPTY slot (R68). -/
theorem Rewritten.of_empty (h : Rewritten s i n x) (he : (s.slot n).live = false) (hx : x.live = true) :
    i = .alloc n ∨ ∃ len, i = .fromdec n len := by
  cases h with
  | alloc _ _ => exact Or.inl rfl
  | release => cases hx
  | rebuilt hr hl _ => exact Or.inr (hl.resolve_left (Bool.eq_false_iff.mp he))
  | grown hl hv _ => exact absurd hl.live (Bool.eq_false_iff.mp he)
  | shrunk k hl => exact absurd hl.live (Bool.eq_false_iff.mp he)
  | copied hl hc _ => exact absurd hl.live (Bool.eq_false_iff.mp he)

/-- A capacity falls only by a restart (R17). -/
theorem Rewritten.restarts_of_cap_lt (h : Rewritten s i n x) (hl : (s.slot n).live = true) (hx : x.live = true)
    (hlt : x.cap < (s.slot n).cap) : i.restarts = true := by
  cases h with
  | alloc _ he => exact absurd hl (Bool.eq_false_iff.mp he)
  | release => cases hx
  | rebuilt hr _ _ => exact hr
  | grown _ _ hg => exact absurd hlt (Nat.not_lt.mpr (grownTo_le hg).2)
  | shrunk k _ => exact absurd hlt (lt_irrefl _)
  | copied _ hc _ => exact absurd hc hlt.ne

/-- A size falls only by a restart, a copy, or one limb of shrink (R16). -/
theorem Rewritten.of_size_lt (h : Rewritten s i n x) (hl : (s.slot n).live = true) (hx : x.live = true)
    (hlt : x.size < (s.slot n).size) :
    i.restarts = true ∨ (∃ a, i = .dcopy n a) ∨
      ∃ k, i = .shr n k ∧ x.size + 1 = (s.slot n).size ∧ 2 ≤ x.size := by
  cases h with
  | alloc _ he => exact absurd hl (Bool.eq_false_iff.mp he)
  | release => cases hx
  | rebuilt hr _ _ => exact Or.inl hr
  | grown _ _ hg => exact absurd hlt (Nat.not_lt.mpr (grownTo_le hg).1)
  | shrunk k _ =>
    rcases shrunkBy_size (s.slot n) k.toNat with he | ⟨h2, he⟩
    · exact absurd he hlt.ne
    · exact Or.inr (Or.inr ⟨k, rfl, by omega, by omega⟩)
  | copied _ _ _ => exact Or.inr (Or.inl ⟨_, rfl⟩)

end Sys2Proof.Machine
end

section
/-! PROOFS. The invariants under a command, a host action and a step, and what follows from them at a command boundary
(10_state.md R12 to R17; 40_limb_store.md R68; 70_reset_and_hazards.md R150, R152). -/

namespace Sys2Proof.Machine

variable {s t : State} {i : Instr} {n : Nat}

/-! ### The invariants under a command -/

theorem Effect.frame (h : Effect s i t) :
    t.slots.length = s.slots.length ∧ t.host = s.host ∧ t.hostGot = s.hostGot := by
  cases h <;> simp

theorem Effect.cbufWf (h : Effect s i t) (hs : s.cbuf.wf) : t.cbuf.wf := by
  cases h with
  | string ds v hl => exact writeString_wf ds hs
  | spoiled n hl => exact spoilCbuf_wf n hs
  | _ => exact hs

theorem Effect.cbufBound (h : Effect s i t) (hs : ∀ c ∈ s.cbuf, c.1 < s.params.cbufBytes) :
    ∀ c ∈ t.cbuf, c.1 < s.params.cbufBytes := by
  cases h with
  | string ds v hl => exact Memory.writeBytes_bound ds hs (by rwa [Nat.zero_add])
  | spoiled n hl => exact Memory.writeBytes_bound _ hs (by simpa using hl)
  | _ => exact hs

theorem Effect.drawn (h : Effect s i t) (hs : s.cbufDraw < s.draws) : t.cbufDraw < t.draws := by
  cases h with
  | fatal d hd hn => exact Nat.lt_succ_of_lt hs
  | spoiled n hl => exact Nat.lt_succ_of_lt hs
  | _ => exact hs

/-- A command keeps the invariants: of the slots by `Rewritten`, of the rest by `Effect`. -/
theorem exec_inv (hs : s.ready) (h : exec i s = .next t) : t.Inv := by
  obtain ⟨hinv, hh⟩ := hs
  have he := exec_effect hh h
  have hp := exec_params_eq h
  exact {
    params := hp ▸ hinv.params
    slotCount := by rw [he.frame.1, hp, hinv.slotCount]
    slotsWf := fun ht n hn => by
      rw [hp] at hn ⊢
      rcases exec_slot_cases ⟨hinv, hh⟩ h ht n with hsame | ⟨-, hr⟩
      · rw [hsame]
        exact hinv.slotsWf hh n hn
      · exact hr.wf hinv
    halted := exec_halt_iff hh h
    idle := exec_busy hh h
    cbufWf := he.cbufWf hinv.cbufWf
    cbufBound := hp ▸ he.cbufBound hinv.cbufBound
    drawn := he.drawn hinv.drawn }

/-! ### The invariants under a host action -/

/-- The four ways a host action is answered: reset, a presented word, a read, a write of one byte (R152). -/
theorem hostAct_next_cases {act : HostAction} (h : hostAct act s = .next t) :
    (act = .assertReset ∧ t = s.hostReset) ∨
    (∃ w, act = .present w ∧ presentWord s w = .next t) ∨
    (∃ v, t = s.gave v) ∨
    ∃ a b, a < s.params.cbufBytes ∧ t = s.writeCbuf a b := by
  cases act with
  | assertReset =>
    cases h
    exact Or.inl ⟨rfl, rfl⟩
  | present w => exact Or.inr (Or.inl ⟨w, rfl, (whenIdle_eq_next.mp h).2⟩)
  | readStatus =>
    cases h
    exact Or.inr (Or.inr (Or.inl ⟨_, rfl⟩))
  | readRes0 =>
    obtain ⟨-, ⟨⟩⟩ := whenIdle_eq_next.mp h
    exact Or.inr (Or.inr (Or.inl ⟨_, rfl⟩))
  | readRes1 =>
    obtain ⟨-, ⟨⟩⟩ := whenIdle_eq_next.mp h
    exact Or.inr (Or.inr (Or.inl ⟨_, rfl⟩))
  | readCbuf a =>
    obtain ⟨-, hr⟩ := whenIdle_eq_next.mp h
    obtain ⟨-, ⟨⟩⟩ := whenCbufByte_eq_next.mp hr
    exact Or.inr (Or.inr (Or.inl ⟨_, rfl⟩))
  | writeCbuf a b =>
    obtain ⟨-, hw⟩ := whenIdle_eq_next.mp h
    obtain ⟨ha, ⟨⟩⟩ := whenCbufByte_eq_next.mp hw
    exact Or.inr (Or.inr (Or.inr ⟨a, b, ha, rfl⟩))

theorem State.Inv.withHost (h : s.Inv) (acts : List HostAction) : (s.withHost acts).Inv := { h with }

theorem State.Inv.gave (h : s.Inv) (v : HostRead) : (s.gave v).Inv := { h with }

theorem State.Inv.writeCbuf (h : s.Inv) {a : Nat} (ha : a < s.params.cbufBytes) (b : Byte) : (s.writeCbuf a b).Inv :=
  { h with
    cbufWf := writeCbuf_wf a b h.cbufWf
    cbufBound := Memory.write_bound b h.cbufBound ha }

theorem State.Inv.hostReset (h : s.Inv) : s.hostReset.Inv :=
  { resetWith_inv h.params with
    drawn := Nat.lt_succ_self _ }

theorem State.Inv.takeFault (h : s.Inv) (hh : s.halt = false) (f : ErrCode) : (s.takeFault f).Inv :=
  { h with
    slotsWf := fun _ => h.slotsWf hh
    halted := by simp [hh, fatal_iff]
    idle := rfl }

theorem presentWord_inv {w : CmdWord} (hs : s.Inv) (h : presentWord s w = .next t) : t.Inv := by
  rcases presentWord_next_cases h with ⟨-, rfl⟩ | ⟨hh, -, rfl⟩ | ⟨hh, i, -, he⟩
  · exact hs
  · exact hs.takeFault hh _
  · exact exec_inv ⟨hs, hh⟩ he

theorem hostAct_inv {act : HostAction} (hs : s.Inv) (h : hostAct act s = .next t) : t.Inv := by
  rcases hostAct_next_cases h with ⟨-, rfl⟩ | ⟨w, -, hw⟩ | ⟨v, rfl⟩ | ⟨a, b, ha, rfl⟩
  · exact hs.hostReset
  · exact presentWord_inv hs hw
  · exact hs.gave v
  · exact hs.writeCbuf ha b

/-- Settles O41: an idle step keeps the state, and every host action keeps the invariants. -/
theorem stepKeepsInv : Obligations.StepKeepsInv := by
  intro s t hs h
  rcases step_next_cases h with ⟨-, rfl⟩ | ⟨act, rest, -, ha⟩
  · exact hs
  · exact hostAct_inv (hs.withHost rest) ha

/-- Settles O43: the slots of the state after the step have their invariants, by O41. -/
theorem guardAndUpperLimbsAreZero : Obligations.GuardAndUpperLimbsAreZero := by
  intro s t hs h ht n hn
  have hok := State.ready.slot_ok ⟨stepKeepsInv s t hs h, ht⟩ hn
  exact ⟨hok.zeroAbove _ le_rfl, fun j hj _ => hok.zeroAbove j hj⟩

/-! ### HALT, life states, sizes and capacities -/

/-- Settles O44: the host's actions but reset are a word, which a halted block drops, a read, and a write of CBUF. -/
theorem onlyResetLeavesHalt : Obligations.OnlyResetLeavesHalt := by
  intro s t hh hr h
  rcases step_next_cases h with ⟨-, rfl⟩ | ⟨act, rest, hact, ha⟩
  · exact ⟨hh, rfl, rfl, rfl, rfl⟩
  · rcases hostAct_next_cases ha with ⟨rfl, -⟩ | ⟨w, -, hw⟩ | ⟨v, rfl⟩ | ⟨a, b, -, rfl⟩
    · exact absurd hact (hr rest)
    · have hh' : (s.withHost rest).halt = true := hh
      rw [presentWord_halted hh'] at hw
      cases hw
      exact ⟨hh, rfl, rfl, rfl, rfl⟩
    · exact ⟨hh, rfl, rfl, rfl, rfl⟩
    · exact ⟨hh, rfl, rfl, rfl, rfl⟩

/-- What a step does to the slots: nothing, a reset, or a command (R150, R152). -/
theorem step_slots_cases (h : step s = .next t) :
    t.slots = s.slots ∨
    (∃ rest, s.host = .assertReset :: rest ∧ ∀ n, t.slot n = Slot.empty) ∨
    ∃ w rest i, s.host = .present w :: rest ∧ s.halt = false ∧ decode w = .ok i ∧
      exec i (s.withHost rest) = .next t := by
  rcases step_next_cases h with ⟨-, rfl⟩ | ⟨act, rest, hact, ha⟩
  · exact Or.inl rfl
  · rcases hostAct_next_cases ha with ⟨rfl, rfl⟩ | ⟨w, rfl, hw⟩ | ⟨v, rfl⟩ | ⟨a, b, -, rfl⟩
    · exact Or.inr (Or.inl ⟨rest, hact, hostReset_slot _⟩)
    · rcases presentWord_next_cases hw with ⟨-, rfl⟩ | ⟨-, -, rfl⟩ | ⟨hh, i, hd, he⟩
      · exact Or.inl rfl
      · exact Or.inl rfl
      · exact Or.inr (Or.inr ⟨w, rest, i, hact, hh, hd, he⟩)
    · exact Or.inl rfl
    · exact Or.inl rfl

/-- Settles O45, by what a step can do to the slots, and a command to its destination. -/
theorem lifeStateChanges : Obligations.LifeStateChanges := by
  intro s t n hs h ht hn
  rcases step_slots_cases h with hsame | ⟨rest, hhost, hreset⟩ | ⟨w, rest, i, hhost, hh, hd, he⟩
  · rw [slot_congr hsame n]
    exact ⟨fun h1 h2 => Bool.noConfusion (h1.symm.trans h2), fun h1 h2 => Bool.noConfusion (h1.symm.trans h2)⟩
  · rw [hreset n]
    exact ⟨fun _ _ => Or.inl ⟨rest, hhost⟩, nofun⟩
  · have hinv := hs.withHost rest
    rcases exec_slot_cases ⟨hinv, hh⟩ he ht n with hsame | ⟨-, hr⟩
    · rw [hsame, withHost_slot]
      exact ⟨fun h1 h2 => Bool.noConfusion (h1.symm.trans h2), fun h1 h2 => Bool.noConfusion (h1.symm.trans h2)⟩
    · refine ⟨fun _ h2 => ?_, fun h1 h2 _ => ⟨w, rest, hhost, ?_⟩⟩
      · rcases hr.ok_or_release hinv with hok | ⟨rfl, -⟩
        · exact absurd hok.live (Bool.eq_false_iff.mp h2)
        · exact Or.inr ⟨w, rest, hhost, hd⟩
      · rcases hr.of_empty h1 h2 with rfl | ⟨len, rfl⟩
        · exact Or.inl hd
        · exact Or.inr ⟨len, hd⟩

/-- Settles O46: a slot that is no destination keeps both, and a rewritten one loses them only as `Rewritten` allows. -/
theorem sizeAndCapacityAreKept : Obligations.SizeAndCapacityAreKept := by
  intro s t i n hs h ht hn hl
  rcases exec_slot_cases hs h ht n with hsame | ⟨hd, hr⟩
  · rw [hsame]
    exact ⟨fun hlt => absurd hlt (lt_irrefl _), fun hlt => absurd hlt (lt_irrefl _)⟩
  · exact ⟨fun hlt => ⟨hd, hr.restarts_of_cap_lt hn.2 hl hlt⟩, fun hlt => ⟨hd, hr.of_size_lt hn.2 hl hlt⟩⟩

end Sys2Proof.Machine
end

section
/-! PROOFS. The frames of a command: slots, result registers, CBUF and STATUS (10_state.md R18 to R22; 60_exceptions.md
R125 to R133). -/

namespace Sys2Proof.Machine

variable {s : State} {i : Instr}

/-- Settles O36: the slots by the writeback's destination, the rest by `Effect`. -/
theorem slotFrame : Obligations.SlotFrame := by
  intro s t i h
  refine ⟨fun n hd => exec_slot_ne h hd, ?_⟩
  cases hh : s.halt with
  | true =>
    rw [exec_halted i hh] at h
    cases h
    exact ⟨rfl, rfl, rfl, rfl⟩
  | false =>
    obtain ⟨hl, hhost, hgot⟩ := (exec_effect hh h).frame
    exact ⟨hl, exec_params_eq h, hhost, hgot⟩

/-- Settles O37: a dropped word and a fault write no result register, a writeback only those it names. -/
theorem resultRegisterFrame : Obligations.ResultRegisterFrame := by
  intro s t i h
  rcases exec_next_cases h with ⟨-, rfl⟩ | ⟨-, f, -, rfl⟩ | ⟨-, -, rfl⟩
  · exact ⟨fun _ => rfl, fun _ => rfl, fun _ _ => ⟨rfl, rfl⟩⟩
  · exact ⟨fun _ => rfl, fun _ => rfl, fun _ _ => ⟨rfl, rfl⟩⟩
  · exact ⟨fun h0 => apply_res0 (by rwa [result_givesRes0]), fun h1 => apply_res1 (by rwa [result_givesRes1]),
      fun _ he => apply_results_of_failure (by rwa [apply_err] at he)⟩

/-- TODEC of a LIVE slot: the decimal string, or BufferTooSmall (R106). -/
theorem result_todec (hs : s.ready) {a : Nat} (ha : s.hasLive a) (c : Imm) :
    s.result (.todec a c) = .string c.toNat
      (if (decimalString (s.slot a).val).length ≤ c.toNat then .ok (decimalString (s.slot a).val)
        else .error .bufferTooSmall) := by
  rw [State.result, renderDigits_eq _ (hs.slot_ok ha).unbounded, List.append_nil]

/-- Settles O38: only a string is written to CBUF, and TODEC's is the decimal string or `cap_bytes` free bytes. -/
theorem cbufFrame : Obligations.CbufFrame := by
  intro s t i hs h
  rcases exec_unhalted_cases hs.2 h with ⟨f, -, rfl⟩ | ⟨h0, rfl⟩
  · exact ⟨fun _ _ => rfl, fun _ _ _ => ⟨fun _ _ _ => rfl, fun _ _ _ => rfl, fun _ _ _ => rfl⟩⟩
  · refine ⟨fun hi => apply_cbufByte (result_ne_string hi), ?_⟩
    rintro a c rfl
    rw [result_todec hs (operands_live h0 nofun nofun a List.mem_cons_self) c]
    split
    · exact ⟨fun _ p hp => writeString_cbufByte_outside s _ hp, nofun, fun he => absurd rfl he⟩
    · exact ⟨nofun, fun _ p hp => (spoilCbuf_cbufByte s c.toNat p).trans (if_neg (Nat.not_lt.mpr hp)),
        fun _ he => absurd rfl he⟩

/-! ### STATUS after a command -/

theorem ownConditions_ne_allocationFailure : ∀ c ∈ s.ownConditions i, c.2 ≠ .allocationFailure := by
  cases i <;> simp [State.ownConditions]

/-- No fault that is decided before any state is written is fatal (R126, R128). -/
theorem firstFault_ne_allocationFailure : s.firstFault i ≠ some .allocationFailure := by
  intro h
  obtain ⟨c, hfind, hc⟩ := Option.map_eq_some_iff.mp h
  rcases List.mem_cons.mp (List.mem_of_find?_eq_some hfind) with rfl | hmem
  · cases hc
  · exact ownConditions_ne_allocationFailure c hmem hc

/-- A command that cannot grow a slot reports nothing once its checks have passed, but for TODEC; DIVS because a quotient
never outgrows its dividend (R77, R127). -/
theorem result_failure_eq_none (hs : s.ready) (h0 : s.firstFault i = none) (hg : i.grows = false)
    (hi : ∀ a c, i ≠ .todec a c) : (s.result i).failure = none := by
  cases i with
  | divs d a v =>
    have hok := hs.slot_ok (operands_live h0 nofun nofun a (List.mem_cons_of_mem _ List.mem_cons_self))
    rw [State.result, divScalar_eq hok hs.1.capMax_isCapacity (divisor_pos_of_checks h0)]
    rfl
  | todec a c => exact absurd rfl (hi a c)
  | adds | muls | addv | shl | fromdec => cases hg
  | _ => rfl

/-- Only a command that grows a slot can end in the fatal fault (R127). -/
theorem result_failure_ne_allocationFailure (hs : s.ready) (h0 : s.firstFault i = none) (hg : i.grows = false) :
    (s.result i).failure ≠ some .allocationFailure := by
  by_cases hi : ∃ a c, i = .todec a c
  · obtain ⟨a, c, rfl⟩ := hi
    rw [result_todec hs (operands_live h0 nofun nofun a List.mem_cons_self)]
    split <;> exact nofun
  · rw [result_failure_eq_none hs h0 hg fun a c e => hi ⟨a, c, e⟩]
    exact nofun

/-- Settles O39: the report is the first fault, which is never fatal, or else the writeback's. -/
theorem statusFrame : Obligations.StatusFrame := by
  intro s t i hs h
  have herr := exec_err hs.2 h
  have hhalt := exec_halt_iff hs.2 h
  refine ⟨exec_busy hs.2 h, hhalt, fun hg => Bool.eq_false_iff.mpr fun ht => ?_, fun h0 hg hi => ?_⟩
  · rw [hhalt, herr, orElse_eq_some] at ht
    rcases ht with hf | ⟨h0, hf⟩
    · exact firstFault_ne_allocationFailure hf
    · exact result_failure_ne_allocationFailure hs h0 hg hf
  · rw [herr, h0, result_failure_eq_none hs h0 hg hi]
    rfl

end Sys2Proof.Machine
end

section
/-! PROOFS. What a command does not read: slots it does not name, and earlier results (10_state.md R18, R23;
46_control_memory_system.md R122). -/

namespace Sys2Proof.Machine

variable {s s' t : State} {i : Instr} {w : Writeback} {n : Nat} {x : Slot}

/-! ### All a command reads -/

/-- Two states that differ in nothing the command reads. -/
structure SameOperands (i : Instr) (s s' : State) : Prop where
  params : s'.params = s.params
  halt : s'.halt = s.halt
  /-- the slots its fields name -/
  slots : ∀ m ∈ i.slotFields, s'.slot m = s.slot m
  /-- the string of FROMDEC (R105) -/
  bytes : ∀ d len, i = .fromdec d len → ∀ p < len.toNat, s'.cbufByte p = s.cbufByte p

theorem anyEmpty_congr {ms : List Nat} (h : ∀ m ∈ ms, s'.slot m = s.slot m) : s'.anyEmpty ms = s.anyEmpty ms := by
  rw [Bool.eq_iff_iff, State.anyEmpty, State.anyEmpty, List.any_eq_true, List.any_eq_true]
  exact exists_congr fun m => and_congr_right fun hm => by rw [h m hm]

theorem anyNotDigit_congr {len : Nat} (h : ∀ p < len, s'.cbufByte p = s.cbufByte p) :
    ((List.range len).any fun p => notDigit (s'.cbufByte p)) = (List.range len).any fun p => notDigit (s.cbufByte p) := by
  rw [Bool.eq_iff_iff, List.any_eq_true, List.any_eq_true]
  exact exists_congr fun p => and_congr_right fun hp => by rw [h p (List.mem_range.mp hp)]

theorem cbufString_congr {len : Nat} (h : ∀ p < len, s'.cbufByte p = s.cbufByte p) :
    s'.cbufString len = s.cbufString len :=
  List.map_congr_left fun p hp => h p (List.mem_range.mp hp)

theorem ownConditions_congr (h : SameOperands i s s') : s'.ownConditions i = s.ownConditions i := by
  have hs := h.slots
  have he := anyEmpty_congr hs
  cases i with
  | fromdec d len => simp only [State.ownConditions, h.params, anyNotDigit_congr (h.bytes d len rfl)]
  | _ => simp_all [State.ownConditions, Instr.slotFields, h.params]

theorem firstFault_congr (h : SameOperands i s s') : s'.firstFault i = s.firstFault i := by
  rw [State.firstFault, State.firstFault, ownConditions_congr h, h.params]

theorem result_congr (h : SameOperands i s s') : s'.result i = s.result i := by
  have hs := h.slots
  cases i with
  | fromdec d len => rw [State.result, State.result, h.params, cbufString_congr (h.bytes d len rfl)]
  | _ => simp_all [State.result, Instr.slotFields, h.params]

theorem refuses_congr (h : SameOperands i s s') : s'.refuses i = s.refuses i := by
  cases i with
  | rdsz a => rw [State.refuses, State.refuses, h.halt, firstFault_congr h, h.slots a List.mem_cons_self]
  | _ => rfl

/-- On a state with the same operands a command takes the same course: the same fault, or the same result. -/
theorem exec_congr (h : SameOperands i s s') (ht : exec i s = .next t) :
    exec i s' = .next (s'.command (s.firstFault i) ((s.result i).apply s')) := by
  rw [exec_eq] at ht
  split at ht
  · cases ht
  · rename_i hr
    rw [exec_eq, refuses_congr h, if_neg hr, firstFault_congr h, result_congr h]

/-! ### Another content in a slot the command does not name -/

theorem setSlot_comm {d : Nat} (h : n ≠ d) (x y : Slot) :
    (s.setSlot n x).setSlot d y = (s.setSlot d y).setSlot n x := by
  simp only [State.setSlot, List.set_comm _ _ h]

theorem spoilSlot_setSlot {d : Nat} (h : n ≠ d) : (s.setSlot n x).spoilSlot d = (s.spoilSlot d).setSlot n x := by
  simp only [State.spoilSlot, State.setSlot, List.set_comm _ _ h]

theorem command_setSlot (c : Option ErrCode) (e : State) :
    (s.setSlot n x).command c (e.setSlot n x) = (s.command c e).setSlot n x := by
  unfold State.command
  rw [setSlot_halt]
  split
  · rfl
  · cases c <;> rfl

theorem apply_setSlot (h : w.dest ≠ some n) : w.apply (s.setSlot n x) = (w.apply s).setSlot n x := by
  cases w with
  | slot d r =>
    have hn : n ≠ d := fun e => h (congrArg some e.symm)
    cases r with
    | ok y => exact congrArg State.complete (setSlot_comm hn x y)
    | error f => exact congrArg (fun u => u.takeFault f) (spoilSlot_setSlot hn)
  | quotient d r =>
    have hn : n ≠ d := fun e => h (congrArg some e.symm)
    cases r with
    | ok p => exact congrArg (fun u => (u.setRes0 (BitVec.ofNat 32 p.2)).complete) (setSlot_comm hn x p.1)
    | error f => exact congrArg (fun u => u.takeFault f) (spoilSlot_setSlot hn)
  | string c r => cases r <;> rfl
  | res0 v => rfl
  | res01 v v' => rfl

/-- Settles O54: the operands are the same, and the writeback does not touch the slot. -/
theorem unnamedSlotsAreNeverRead : Obligations.UnnamedSlotsAreNeverRead := by
  intro s t i n x hn h
  have hsame : SameOperands i s (s.setSlot n x) :=
    ⟨rfl, rfl, fun m hm => setSlot_slot_ne s x fun e => hn (e ▸ hm), fun _ _ _ _ _ => rfl⟩
  have hd : (s.result i).dest ≠ some n := by
    rw [result_dest]
    exact fun e => hn (dest_mem_slotFields e)
  rw [exec_congr hsame h, apply_setSlot hd, command_setSlot, ← exec_next h]

/-! ### Other values left in RES0, RES1 and ERR -/

/-- The state with other values in RES0, RES1 and ERR. -/
def State.withEarlier (s : State) (v v' : BitVec 32) (e : Option ErrCode) : State :=
  { s with res0 := v, res1 := v', err := e }

/-- What a writeback makes does not depend on them, but for a register it does not write. -/
theorem apply_withEarlier (v v' : BitVec 32) (e : Option ErrCode) :
    (w.apply (s.withEarlier v v' e)).slots = (w.apply s).slots ∧
    (w.apply (s.withEarlier v v' e)).cbuf = (w.apply s).cbuf ∧
    (w.apply (s.withEarlier v v' e)).err = (w.apply s).err ∧
    (w.apply (s.withEarlier v v' e)).halt = (w.apply s).halt ∧
    (w.givesRes0 = true → (w.apply s).err = none → (w.apply (s.withEarlier v v' e)).res0 = (w.apply s).res0) ∧
    (w.givesRes1 = true → (w.apply s).err = none → (w.apply (s.withEarlier v v' e)).res1 = (w.apply s).res1) := by
  cases w with
  | slot d r => cases r <;> exact ⟨rfl, rfl, rfl, rfl, nofun, nofun⟩
  | quotient d r =>
    cases r with
    | ok p => exact ⟨rfl, rfl, rfl, rfl, fun _ _ => rfl, nofun⟩
    | error f => exact ⟨rfl, rfl, rfl, rfl, nofun, nofun⟩
  | string c r =>
    cases r with
    | ok ds => exact ⟨rfl, rfl, rfl, rfl, fun _ _ => rfl, nofun⟩
    | error f => exact ⟨rfl, rfl, rfl, rfl, nofun, nofun⟩
  | res0 u => exact ⟨rfl, rfl, rfl, rfl, fun _ _ => rfl, nofun⟩
  | res01 u u' => exact ⟨rfl, rfl, rfl, rfl, fun _ _ => rfl, fun _ _ => rfl⟩

/-- Settles O55: the operands are the same, so the two runs take the same fault or the same writeback. -/
theorem earlierResultsAreNeverRead : Obligations.EarlierResultsAreNeverRead := by
  intro s t i v v' e hh h
  have hsame : SameOperands i s (s.withEarlier v v' e) := ⟨rfl, rfl, fun _ _ => rfl, fun _ _ _ _ _ => rfl⟩
  have hh' : (s.withEarlier v v' e).halt = false := hh
  change ∃ u, exec i (s.withEarlier v v' e) = .next u ∧ _
  refine ⟨_, exec_congr hsame h, ?_⟩
  rcases exec_unhalted_cases hh h with ⟨f, hf, rfl⟩ | ⟨h0, rfl⟩
  · rw [hf, command_fault hh']
    exact ⟨rfl, rfl, rfl, rfl, nofun, nofun⟩
  · rw [h0, command_effect hh', ← result_givesRes0 s i, ← result_givesRes1 s i]
    exact apply_withEarlier v v' e

end Sys2Proof.Machine
end

section
/-! PROOFS. Reset and a write by the host, and the layout of STATUS (10_state.md R20, R22, R26; 60_exceptions.md R126;
70_reset_and_hazards.md R150, R152). -/

namespace Sys2Proof.Machine

/-- Settles O10. -/
theorem hostResetGivesResetState : Obligations.HostResetGivesResetState := by
  intro s rest h
  have hstep : step s = .next (s.withHost rest).hostReset := by
    rw [step_eq, h]
    rfl
  refine ⟨_, hstep, rfl, List.length_replicate, fun n => ?_, rfl, rfl, rfl, ?_, rfl, rfl, fun _ => rfl, rfl, rfl, rfl⟩
  · rw [hostReset_slot]
    exact ⟨rfl, rfl, rfl⟩
  · simp [State.statusWord, errField]

/-- Settles O12, by the reading of CBUF after one write. -/
theorem hostWriteStoresOneByte : Obligations.HostWriteStoresOneByte := by
  intro s a b rest h hb ha
  have hstep : step s = .next ((s.withHost rest).writeCbuf a b) := by
    rw [step_eq, h]
    exact whenIdle_eq_next.mpr ⟨hb, whenCbufByte_eq_next.mpr ⟨ha, rfl⟩⟩
  have hbyte := writeCbuf_cbufByte (s.withHost rest) a b
  exact ⟨_, hstep, (hbyte a).trans (if_pos rfl), fun p hp => (hbyte p).trans (if_neg hp),
    rfl, rfl, rfl, rfl, rfl, rfl, rfl⟩

/-- STATUS bit by bit: ERR, HALT, BUSY, and zeros above (R20). -/
theorem statusWord_getLsbD (s : State) (n : Nat) :
    s.statusWord.getLsbD n =
      if n < 8 then (errField s.err).getLsbD n else if n = 8 then s.halt else decide (n = 9) && s.busy := by
  simp only [State.statusWord, BitVec.getLsbD_append]
  by_cases hErr : n < 8
  · simp only [hErr, if_true]
  · obtain ⟨m, rfl⟩ := Nat.exists_eq_add_of_le (Nat.le_of_not_lt hErr)
    rcases m with _ | _ | m
    · simp
    · simp
    · have h9 : 8 + (m + 1 + 1) ≠ 9 := by omega
      simp [h9]

/-- Settles O14: the fields by `statusWord_getLsbD`, the thirteen codes by evaluation. -/
theorem statusWordLayout : Obligations.StatusWordLayout := by
  refine ⟨fun s => ⟨BitVec.extractLsb'_append_eq_right, statusWord_getLsbD s 8, statusWord_getLsbD s 9, fun n hn => ?_⟩,
    by decide⟩
  rw [statusWord_getLsbD, if_neg (by omega), if_neg (by omega), decide_eq_false (by omega), Bool.false_and]

end Sys2Proof.Machine
end

section
/-! PROOFS. The host's reads, the idle block, and the host actions outside the table of the interface (20_memory.md R36,
R37; 60_exceptions.md R138; 70_reset_and_hazards.md R152). -/

namespace Sys2Proof.Machine

variable {s : State}

/-- A block idles when the host has no action left (R138, R156). -/
theorem step_of_host_nil (h : s.host = []) : step s = .next s := by
  rw [step_eq, h]

/-- A step takes the host's next action (R152). -/
theorem step_of_host_cons {act : HostAction} {rest : List HostAction} (h : s.host = act :: rest) :
    step s = hostAct act (s.withHost rest) := by
  rw [step_eq, h]

/-- Settles O11: a step takes the read, and an idle block answers it below CBUF_BYTES. -/
theorem hostReadsChangeNothing : Obligations.HostReadsChangeNothing := by
  intro s rest
  refine ⟨fun h => ?readStatus, fun hb h => ?readRes0, fun hb h => ?readRes1, fun i hb hi h => ?readCbuf,
    step_of_host_nil⟩
  case readStatus => exact step_of_host_cons h
  case readRes0 => exact (step_of_host_cons h).trans (whenIdle_eq_next.mpr ⟨hb, rfl⟩)
  case readRes1 => exact (step_of_host_cons h).trans (whenIdle_eq_next.mpr ⟨hb, rfl⟩)
  case readCbuf =>
    exact (step_of_host_cons h).trans (whenIdle_eq_next.mpr ⟨hb, whenCbufByte_eq_next.mpr ⟨hi, rfl⟩⟩)

theorem whenIdle_of_idle (hb : s.busy = false) (r : Host.Outcome State Fault Refusal) : whenIdle s r = r := by
  simp [whenIdle, hb]

theorem whenIdle_of_busy (hb : s.busy = true) (r : Host.Outcome State Fault Refusal) :
    whenIdle s r = .refused .hostActionWhileBusy := by
  simp [whenIdle, hb]

theorem whenCbufByte_of_beyond {i : Nat} (hi : s.params.cbufBytes ≤ i) (r : Host.Outcome State Fault Refusal) :
    whenCbufByte s i r = .fault .noSuchCbufByte :=
  if_neg (Nat.not_lt.mpr hi)

/-- Every host action but reset and a STATUS read waits for an idle block (R152, U12). -/
theorem hostAct_of_busy (hb : s.busy = true) {act : HostAction} (hReset : act ≠ .assertReset)
    (hStatus : act ≠ .readStatus) : hostAct act s = .refused .hostActionWhileBusy := by
  cases act with
  | assertReset => exact absurd rfl hReset
  | readStatus => exact absurd rfl hStatus
  | present w => exact whenIdle_of_busy hb _
  | readRes0 => exact whenIdle_of_busy hb _
  | readRes1 => exact whenIdle_of_busy hb _
  | readCbuf i => exact whenIdle_of_busy hb _
  | writeCbuf i b => exact whenIdle_of_busy hb _

/-- Settles O13: a busy block refuses by `hostAct_of_busy`, and an idle one has no byte at CBUF_BYTES or above. -/
theorem hostActionOutsideTheTableStops : Obligations.HostActionOutsideTheTableStops := by
  intro s act rest h
  rw [step_of_host_cons h]
  refine ⟨fun hb => hostAct_of_busy (s := s.withHost rest) hb, fun i hb hi hact => ?_⟩
  have hstop (r : Host.Outcome State Fault Refusal) :
      whenIdle (s.withHost rest) (whenCbufByte (s.withHost rest) i r) = .fault .noSuchCbufByte :=
    (whenIdle_of_idle hb _).trans (whenCbufByte_of_beyond hi r)
  obtain rfl | ⟨b, rfl⟩ := hact
  · exact hstop _
  · exact hstop _

end Sys2Proof.Machine
end

section
/-! PROOFS. The decoder and the encoder agree: a word matches at most one row of the opcode map, a command's word matches
the row that reads it back, and a word that matches a row is the word of the command read (30_encoding.md R45 to R49). -/

namespace Sys2Proof

/-! ### Matching a row, field by field (R45, R49) -/

@[simp] theorem accepts_iff {r : OpRow} {w : CmdWord} : r.accepts w = true ↔ w &&& r.mask = r.pattern :=
  beq_iff_eq

@[simp] theorem packC64_inj {a a' : Imm} {b b' c c' d d' e e' : Byte} :
    packC64 a b c d e = packC64 a' b' c' d' e' ↔ a = a' ∧ b = b' ∧ c = c' ∧ d = d' ∧ e = e' := by
  constructor
  · intro h
    exact ⟨by simpa using congrArg immField h, by simpa using congrArg opField h, by simpa using congrArg rdField h,
      by simpa using congrArg raField h, by simpa using congrArg rbField h⟩
  · rintro ⟨rfl, rfl, rfl, rfl, rfl⟩
    rfl

/-- A word matches a row when each of its five fields matches the row's. -/
theorem accepts_iff_fields {r : OpRow} {w : CmdWord} :
    r.accepts w = true ↔
      immField w &&& immField r.mask = immField r.pattern ∧ opField w &&& opField r.mask = opField r.pattern ∧
      rdField w &&& rdField r.mask = rdField r.pattern ∧ raField w &&& raField r.mask = raField r.pattern ∧
      rbField w &&& rbField r.mask = rbField r.pattern := by
  rw [accepts_iff, ← packC64_inj, ← packC64_and, packC64_fields, packC64_fields, packC64_fields]

/-! ### The rows are disjoint (R49) -/

/-- A word that matches a row has the row's OP, since every mask covers OP. -/
theorem opField_of_accepts {r : OpRow} {w : CmdWord} (hr : r ∈ opTable) (h : r.accepts w = true) :
    opField w = opField r.pattern := by
  have hmask : ∀ r ∈ opTable, opField r.mask = BitVec.allOnes 8 := by decide
  obtain ⟨-, hop, -⟩ := accepts_iff_fields.mp h
  rwa [hmask r hr, BitVec.and_allOnes] at hop

/-- No two rows share an OP. -/
theorem eq_of_opField_pattern {r r' : OpRow} (hr : r ∈ opTable) (hr' : r' ∈ opTable)
    (h : opField r.pattern = opField r'.pattern) : r = r' := by
  have hnodup : (opTable.map fun r => opField r.pattern).Nodup := by decide
  exact List.inj_on_of_nodup_map hnodup hr hr' h

theorem eq_of_accepts {r r' : OpRow} {w : CmdWord} (hr : r ∈ opTable) (hr' : r' ∈ opTable)
    (h : r.accepts w = true) (h' : r'.accepts w = true) : r = r' :=
  eq_of_opField_pattern hr hr' ((opField_of_accepts hr h).symm.trans (opField_of_accepts hr' h'))

/-! ### What the decoder answers (R49, R50) -/

theorem decode_of_accepts {r : OpRow} {w : CmdWord} (hr : r ∈ opTable) (h : r.accepts w = true) :
    decode w = .ok (r.build w) := by
  unfold decode
  cases hf : opTable.find? fun r => r.accepts w with
  | none => exact absurd h (List.find?_eq_none.mp hf r hr)
  | some r' =>
    have hr' : r' ∈ opTable := List.mem_of_find?_eq_some hf
    have h' : r'.accepts w = true := List.find?_some (p := fun r : OpRow => r.accepts w) hf
    rw [eq_of_accepts hr hr' h h']

theorem decode_of_not_accepts {w : CmdWord} (h : ∀ r ∈ opTable, ¬ r.accepts w = true) :
    decode w = .error (rejectReason w) := by
  have hf : (opTable.find? fun r => r.accepts w) = none := List.find?_eq_none.mpr h
  rw [decode, hf]

/-- A word decodes to a command exactly when it matches a row that builds the command. -/
theorem decode_eq_ok_iff {w : CmdWord} {i : Instr} :
    decode w = .ok i ↔ ∃ r ∈ opTable, r.accepts w = true ∧ r.build w = i := by
  constructor
  · intro h
    by_cases hrow : ∃ r ∈ opTable, r.accepts w = true
    · obtain ⟨r, hr, ha⟩ := hrow
      rw [decode_of_accepts hr ha] at h
      exact ⟨r, hr, ha, Except.ok.inj h⟩
    · rw [decode_of_not_accepts fun r hr ha => hrow ⟨r, hr, ha⟩] at h
      cases h
  · rintro ⟨r, hr, ha, rfl⟩
    exact decode_of_accepts hr ha

/-! ### Decoding an encoded command (R46) -/

/-- The family `HasRow`, for whatever command. -/
theorem hasRow (i : Instr) : Laws.HasRow.Statement i := by
  cases i with
  | alloc d => exact Laws.HasRow.alloc d
  | reset d => exact Laws.HasRow.reset d
  | release d => exact Laws.HasRow.release d
  | adds d v => exact Laws.HasRow.adds d v
  | muls d m => exact Laws.HasRow.muls d m
  | divs d a v => exact Laws.HasRow.divs d a v
  | addv d a b => exact Laws.HasRow.addv d a b
  | shl d k => exact Laws.HasRow.shl d k
  | shr d k => exact Laws.HasRow.shr d k
  | fromdec d len => exact Laws.HasRow.fromdec d len
  | todec a capBytes => exact Laws.HasRow.todec a capBytes
  | eqs a v => exact Laws.HasRow.eqs a v
  | dcopy d a => exact Laws.HasRow.dcopy d a
  | rdsz a => exact Laws.HasRow.rdsz a
  | rdl a idx => exact Laws.HasRow.rdl a idx

/-- Settles O2: the command's word matches a row that builds the command, and no other row. -/
theorem decodeOfEncode : Obligations.DecodeOfEncode := fun i hwf => decode_eq_ok_iff.mpr (hasRow i hwf)

/-! ### Encoding a decoded word (R46, R48) -/

theorem slotIndex_lt (f : Byte) : slotIndex f < slotFieldLimit := f.isLt

@[simp] theorem slotByte_slotIndex (f : Byte) : slotByte (slotIndex f) = f := by
  simp [slotByte, slotIndex]

/-- A row takes each slot index from an 8-bit field. -/
theorem build_wf : ∀ r ∈ opTable, ∀ w, (r.build w).wf = true := by
  simp [opTable, limbStoreRows, arithmeticRows, shiftRows, codecRows, inspectRows, Instr.wf, Instr.slotFields,
    slotIndex_lt]

theorem imm_and_ones (x : Imm) : x &&& 0xFFFFFFFF#32 = x := BitVec.and_allOnes

theorem byte_and_ones (x : Byte) : x &&& 0xFF#8 = x := BitVec.and_allOnes

/-- A row's mask covers a field wholly or not at all: a covered field of a matching word is the row's pattern, and an
uncovered one is an operand of the command the row builds. -/
theorem encode_build_eq_packC64 : ∀ r ∈ opTable, ∀ w, r.accepts w = true →
    encode (r.build w) = packC64 (immField w) (opField w) (rdField w) (raField w) (rbField w) := by
  simp only [accepts_iff_fields]
  simp +contextual [opTable, limbStoreRows, arithmeticRows, shiftRows, codecRows, inspectRows, encode, immField,
    opField, rdField, raField, rbField, imm_and_ones, byte_and_ones]

/-- Settles O3: the word matches the row that built the command. -/
theorem encodeOfDecode : Obligations.EncodeOfDecode := by
  intro w i h
  obtain ⟨r, hr, ha, rfl⟩ := decode_eq_ok_iff.mp h
  exact ⟨build_wf r hr w, (encode_build_eq_packC64 r hr w ha).trans (packC64_fields w)⟩

/-! ### The opcode map of the spec (R49) -/

/-- A row has one mnemonic, whatever its operands. -/
theorem build_mnemonic : ∀ r ∈ opTable, ∀ w w', (r.build w).asm.1 = (r.build w').asm.1 := by
  simp [opTable, limbStoreRows, arithmeticRows, shiftRows, codecRows, inspectRows, Instr.asm]

/-- Settles O4: the rows by evaluation, their disjointness by OP, and the decoding by the row that matches. -/
theorem opcodeMapIsTheSpecs : Obligations.OpcodeMapIsTheSpecs := by
  refine ⟨rfl, fun r hr r' hr' w h h' => ?disjoint, fun r hr w h => ?matching, fun w i h => ?decoded⟩
  case disjoint => rw [eq_of_accepts hr hr' (accepts_iff.mpr h) (accepts_iff.mpr h')]
  case matching => exact ⟨r.build w, decode_of_accepts hr (accepts_iff.mpr h), build_mnemonic r hr w 0⟩
  case decoded =>
    obtain ⟨r, hr, ha, rfl⟩ := decode_eq_ok_iff.mp h
    exact ⟨r, hr, accepts_iff.mp ha, build_mnemonic r hr w 0⟩

/-- Settles O1: the words are closed, so the decoder evaluates on each. -/
theorem specWordsDecode : Obligations.SpecWordsDecode :=
  ⟨rfl, rfl, rfl, rfl, rfl, rfl, rfl, rfl, rfl, rfl, rfl⟩

end Sys2Proof
end

section
/-! PROOFS. The assembler form names exactly the well-formed commands (30_encoding.md R48, R52, R53). -/

namespace Sys2Proof

theorem inRange_slot (n : Nat) : (AsmOperand.slot n).inRange = decide (n < slotFieldLimit) := rfl

/-- The immediate of a command is in range, its type being the field (R47). -/
theorem inRange_imm_toNat (v : Imm) : (AsmOperand.imm v.toNat).inRange = true := decide_eq_true v.isLt

/-- A command is well-formed exactly when the operands of its written form are in range. -/
theorem all_inRange_asm (i : Instr) : i.asm.2.all AsmOperand.inRange = i.wf := by
  cases i <;> simp [Instr.asm, inRange_slot, inRange_imm_toNat, Instr.wf, Instr.slotFields]

/-- The written form of a command has the shape that names the command. -/
theorem assembleShape_asm (i : Instr) : assembleShape i.asm.1 i.asm.2 = some i := by
  cases i <;> change some _ = _ <;> simp

/-- An operand as a command holds it: an immediate modulo the width of its field (R47). -/
def AsmOperand.inField : AsmOperand → AsmOperand
  | .slot n => .slot n
  | .imm n => .imm (BitVec.ofNat 32 n).toNat

/-- An operand in range fits its field. -/
theorem inField_of_inRange : ∀ {o : AsmOperand}, o.inRange = true → o.inField = o
  | .slot _, _ => rfl
  | .imm _, h => congrArg AsmOperand.imm (Nat.mod_eq_of_lt (of_decide_eq_true h))

/-- Operands that have the shape of a command are the command's written form, but for the width of an immediate. -/
theorem asm_of_assembleShape {m : String} {ops : List AsmOperand} {i : Instr} (h : assembleShape m ops = some i) :
    i.asm = (m, ops.map AsmOperand.inField) := by
  unfold assembleShape at h
  split at h <;> cases h <;> rfl

theorem assemble_eq_some_iff {m : String} {ops : List AsmOperand} {i : Instr} :
    assemble m ops = some i ↔ ops.all AsmOperand.inRange = true ∧ assembleShape m ops = some i :=
  Option.ite_none_right_eq_some

/-- Settles O6. -/
theorem assemblerFormNamesOneCommand : Obligations.AssemblerFormNamesOneCommand := by
  intro m ops i
  rw [assemble_eq_some_iff]
  constructor
  · rintro ⟨hrange, hshape⟩
    have hfield : ops.map AsmOperand.inField = ops :=
      (List.map_congr_left fun o ho => inField_of_inRange (List.all_eq_true.mp hrange o ho)).trans (List.map_id ops)
    have hasm : i.asm = (m, ops) := by rw [asm_of_assembleShape hshape, hfield]
    refine ⟨?_, hasm⟩
    rw [← all_inRange_asm, hasm]
    exact hrange
  · rintro ⟨hwf, hasm⟩
    have hrange := all_inRange_asm i
    have hshape := assembleShape_asm i
    rw [hasm] at hrange hshape
    exact ⟨hrange.trans hwf, hshape⟩

end Sys2Proof
end

section
/-! PROOFS. The command port: a presented word runs its command, is illegal, or is dropped (30_encoding.md R50, R54;
60_exceptions.md R130; 70_reset_and_hazards.md R152, R154). -/

namespace Sys2Proof.Machine

variable {s : State} {w : CmdWord} {rest : List HostAction}

/-- An idle block takes the word the host presents next to the command port (R54, R152). -/
theorem step_of_host_present (h : s.host = .present w :: rest) (hb : s.busy = false) :
    step s = presentWord (s.withHost rest) w :=
  (step_of_host_cons h).trans (hostAct_present (s := s.withHost rest) hb w)

/-- Settles O7. -/
theorem stepRunsPresentedCommand : Obligations.StepRunsPresentedCommand := by
  intro s w i rest h hb hh hd
  exact (step_of_host_present h hb).trans (presentWord_decoded (s := s.withHost rest) hh hd)

/-- Settles O9. -/
theorem haltedBlockDropsEveryWord : Obligations.HaltedBlockDropsEveryWord := by
  intro s w rest h hb hh
  exact (step_of_host_present h hb).trans (presentWord_halted (s := s.withHost rest) hh w)

theorem withFetchWord_toNat (s : State) (w : CmdWord) : s.withFetchWord 64 w.toNat = s.presentNext w := by
  rw [State.withFetchWord, Nat.mod_eq_of_lt w.isLt, BitVec.ofNat_toNat, BitVec.setWidth_eq]

/-- Settles O8: the step runs the command the word decodes to, and taking the word gives the host's list back. -/
theorem fetchWordRunsItsCommand : Obligations.FetchWordRunsItsCommand := by
  intro s i hb hh hwf
  rw [withFetchWord_toNat]
  exact stepRunsPresentedCommand (s.presentNext (encode i)) (encode i) i s.host rfl hb hh (decodeOfEncode i hwf)

/-- A word that matches no row is illegal (R50). -/
theorem step_of_not_accepts (h : s.host = .present w :: rest) (hb : s.busy = false) (hh : s.halt = false)
    (hrow : ∀ r ∈ opTable, ¬ r.accepts w = true) :
    step s = .next ((s.withHost rest).takeFault .illegalOperation) :=
  (step_of_host_present h hb).trans (presentWord_illegal (s := s.withHost rest) hh (decode_of_not_accepts hrow))

/-- Settles O5: a matching word has its row's OP, so neither a foreign OP nor a mismatch with the row of its OP leaves a
row that matches. -/
theorem illegalWordRaisesIllegalOperation : Obligations.IllegalWordRaisesIllegalOperation := by
  intro s w rest h hb hh
  refine ⟨fun hrow => ?noRow, fun hop => ?foreignOp, fun r hr hop hne => ?unusedField⟩ <;>
    refine step_of_not_accepts h hb hh fun r' hr' ha => ?_
  case noRow => exact hrow r' hr' (accepts_iff.mp ha)
  case foreignOp =>
    rw [opField_of_accepts hr' ha] at hop
    refine hop ((?_ : ∀ r ∈ opTable, opField r.pattern ∈ _) r' hr')
    decide
  case unusedField =>
    obtain rfl := eq_of_opField_pattern hr hr' (hop.symm.trans (opField_of_accepts hr' ha))
    exact hne (accepts_iff.mp ha)

end Sys2Proof.Machine
end

section
/-! PROOFS. The growth procedures: what GuardCheck, GrowByOne and Expand do, and why one growth is enough
(40_limb_store.md R60 to R62, R66). -/

namespace Sys2Proof.Machine

variable {capMax : Option Nat} {x y : Slot}

/-! ### GrowByOne and GuardCheck, told by the limbs -/

theorem aboveCapMax_eq_true_iff {c : Nat} : aboveCapMax capMax c = true ↔ ∃ m, capMax = some m ∧ m < c := by
  cases capMax <;> simp [aboveCapMax]

/-- All that a GrowByOne that does not fail changes: the size, the capacity, and zero limbs above the old ones. -/
theorem growByOne_ok (h : growByOne capMax x = .ok y) :
    y.size = x.size + 1 ∧ y.cap = (if x.size + 1 < x.cap then x.cap else 2 * x.cap) ∧
      y.limbs = x.limbs ++ List.replicate (y.cap - x.cap) 0 := by
  rw [growByOne_eq] at h
  split at h
  case isTrue hlt =>
    cases h
    exact ⟨rfl, (if_pos hlt).symm, by simp⟩
  case isFalse hge =>
    split at h
    · cases h
    · cases h
      refine ⟨rfl, (if_neg hge).symm, ?_⟩
      simp only [two_mul, Nat.add_sub_cancel]

theorem growByOne_limb (h : growByOne capMax x = .ok y) (i : Nat) : y.limb i = x.limb i := by
  obtain ⟨-, -, hlimbs⟩ := growByOne_ok h
  rw [limb_def, hlimbs, getD_append_zeros, limb_def]

theorem growByOne_limbsVal (h : growByOne capMax x = .ok y) : limbsVal y.limbs = limbsVal x.limbs := by
  obtain ⟨-, -, hlimbs⟩ := growByOne_ok h
  rw [hlimbs, limbsVal_append, limbsVal_replicate_zero, Nat.mul_zero, Nat.add_zero]

theorem growByOne_length (h : growByOne capMax x = .ok y) (hlen : x.limbs.length = x.cap) :
    y.limbs.length = y.cap := by
  obtain ⟨-, hcap, hlimbs⟩ := growByOne_ok h
  have hle : x.cap ≤ y.cap := by
    rw [hcap]
    split <;> omega
  rw [hlimbs, List.length_append, List.length_replicate, hlen, Nat.add_sub_cancel' hle]

/-- I2 after a growth, strictly: the capacity test uses the raised size (R61). -/
theorem growByOne_size_lt_cap (h : growByOne capMax x = .ok y) (hc : isCapacity x.cap) (hs : x.size ≤ x.cap) :
    y.size < y.cap := by
  obtain ⟨hsize, hcap, -⟩ := growByOne_ok h
  have h16 := isCapacity_ge hc
  rw [hsize, hcap]
  split <;> omega

theorem growByOne_eq_error_iff : growByOne capMax x = .error .allocationFailure ↔
    x.cap ≤ x.size + 1 ∧ ∃ m, capMax = some m ∧ m < 2 * x.cap := by
  rw [growByOne_eq, ← aboveCapMax_eq_true_iff]
  by_cases hlt : x.size + 1 < x.cap
  · simp [hlt]
  · simp [hlt, Nat.le_of_not_lt hlt]

theorem guardCheck_eq :
    guardCheck capMax x = if x.limb (x.size - 1) = 0#32 then .ok x else growByOne capMax x := by
  unfold guardCheck
  by_cases h : x.limb (x.size - 1) = 0#32 <;> simp [h]

/-- A limb that does not exist reads as zero (log entry 13). -/
theorem limb_of_cap_le (hlen : x.limbs.length = x.cap) {i : Nat} (hi : x.cap ≤ i) : x.limb i = 0#32 :=
  getD_of_length_le x.limbs (hlen.trans_le hi)

/-- Settles O51, by the inversion of GrowByOne. -/
theorem growthProcedures : Obligations.GrowthProcedures := by
  intro capMax x hc hlen hs
  refine ⟨fun y h => ?_, growByOne_eq_error_iff, guardCheck_eq⟩
  obtain ⟨hsize, hcap, -⟩ := growByOne_ok h
  exact ⟨hsize, growByOne_size_lt_cap h hc hs, hcap, growByOne_length h hlen, fun i _ => growByOne_limb h i,
    fun i hi => (growByOne_limb h i).trans (limb_of_cap_le hlen hi)⟩

/-- Settles O52: a zero at index `size - 1` leaves the slot as it is, and any other limb there becomes a used one, with
the zero above it the new guard. -/
theorem oneGrowthIsEnough : Obligations.OneGrowthIsEnough := by
  intro capMax x y hc hlen h1 hs hz h
  have habove (i : Nat) (hi : x.size ≤ i) : x.limb i = 0#32 := by
    rcases Nat.lt_or_ge i x.cap with hlt | hge
    · exact hz i hi hlt
    · exact limb_of_cap_le hlen hge
  rw [guardCheck_eq] at h
  split at h
  case isTrue h0 =>
    cases h
    refine ⟨h0, hs, hlen, fun i hi _ => ?_, rfl, fun _ => rfl, fun hne => absurd h0 hne⟩
    rcases Nat.eq_or_lt_of_le hi with rfl | hlt
    · exact h0
    · exact habove i (by omega)
  case isFalse h0 =>
    have hsize : y.size = x.size + 1 := (growByOne_ok h).1
    have hguard (i : Nat) (hi : y.size - 1 ≤ i) : y.limb i = 0#32 :=
      (growByOne_limb h i).trans (habove i (by omega))
    have hval : y.val = x.val :=
      calc y.val = limbsVal y.limbs := limbsVal_take_of_zero _ _ fun i hi => hguard i (by omega)
        _ = limbsVal x.limbs := growByOne_limbsVal h
        _ = x.val := (limbsVal_take_of_zero _ _ habove).symm
    exact ⟨hguard _ le_rfl, (growByOne_size_lt_cap h hc hs).le, growByOne_length h hlen, fun i hi _ => hguard i hi,
      hval, fun h0' => absurd h0' h0, fun _ => hsize⟩

end Sys2Proof.Machine
end

section
/-! PROOFS. ALLOC, RESET and RELEASE, and the five commands that grow a slot: what they complete with, and the growth that
is fatal (40_limb_store.md R61 to R65, R67; 41_scalar_arithmetic.md R75, R76, R82; 42_vector_add.md R90, R91;
43_shift_engine.md R95; 44_decimal_codec.md R105, R109; 60_exceptions.md R127, R130). -/

namespace Sys2Proof.Machine

variable {s : State} {i : Instr} {d v : Nat} {f : ErrCode}

/-! ### A command by its checks -/

/-- A command whose checks raise a fault reports it (R128, R129). -/
theorem exec_of_firstFault (hh : s.halt = false) (hf : s.firstFault i = some f) :
    exec i s = .next (s.takeFault f) := by
  have hr : s.refuses i = false := by
    cases i with
    | rdsz a => simp [State.refuses, hf]
    | _ => rfl
  rw [exec_eq, hr, hf, command_fault hh]
  rfl

/-- A command that computes a slot writes it back when its checks raise nothing (R54, R128). -/
theorem exec_of_result_slot {r : Except ErrCode Slot} (hh : s.halt = false) (h0 : s.firstFault i = none)
    (hr : s.result i = .slot d r) : exec i s = .next (s.finishSlot d r) := by
  have href : s.refuses i = false := by
    cases i with
    | rdsz a => cases hr
    | _ => rfl
  rw [exec_eq, href, h0, hr, command_effect hh]
  rfl

/-- BadSlot comes first (R128). -/
theorem firstFault_of_badSlot {n : Nat} (hn : n ∈ i.slotFields) (hb : s.params.nslots ≤ n) :
    s.firstFault i = some .badSlot := by
  have h : s.badSlot i.slotFields = some .badSlot := by
    simp only [State.badSlot, raiseIf_eq_some, List.any_eq_true, decide_eq_true_eq, and_true]
    exact ⟨n, hn, hb⟩
  rw [firstFault_eq, h]
  rfl

/-! ### The lifecycle commands (R63 to R65) -/

/-- A command of one slot, which exists, with one condition of its own. -/
theorem firstFault_of_one_condition {c : Bool} (hi : i.slotFields = [d]) (hc : s.ownConditions i = [(c, f)])
    (hd : d < s.params.nslots) : s.firstFault i = raiseIf c f := by
  have hb : s.badSlot [d] = none := by simpa using hd
  rw [firstFault_eq, hi, hb, hc, firstOf_singleton]
  rfl

theorem anyEmpty_singleton (d : Nat) : s.anyEmpty [d] = decide ((s.slot d).cap = 0) := by
  simp [State.anyEmpty]

/-- Settles O15, by the cases of a slot index: no slot, an EMPTY slot, a LIVE slot. -/
theorem lifecycleCommandsResult : Obligations.LifecycleCommandsResult := by
  intro s d hh
  have halloc : d < s.params.nslots → s.firstFault (.alloc d) = raiseIf (!s.anyEmpty [d]) .slotInUse :=
    firstFault_of_one_condition rfl rfl
  have hreset : d < s.params.nslots → s.firstFault (.reset d) = raiseIf (s.anyEmpty [d]) .useAfterRelease :=
    firstFault_of_one_condition rfl rfl
  have hrelease : d < s.params.nslots → s.firstFault (.release d) = raiseIf (s.anyEmpty [d]) .useAfterRelease :=
    firstFault_of_one_condition rfl rfl
  refine ⟨fun hd => ?noSlot, fun hd he => ?empty, fun hd hl => ?live⟩
  case noSlot =>
    have hbad {i : Instr} (hi : d ∈ i.slotFields) : exec i s = .next (s.takeFault .badSlot) :=
      exec_of_firstFault hh (firstFault_of_badSlot hi hd)
    exact ⟨hbad List.mem_cons_self, hbad List.mem_cons_self, hbad List.mem_cons_self⟩
  case empty =>
    have hempty : s.anyEmpty [d] = true := by rw [anyEmpty_singleton, decide_eq_true he]
    rw [hempty] at halloc hreset hrelease
    exact ⟨exec_of_result_slot hh (halloc hd) rfl, exec_of_firstFault hh (hreset hd),
      exec_of_firstFault hh (hrelease hd)⟩
  case live =>
    have hlive : s.anyEmpty [d] = false := by rw [anyEmpty_singleton, decide_eq_false hl]
    rw [hlive] at halloc hreset hrelease
    exact ⟨exec_of_firstFault hh (halloc hd), exec_of_result_slot hh (hreset hd) rfl,
      exec_of_result_slot hh (hrelease hd) rfl⟩

/-! ### The five growing commands on operands that pass their checks -/

/-- A command that needs its slots LIVE has them, and none of its later conditions holds (R128). -/
theorem firstFault_eq_none_of_hasLive {l : List (Bool × ErrCode)} (hn : ∀ n ∈ i.slotFields, s.hasLive n)
    (hc : s.ownConditions i = (s.anyEmpty i.slotFields, .useAfterRelease) :: l) (hl : ∀ c ∈ l, c.1 = false) :
    s.firstFault i = none := by
  refine firstFault_eq_none_iff.mpr ⟨fun n h => (hn n h).1, ?_⟩
  rw [hc, List.forall_mem_cons]
  exact ⟨(anyEmpty_eq_false_iff _).mpr fun n h => (hn n h).2, hl⟩

theorem exec_adds (hs : s.ready) (hd : s.hasLive d) (v : Imm) :
    exec (.adds d v) s =
      .next (s.finishSlot d ((s.slot d).grownTo s.params.capMax ((s.slot d).val + v.toNat))) := by
  rw [← addScalar_eq (hs.slot_ok hd) v.isLt]
  exact exec_of_result_slot hs.2 (firstFault_eq_none_of_hasLive (List.forall_mem_singleton.mpr hd) rfl nofun) rfl

theorem exec_muls (hs : s.ready) (hd : s.hasLive d) (m : Imm) :
    exec (.muls d m) s =
      .next (s.finishSlot d ((s.slot d).grownTo s.params.capMax ((s.slot d).val * m.toNat))) := by
  rw [← mulScalar_eq (hs.slot_ok hd) m.isLt]
  exact exec_of_result_slot hs.2 (firstFault_eq_none_of_hasLive (List.forall_mem_singleton.mpr hd) rfl nofun) rfl

theorem exec_shl (hs : s.ready) (hd : s.hasLive d) {k : Imm} (hk : k.toNat ≤ 31) :
    exec (.shl d k) s =
      .next (s.finishSlot d ((s.slot d).grownTo s.params.capMax ((s.slot d).val * 2 ^ k.toNat))) := by
  have hrange : decide (32 ≤ k.toNat) = false := decide_eq_false (Nat.not_le_of_lt (Nat.lt_succ_of_le hk))
  rw [← shiftLeft_eq (hs.slot_ok hd) hk]
  exact exec_of_result_slot hs.2 (firstFault_eq_none_of_hasLive (List.forall_mem_singleton.mpr hd) rfl
    (List.forall_mem_singleton.mpr hrange)) rfl

/-- ADDV builds its destination anew, at the size of R91. -/
theorem exec_addv {a b : Nat} (hs : s.ready) (hd : s.hasLive d) (ha : s.hasLive a) (hb : s.hasLive b)
    (hda : d ≠ a) (hdb : d ≠ b) :
    exec (.addv d a b) s =
      .next (s.finishSlot d (builtTo s.params.capMax
        (sizeAfter (max (s.slot a).size (s.slot b).size) ((s.slot a).val + (s.slot b).val))
        ((s.slot a).val + (s.slot b).val))) := by
  have hlive : ∀ n ∈ [d, a, b], s.hasLive n := by simp [hd, ha, hb]
  have hdistinct : decide (d = a ∨ d = b) = false := decide_eq_false (not_or.mpr ⟨hda, hdb⟩)
  rw [sizeAfter, ← addVector_eq (hs.slot_ok ha) (hs.slot_ok hb) hs.1.capMax_ge]
  exact exec_of_result_slot hs.2 (firstFault_eq_none_of_hasLive hlive rfl (List.forall_mem_singleton.mpr hdistinct)) rfl

/-- FROMDEC builds its destination anew, EMPTY or LIVE before, at the size of R109. -/
theorem exec_fromdec {len : Imm} (hs : s.ready) (hd : d < s.params.nslots) (hlen : len.toNat ≤ s.params.cbufBytes)
    (hdig : ∀ p, p < len.toNat → notDigit (s.cbufByte p) = false) :
    exec (.fromdec d len) s =
      .next (s.finishSlot d (builtTo s.params.capMax (normalSize (decimalValue (s.cbufString len.toNat)))
        (decimalValue (s.cbufString len.toNat)))) := by
  rw [← parseDigits_fresh hs.1.capMax_ge]
  refine exec_of_result_slot hs.2 (firstFault_eq_none_iff.mpr ⟨?_, ?_⟩) rfl
  · simpa [Instr.slotFields] using hd
  · simpa [State.ownConditions] using ⟨hlen, hdig⟩

/-! ### Growth in place (R82) -/

theorem aboveCapMax_cap_of_ok {capMax : Option Nat} {x : Slot} (h : x.ok capMax) :
    aboveCapMax capMax x.cap = false := by
  cases hcm : capMax with
  | none => rfl
  | some c => simpa [aboveCapMax] using (h.bounded c hcm).1

/-- The content of an in-place command in one formula: the size and the capacity the value asks for, unless that capacity
is above CAP_MAX (R61, R62, R82). -/
theorem grownTo_eq {capMax : Option Nat} {x : Slot} (h : x.ok capMax) (v : Nat) :
    x.grownTo capMax v =
      if aboveCapMax capMax (capAfter x.size x.cap v) then .error .allocationFailure
      else .ok (Slot.holding (sizeAfter x.size v) (capAfter x.size x.cap v) v) := by
  have hcap := aboveCapMax_cap_of_ok h
  unfold Slot.grownTo capAfter sizeAfter
  by_cases hfits : v < limbBase ^ (x.size - 1)
  · simp [hfits, hcap]
  · by_cases hroom : x.size + 1 < x.cap
    · simp [hfits, hroom, hcap]
    · simp [hfits, hroom]

/-- A LIVE slot with room for a value takes it (R82). -/
theorem finishSlot_grownTo_of_hasRoom (hs : s.ready) (hd : s.hasLive d) (hv : v < limbBase ^ (s.slot d).size)
    (hroom : (s.slot d).hasRoom s.params.capMax v) :
    ∃ x, s.finishSlot d ((s.slot d).grownTo s.params.capMax v) = (s.setSlot d x).complete ∧ x.ok s.params.capMax ∧
      x.val = v ∧ x.size = sizeAfter (s.slot d).size x.val ∧
      x.cap = capAfter (s.slot d).size (s.slot d).cap x.val := by
  have hok := hs.slot_ok hd
  have hg := (grownTo_eq hok v).trans (if_neg (Bool.eq_false_iff.mp hroom))
  obtain ⟨hxok, hval⟩ := Slot.grownTo_ok hok.shape hv hg
  refine ⟨_, by rw [hg]; rfl, hxok, hval, ?_, ?_⟩
  · rw [hval, Slot.holding_size]
  · rw [hval, Slot.holding_cap]

/-- A LIVE slot without room for a value is lost to the fatal fault (R62, R130). -/
theorem finishSlot_grownTo_of_not_hasRoom (hs : s.ready) (hd : s.hasLive d)
    (hroom : ¬ (s.slot d).hasRoom s.params.capMax v) :
    s.finishSlot d ((s.slot d).grownTo s.params.capMax v) = (s.spoilSlot d).takeFault .allocationFailure := by
  rw [grownTo_eq (hs.slot_ok hd), if_pos (Bool.not_eq_false _ ▸ hroom)]
  rfl

/-- Settles O16, by the exact sum and the exact product and the size law of in-place growth. -/
theorem addsAndMulsResult : Obligations.AddsAndMulsResult := by
  intro s d v hs hd
  have hok := hs.slot_ok hd
  rw [exec_adds hs hd, exec_muls hs hd]
  simp only [Host.Outcome.next.injEq]
  exact ⟨finishSlot_grownTo_of_hasRoom hs hd (hok.add_lt v.isLt),
    finishSlot_grownTo_of_hasRoom hs hd (hok.mul_lt v.isLt)⟩

/-! ### A destination built anew (R67, R91, R109) -/

theorem leastCapacity_capacityAbove (size : Nat) : leastCapacity size (capacityAbove size) where
  capacity := capacityAbove_isCapacity size
  above := lt_capacityAbove size
  least _ := capacityAbove_le_of_lt

/-- Some capacity above a size is within CAP_MAX exactly when the smallest one is. -/
theorem roomToBuild_iff {capMax : Option Nat} {size : Nat} : roomToBuild capMax size ↔ fitsSize capMax size := by
  constructor
  · rintro ⟨c, hc, hlt, hroom⟩
    by_contra hfit
    have habove := aboveCapMax_mono (capacityAbove_le_of_lt hc hlt) (Bool.not_eq_false _ ▸ hfit)
    exact Bool.noConfusion (hroom.symm.trans habove)
  · exact fun hfit => ⟨_, capacityAbove_isCapacity size, lt_capacityAbove size, hfit⟩

/-- A destination with room for its size is built to it (R67). -/
theorem finishSlot_builtTo_of_roomToBuild {size : Nat} (h1 : 1 ≤ size) (hv : v < limbBase ^ (size - 1))
    (hroom : roomToBuild s.params.capMax size) :
    ∃ x, s.finishSlot d (builtTo s.params.capMax size v) = (s.setSlot d x).complete ∧ x.ok s.params.capMax ∧
      x.val = v ∧ x.size = size ∧ leastCapacity x.size x.cap := by
  have hfit := roomToBuild_iff.mp hroom
  obtain ⟨hok, hval⟩ := built_ok h1 hfit hv
  exact ⟨_, by rw [builtTo_of_fits hfit]; rfl, hok, hval, rfl, leastCapacity_capacityAbove size⟩

/-- A destination without room for its size is lost to the fatal fault (R62, R130). -/
theorem finishSlot_builtTo_of_not_roomToBuild {size : Nat} (hroom : ¬ roomToBuild s.params.capMax size) (v : Nat) :
    s.finishSlot d (builtTo s.params.capMax size v) = (s.spoilSlot d).takeFault .allocationFailure := by
  rw [builtTo_of_not_fits (mt roomToBuild_iff.mpr hroom)]
  rfl

/-- The sum of two LIVE slots fits below the guard at the size of R91, which is at least 1. -/
theorem sum_lt_sizeAfter {capMax : Option Nat} {a b : Slot} (ha : a.ok capMax) (hb : b.ok capMax) :
    1 ≤ sizeAfter (max a.size b.size) (a.val + b.val) ∧
      a.val + b.val < limbBase ^ (sizeAfter (max a.size b.size) (a.val + b.val) - 1) := by
  have hpos : 1 ≤ max a.size b.size := le_max_of_le_left ha.sizePos
  have hav := ha.val_lt.trans_le (limbBase_pow_le (Nat.sub_le_sub_right (le_max_left a.size b.size) 1))
  have hbv := hb.val_lt.trans_le (limbBase_pow_le (Nat.sub_le_sub_right (le_max_right a.size b.size) 1))
  refine ⟨?_, sum_lt_sumSize hpos hav hbv⟩
  unfold sizeAfter
  split <;> omega

/-- Settles O19, by the exact sum at the size of R91. -/
theorem addvResult : Obligations.AddvResult := by
  intro s d a b hs hd ha hb hda hdb hroom
  obtain ⟨hsize, hsum⟩ := sum_lt_sizeAfter (hs.slot_ok ha) (hs.slot_ok hb)
  rw [exec_addv hs hd ha hb hda hdb]
  simp only [Host.Outcome.next.injEq]
  exact finishSlot_builtTo_of_roomToBuild hsize hsum hroom

theorem normalSize_eq_ite (v : Nat) : normalSize v = if v = 0 then 1 else Nat.log2 v / 32 + 2 := by
  unfold normalSize limbCount
  split <;> rfl

/-- Settles O22, by Horner's method at the normalised size (R109). -/
theorem fromdecResult : Obligations.FromdecResult := by
  intro s d len hs hd hlen hdig hroom
  obtain ⟨x, hx, hok, hval, hsize, hcap⟩ :=
    finishSlot_builtTo_of_roomToBuild (d := d) (normalSize_pos _) (lt_pow_limbCount _) hroom
  refine ⟨x, ?_, hok, hval, ?_, hcap⟩
  · rw [exec_fromdec hs hd hlen hdig, hx]
  · rw [hsize, hval, normalSize_eq_ite]

/-- Settles O32: three commands grow in place and two build anew, and neither has room. -/
theorem growthBeyondCapMaxIsFatal : Obligations.GrowthBeyondCapMaxIsFatal := by
  intro s d hs hd
  refine ⟨fun v hl hroom => ?adds, fun m hl hroom => ?muls, fun k hl hk hroom => ?shl,
    fun a b hl ha hb hda hdb hroom => ?addv, fun len hlen hdig hroom => ?fromdec⟩
  case adds => rw [exec_adds hs hl, finishSlot_grownTo_of_not_hasRoom hs hl hroom]
  case muls => rw [exec_muls hs hl, finishSlot_grownTo_of_not_hasRoom hs hl hroom]
  case shl => rw [exec_shl hs hl hk, finishSlot_grownTo_of_not_hasRoom hs hl hroom]
  case addv => rw [exec_addv hs hl ha hb hda hdb, finishSlot_builtTo_of_not_roomToBuild hroom]
  case fromdec => rw [exec_fromdec hs hd hlen hdig, finishSlot_builtTo_of_not_roomToBuild hroom]

end Sys2Proof.Machine
end

section
/-! PROOFS. DIVS: the quotient and the remainder of the division identity, the zero divisor, and the normal form of the
quotient (41_scalar_arithmetic.md R77, R80, R81). -/

namespace Sys2Proof.Machine

variable {s : State} {d a : Nat} {v : Imm}

/-! ### The state DIVS ends in -/

/-- On two LIVE slots that differ, the divisor decides whether DIVS raises a fault (R127, R128). -/
theorem firstFault_divs (hd : s.hasLive d) (ha : s.hasLive a) (hda : d ≠ a) (v : Imm) :
    s.firstFault (.divs d a v) = raiseIf (decide (v.toNat = 0)) .divideByZero := by
  have hbad : s.badSlot [d, a] = none := by simp [hd.1, ha.1]
  have hlive : s.anyEmpty [d, a] = false := (anyEmpty_eq_false_iff _).mpr (by simp [hd.2, ha.2])
  have halias : decide (d = a) = false := decide_eq_false hda
  rw [firstFault_eq, Instr.slotFields, State.ownConditions, hbad, hlive, halias, firstOf_cons, firstOf_cons,
    firstOf_singleton]
  rfl

/-- DIVS by a nonzero divisor never grows beyond CAP_MAX: it completes with the normalised quotient in its destination
and the remainder in RES0 (R77, R80). -/
theorem exec_divs (hs : s.ready) (hd : s.hasLive d) (ha : s.hasLive a) (hda : d ≠ a) (hv : v.toNat ≠ 0) :
    exec (.divs d a v) s =
      .next ((s.setSlot d (Slot.normal ((s.slot a).val / v.toNat))).setRes0
        (BitVec.ofNat 32 ((s.slot a).val % v.toNat))).complete := by
  have hresult : s.result (.divs d a v) =
      .quotient d (.ok (Slot.normal ((s.slot a).val / v.toNat), (s.slot a).val % v.toNat)) := by
    rw [State.result, divScalar_eq (hs.slot_ok ha) hs.1.capMax_isCapacity (Nat.pos_of_ne_zero hv)]
  rw [exec_eq, firstFault_divs hd ha hda, decide_eq_false hv, hresult]
  exact congrArg Host.Outcome.next (command_effect hs.2 _)

/-- The quotient of a LIVE dividend is LIVE, with its own value (R77, R81). -/
theorem quotient_ok (hs : s.ready) (ha : s.hasLive a) (n : Nat) :
    (Slot.normal ((s.slot a).val / n)).ok s.params.capMax ∧
      (Slot.normal ((s.slot a).val / n)).val = (s.slot a).val / n :=
  normal_ok (quotient_fits (hs.slot_ok ha) hs.1.capMax_isCapacity n)

/-- Settles O17: the quotient and the remainder of DIVS are those of the exact numbers, and a remainder below the
divisor fits RES0. -/
theorem divsResult : Obligations.DivsResult := by
  intro s d a v hs hd ha hda
  refine ⟨fun hv => ?nonzero, fun hv => ?zero⟩
  case nonzero =>
    obtain ⟨hok, hval⟩ := quotient_ok hs ha v.toNat
    have hrem : (s.slot a).val % v.toNat < v.toNat := Nat.mod_lt _ (Nat.pos_of_ne_zero hv)
    have hres0 : (BitVec.ofNat 32 ((s.slot a).val % v.toNat)).toNat = (s.slot a).val % v.toNat :=
      (BitVec.toNat_ofNat _ _).trans (Nat.mod_eq_of_lt (hrem.trans v.isLt))
    refine ⟨_, _, exec_divs hs hd ha hda hv, hok, ?_, hres0.trans_lt hrem⟩
    rw [hval, hres0, Nat.div_add_mod']
  case zero =>
    refine exec_of_firstFault hs.2 ?_
    rw [firstFault_divs hd ha hda, decide_eq_true hv]
    rfl

/-! ### The normal form of the quotient (R80) -/

/-- The top used limb of a normalised nonzero value: a zero there would make the value fit below it. -/
theorem normal_topLimb_ne_zero {capMax : Option Nat} {n : Nat} (hok : (Slot.normal n).ok capMax)
    (hval : (Slot.normal n).val = n) (hn : n ≠ 0) : (Slot.normal n).limb ((Slot.normal n).size - 2) ≠ 0 := by
  have hcount : 0 < limbCount n :=
    not_le.mp fun h => hn (Nat.lt_one_iff.mp ((limbCount_le_iff n 0).mp h))
  have hlimbs : limbsVal (Slot.normal n).limbs = n := hok.val_eq.symm.trans hval
  have hbelow : limbsVal (Slot.normal n).limbs < limbBase ^ limbCount n := hlimbs.trans_lt (lt_pow_limbCount n)
  intro h0
  have hlt : n < limbBase ^ (limbCount n - 1) :=
    hlimbs.symm.trans_lt ((topLimb_eq_zero_iff hcount hbelow).mp h0)
  have hle : limbCount n ≤ limbCount n - 1 := (limbCount_le_iff n _).mpr hlt
  omega

/-- Settles O18: DIVS leaves the normalised slot of its quotient. -/
theorem divsQuotientIsNormalised : Obligations.DivsQuotientIsNormalised := by
  intro s d a v hs hd ha hda hv
  obtain ⟨hok, hval⟩ := quotient_ok hs ha v.toNat
  have hexists : d < s.slots.length := hs.1.slotCount ▸ hd.1
  refine ⟨_, exec_divs hs hd ha hda hv, rfl, ?_⟩
  rw [complete_slot, setRes0_slot, setSlot_slot_self s _ hexists, hval]
  exact ⟨rfl, normal_topLimb_ne_zero hok hval, leastCapacity_capacityAbove _⟩

end Sys2Proof.Machine
end

section
/-! PROOFS. SHL and SHR: the range of the shift amount, the shifted value and the size it is left with, and shifting
left and back (43_shift_engine.md R95 to R101). -/

namespace Sys2Proof.Machine

section

variable {capMax : Option Nat} {x y : Slot} {k n : Nat}

/-! ### The top used limb -/

/-- A limb above which the value has nothing is what the limbs below leave of the value. -/
theorem Slot.ok.limb_toNat (h : x.ok capMax) (hv : x.val < limbBase ^ (n + 1)) :
    (x.limb n).toNat = x.val / limbBase ^ n := by
  have hlt : x.val / limbBase ^ n < limbBase := Nat.div_lt_of_lt_mul (pow_succ limbBase n ▸ hv)
  rw [limb_def, limbsVal_digit, ← h.val_eq, Nat.mod_eq_of_lt hlt]

/-- The top used limb of a slot of size `n`, which has its guard above it. -/
theorem Slot.ok.limb_eq_zero_iff (h : x.ok capMax) (h2 : 2 ≤ n) (hv : x.val < limbBase ^ (n - 1)) :
    x.limb (n - 2) = 0#32 ↔ x.val < limbBase ^ (n - 2) := by
  rw [h.val_eq] at hv ⊢
  exact topLimb_eq_zero_iff (Nat.le_sub_one_of_lt h2) hv

/-- LIVE slots are told apart by size, capacity and value (R11, R15). -/
theorem Slot.ok.eq_of_val_eq (hx : x.ok capMax) (hy : y.ok capMax) (hsize : x.size = y.size) (hcap : x.cap = y.cap)
    (hval : x.val = y.val) : x = y := by
  rw [hx.eq_holding, hy.eq_holding, hsize, hcap, hval]

/-! ### The size a left shift leaves (R95) -/

/-- A value shifted by `k` stays below the next limb when its part at the top limb leaves the top `k` bits free. -/
theorem mul_two_pow_lt_iff (hk : k ≤ 32) (v n : Nat) :
    v * 2 ^ k < limbBase ^ (n + 1) ↔ v / limbBase ^ n < 2 ^ (32 - k) := by
  have hpow : limbBase ^ (n + 1) = 2 ^ (32 - k) * limbBase ^ n * 2 ^ k := by
    rw [pow_succ, ← limbBase_split hk]
    ring
  rw [hpow, Nat.mul_lt_mul_right (Nat.two_pow_pos k), Nat.div_lt_iff_lt_mul (Nat.pow_pos (by norm_num))]

/-- A shifted value still fits below the guard unless a bit leaves the top used limb. -/
theorem Slot.ok.shl_lt_iff (h : x.ok capMax) (hk : k ≤ 32) :
    x.val * 2 ^ k < limbBase ^ (x.size - 1) ↔
      ¬ (2 ≤ x.size ∧ 2 ^ (32 - k) ≤ (x.limb (x.size - 2)).toNat) := by
  have hv := h.val_lt
  rcases Nat.lt_or_ge x.size 2 with h1 | h2
  case inl =>
    have hsize : x.size - 1 = 0 := by omega
    rw [hsize, pow_zero, Nat.lt_one_iff] at hv
    simp [hsize, hv, h1]
  case inr =>
    have hsize : x.size - 1 = x.size - 2 + 1 := by omega
    rw [hsize] at hv ⊢
    rw [mul_two_pow_lt_iff hk, h.limb_toNat hv, and_iff_right h2, not_le]

theorem Slot.ok.sizeAfter_shl (h : x.ok capMax) (hk : k ≤ 32) :
    sizeAfter x.size (x.val * 2 ^ k) =
      if 2 ≤ x.size ∧ 2 ^ (32 - k) ≤ (x.limb (x.size - 2)).toNat then x.size + 1 else x.size :=
  (if_congr (h.shl_lt_iff hk) rfl rfl).trans (ite_not _ _ _)

/-! ### The size a right shift leaves (R97, R99, R100) -/

/-- Whatever the slot holds, one limb of shrink at most. -/
theorem shiftRight_size (k : Nat) (x : Slot) :
    (shiftRight k x).size = x.size ∨ (2 < x.size ∧ (shiftRight k x).size = x.size - 1) := by
  have hloop : (shiftRightLoop k (x.size - 1) 0 x).size = x.size := (shiftRightLoop_frame k _ 0 x).1
  unfold shiftRight
  split
  case isTrue => exact Or.inl rfl
  case isFalse =>
    dsimp only
    rw [hloop]
    split
    case isTrue hc => exact Or.inr ⟨hc.1, rfl⟩
    case isFalse => exact Or.inl hloop

theorem shrunkBy_zero (h : x.ok capMax) : x.shrunkBy 0 = x := (shiftRight_eq h (Nat.zero_le 31)).symm

theorem shrunkBy_size_eq (k : Nat) (x : Slot) :
    (x.shrunkBy k).size =
      if k ≠ 0 ∧ 2 < x.size ∧ x.val / 2 ^ k < limbBase ^ (x.size - 2) then x.size - 1 else x.size := rfl

/-- The same, told by the top used limb of the result (R97). -/
theorem shrunkBy_size_eq_of_ok (h : x.ok capMax) (k : Nat) :
    (x.shrunkBy k).size =
      if k ≠ 0 ∧ 2 < x.size ∧ (x.shrunkBy k).limb (x.size - 2) = 0#32 then x.size - 1 else x.size := by
  obtain ⟨hok, hval⟩ := shrunkBy_ok h k
  have hlt : (x.shrunkBy k).val < limbBase ^ (x.size - 1) := hval ▸ (Nat.div_le_self _ _).trans_lt h.val_lt
  refine if_congr (and_congr_right fun _ => and_congr_right fun h2 => ?_) rfl rfl
  rw [hok.limb_eq_zero_iff h2.le hlt, hval]

/-- Shifted left and back, a slot loses a limb exactly when its own top used limb was zero: a limb gained on the way
left is lost on the way back. -/
theorem unshifted_size (hy : y.ok capMax) (hk : k ≤ 31) (hval : x.val = y.val * 2 ^ k)
    (hsize : x.size = sizeAfter y.size (y.val * 2 ^ k)) :
    (x.shrunkBy k).size =
      if k ≠ 0 ∧ 2 < y.size ∧ y.limb (y.size - 2) = 0#32 then y.size - 1 else y.size := by
  have hback : x.val / 2 ^ k = y.val := by rw [hval, Nat.mul_div_cancel _ (Nat.two_pow_pos k)]
  rw [shrunkBy_size_eq, hback]
  by_cases hfit : y.val * 2 ^ k < limbBase ^ (y.size - 1)
  case pos =>
    have hsame : x.size = y.size := hsize.trans (if_pos hfit)
    rw [hsame]
    exact if_congr (and_congr_right fun _ => and_congr_right fun h2 => (hy.limb_eq_zero_iff h2.le hy.val_lt).symm)
      rfl rfl
  case neg =>
    have hgrown : x.size = y.size + 1 := hsize.trans (if_neg hfit)
    obtain ⟨h2, htop⟩ := not_not.mp (mt (hy.shl_lt_iff (by omega)).mpr hfit)
    have hk0 : k ≠ 0 := by
      rintro rfl
      exact hfit (by simpa using hy.val_lt)
    have htop0 : y.limb (y.size - 2) ≠ 0#32 := by
      intro h0
      rw [h0] at htop
      exact absurd htop (not_le.mpr (Nat.two_pow_pos _))
    rw [hgrown, if_pos ⟨hk0, Nat.lt_succ_of_le h2, hy.val_lt⟩, if_neg fun ⟨_, _, h0⟩ => htop0 h0]
    rfl

end

variable {s t : State} {i : Instr} {d : Nat} {k : Imm}

/-! ### The range of the shift amount (R101) -/

/-- On a LIVE slot the shift amount alone decides whether a shift raises a fault (R128). -/
theorem firstFault_shift (hd : s.hasLive d) (hi : i = .shl d k ∨ i = .shr d k) :
    s.firstFault i = raiseIf (decide (32 ≤ k.toNat)) .shiftAmountOutOfRange := by
  have hfields : i.slotFields = [d] := by rcases hi with rfl | rfl <;> rfl
  have hown : s.ownConditions i =
      [(s.anyEmpty [d], .useAfterRelease), (decide (32 ≤ k.toNat), .shiftAmountOutOfRange)] := by
    rcases hi with rfl | rfl <;> rfl
  have hbad : s.badSlot [d] = none := by simp [hd.1]
  have hlive : s.anyEmpty [d] = false := (anyEmpty_eq_false_iff _).mpr (List.forall_mem_singleton.mpr hd.2)
  rw [firstFault_eq, hfields, hown, hbad, hlive, firstOf_cons, firstOf_singleton]
  rfl

theorem firstFault_shift_of_le (hd : s.hasLive d) (hi : i = .shl d k ∨ i = .shr d k) (hk : k.toNat ≤ 31) :
    s.firstFault i = none := by
  rw [firstFault_shift hd hi, raiseIf_eq_none]
  exact decide_eq_false (by omega)

theorem exec_shift_of_ge (hh : s.halt = false) (hd : s.hasLive d) (hi : i = .shl d k ∨ i = .shr d k)
    (hk : 32 ≤ k.toNat) : exec i s = .next (s.takeFault .shiftAmountOutOfRange) :=
  exec_of_firstFault hh ((firstFault_shift hd hi).trans (if_pos (decide_eq_true hk)))

/-- What a legal shift reports comes from its growth, so it can only be AllocationFailure. -/
theorem exec_shift_err_ne (hh : s.halt = false) (hd : s.hasLive d) (hi : i = .shl d k ∨ i = .shr d k)
    (hk : k.toNat ≤ 31) (h : exec i s = .next t) : t.err ≠ some .shiftAmountOutOfRange := by
  have hdest : i.dest = some d := by rcases hi with rfl | rfl <;> rfl
  rw [exec_err hh h, firstFault_shift_of_le hd hi hk]
  intro hf
  cases result_failure_of_dest hdest hf

/-- Settles O34: 32 or more is the fault R128 reports, and below 32 there is none. -/
theorem shiftRangeIsZeroTo31 : Obligations.ShiftRangeIsZeroTo31 := by
  intro s d k hh hd
  exact ⟨fun hk => ⟨exec_shift_of_ge hh hd (.inl rfl) hk, exec_shift_of_ge hh hd (.inr rfl) hk⟩,
    fun hk t ht => ht.elim (exec_shift_err_ne hh hd (.inl rfl) hk) (exec_shift_err_ne hh hd (.inr rfl) hk)⟩

/-! ### SHR in every state (R100) -/

/-- A slot that does not exist reads as EMPTY, whatever is written to it (log entry 13). -/
theorem setSlot_slot_of_length_le {n : Nat} (x : Slot) (h : s.slots.length ≤ n) :
    (s.setSlot n x).slot n = s.slot n := by
  simp [State.slot, State.setSlot, h]

theorem exec_shr_slot_cases (h : exec (.shr d k) s = .next t) :
    t.slot d = s.slot d ∨ t.slot d = shiftRight k.toNat (s.slot d) := by
  rcases exec_next_cases h with ⟨-, rfl⟩ | ⟨-, f, -, rfl⟩ | ⟨-, -, rfl⟩
  · exact Or.inl rfl
  · exact Or.inl (takeFault_slot s f d)
  · rcases Nat.lt_or_ge d s.slots.length with hd | hd
    · exact Or.inr (setSlot_slot_self s _ hd)
    · exact Or.inl (setSlot_slot_of_length_le _ hd)

/-- Settles O48: SHR writes what ShiftRight leaves, or nothing. -/
theorem shrinkFloor : Obligations.ShrinkFloor := by
  intro s t d k h
  rcases exec_shr_slot_cases h with heq | heq
  · rw [heq]
    exact ⟨fun _ => rfl, fun _ => Or.inl rfl, id⟩
  · rw [heq]
    have hsize := shiftRight_size k.toNat (s.slot d)
    omega

/-! ### SHL and SHR of a LIVE slot (R95 to R99) -/

/-- SHL with room for the shifted value completes (R95, R96). -/
theorem exec_shl_of_hasRoom (hs : s.ready) (hd : s.hasLive d) (hk : k.toNat ≤ 31)
    (hroom : (s.slot d).hasRoom s.params.capMax ((s.slot d).val * 2 ^ k.toNat)) :
    ∃ x, exec (.shl d k) s = .next (s.setSlot d x).complete ∧ x.ok s.params.capMax ∧
      x.val = (s.slot d).val * 2 ^ k.toNat ∧ x.size = sizeAfter (s.slot d).size x.val ∧
      x.cap = capAfter (s.slot d).size (s.slot d).cap x.val := by
  rw [exec_shl hs hd hk]
  simp only [Host.Outcome.next.injEq]
  exact finishSlot_grownTo_of_hasRoom hs hd ((hs.slot_ok hd).mul_lt (two_pow_lt_limbBase hk)) hroom

/-- SHR never grows, so it always completes (R97, R98). -/
theorem exec_shr (hs : s.ready) (hd : s.hasLive d) (hk : k.toNat ≤ 31) :
    exec (.shr d k) s = .next (s.setSlot d ((s.slot d).shrunkBy k.toNat)).complete := by
  rw [← shiftRight_eq (hs.slot_ok hd) hk]
  exact exec_of_result_slot hs.2 (firstFault_shift_of_le hd (.inr rfl) hk) rfl

/-- The slot a command just wrote. -/
theorem complete_setSlot_slot_self (hs : s.ready) (hd : s.hasLive d) (x : Slot) :
    (s.setSlot d x).complete.slot d = x :=
  setSlot_slot_self s x (hs.1.slotCount ▸ hd.1)

/-- Settles O20: the size by the bits that leave the top used limb; a shift by 0 leaves size, capacity and value. -/
theorem shlResult : Obligations.ShlResult := by
  intro s d k hs hd hk hroom
  have hok := hs.slot_ok hd
  obtain ⟨x, hx, hxok, hval, hsize, hcap⟩ := exec_shl_of_hasRoom hs hd hk hroom
  refine ⟨x, hx, hxok, hval, ?size, hcap, fun h0 => ?zero⟩
  case size => rw [hsize, hval, hok.sizeAfter_shl (by omega)]
  case zero =>
    have hval' : x.val = (s.slot d).val := by rw [hval, h0, pow_zero, Nat.mul_one]
    have hsize' : sizeAfter (s.slot d).size x.val = (s.slot d).size := if_pos (hval' ▸ hok.val_lt)
    exact hxok.eq_of_val_eq hok (hsize.trans hsize') (hcap.trans (if_pos (Or.inl hsize'))) hval'

/-- Settles O21: SHR leaves `Slot.shrunkBy`, whose size the top used limb of the result decides. -/
theorem shrResult : Obligations.ShrResult := by
  intro s d k hs hd hk
  have hok := hs.slot_ok hd
  obtain ⟨hxok, hval⟩ := shrunkBy_ok hok k.toNat
  refine ⟨_, exec_shr hs hd hk, hxok, hval, rfl, shrunkBy_size_eq_of_ok hok _, fun h0 => ?_⟩
  rw [h0, shrunkBy_zero hok]

/-- Settles O47: SHL leaves the slot LIVE, so SHR takes it, and takes back the limb that SHL may have added. -/
theorem shiftThenUnshift : Obligations.ShiftThenUnshift := by
  intro s d k hs hd hk hroom
  obtain ⟨x, hshl, hxok, hval, hsize, -⟩ := exec_shl_of_hasRoom hs hd hk hroom
  have hx := complete_setSlot_slot_self hs hd x
  have hready : (s.setSlot d x).complete.ready := ⟨exec_inv hs hshl, hs.2⟩
  have hlive : (s.setSlot d x).complete.hasLive d := ⟨hd.1, hx.symm ▸ hxok.live⟩
  have hshr := exec_shr hready hlive hk
  rw [hx] at hshr
  have hback : (x.shrunkBy k.toNat).val = (s.slot d).val := by
    rw [(shrunkBy_ok hxok _).2, hval, Nat.mul_div_cancel _ (Nat.two_pow_pos _)]
  refine ⟨_, _, hshl, hshr, ?_⟩
  rw [complete_setSlot_slot_self hready hlive, unshifted_size (hs.slot_ok hd) hk hval (hval ▸ hsize)]
  refine ⟨hback, fun hkept => ?kept, fun h2 h0 hk0 => ?lost⟩
  case kept =>
    refine if_neg fun ⟨hk0, h2, h0⟩ => ?_
    rcases hkept with hle | hne | hz
    · exact absurd hle (not_le.mpr h2)
    · exact hne h0
    · exact hk0 hz
  case lost =>
    rw [if_pos ⟨hk0, h2, h0⟩]
    omega

end Sys2Proof.Machine
end

section
/-! PROOFS. The Decimal Codec: what TODEC of a LIVE slot leaves, how many digits it gives, the round trip with FROMDEC,
and the bytes FROMDEC does not read (44_decimal_codec.md R105 to R108; 46_control_memory_system.md R121;
60_exceptions.md R129). -/

namespace Sys2Proof.Machine

variable {s t : State} {a d : Nat} {c len : Imm}

/-! ### TODEC of a LIVE slot (R106, R129) -/

/-- On a LIVE slot `cap_bytes` alone decides whether TODEC raises a fault before it runs (R128). -/
theorem firstFault_todec (ha : s.hasLive a) (c : Imm) :
    s.firstFault (.todec a c) = raiseIf (decide (s.params.cbufBytes < c.toNat)) .stringOutOfRange := by
  have hbad : s.badSlot [a] = none := by simp [ha.1]
  have hlive : s.anyEmpty [a] = false := (anyEmpty_eq_false_iff _).mpr (List.forall_mem_singleton.mpr ha.2)
  rw [firstFault_eq, Instr.slotFields, State.ownConditions, hbad, hlive, firstOf_cons, firstOf_singleton]
  rfl

/-- With a legal `cap_bytes`, TODEC renders the value: the decimal string, or BufferTooSmall. -/
theorem exec_todec (hs : s.ready) (ha : s.hasLive a) (hc : c.toNat ≤ s.params.cbufBytes) :
    exec (.todec a c) s = .next (s.finishTodec c.toNat
      (if (decimalString (s.slot a).val).length ≤ c.toNat then .ok (decimalString (s.slot a).val)
        else .error .bufferTooSmall)) := by
  rw [exec_eq, firstFault_todec ha, decide_eq_false (not_lt.mpr hc), result_todec hs ha]
  exact congrArg Host.Outcome.next (command_effect hs.2 _)

/-- TODEC completes exactly when the buffer lies in CBUF and the string fits it. -/
theorem todec_err_eq_none_iff (hs : s.ready) (ha : s.hasLive a) (h : exec (.todec a c) s = .next t) :
    t.err = none ↔ c.toNat ≤ s.params.cbufBytes ∧ (decimalString (s.slot a).val).length ≤ c.toNat := by
  rw [exec_err hs.2 h, orElse_eq_none, firstFault_todec ha, raiseIf_eq_none, decide_eq_false_iff_not, not_lt,
    result_todec hs ha]
  split
  · rename_i hfit
    exact and_congr_right fun _ => ⟨fun _ => hfit, fun _ => rfl⟩
  · rename_i hfit
    exact and_congr_right fun _ => ⟨nofun, fun h => absurd h hfit⟩

/-- Settles O23: the string is written from CBUF[0], and its length, at most `cap_bytes`, fits RES0. -/
theorem todecResult : Obligations.TodecResult := by
  intro s a c hs ha hc hfit
  have hres0 : (BitVec.ofNat 32 (decimalString (s.slot a).val).length).toNat = (decimalString (s.slot a).val).length :=
    (BitVec.toNat_ofNat _ _).trans (Nat.mod_eq_of_lt (hfit.trans_lt c.isLt))
  have hexec := exec_todec hs ha hc
  rw [if_pos hfit] at hexec
  exact ⟨_, hexec, rfl, hs.2, writeString_cbufString s _, fun _ => writeString_cbufByte_outside s _, hres0, rfl,
    rfl⟩

/-- Settles O30: the bytes of the buffer are a new draw, and BufferTooSmall is not fatal. -/
theorem todecBufferTooSmall : Obligations.TodecBufferTooSmall := by
  intro s a c hs ha hc hshort
  have hexec := exec_todec hs ha hc
  rw [if_neg (not_le.mpr hshort)] at hexec
  refine ⟨_, hexec, rfl, ?_, fun p hp => (spoilCbuf_cbufByte s c.toNat p).trans (if_pos hp),
    fun p hp => (spoilCbuf_cbufByte s c.toNat p).trans (if_neg (not_lt.mpr hp)), rfl, rfl, rfl⟩
  exact (Bool.or_false _).trans hs.2

/-! ### How many digits (R108) -/

theorem length_decimalString (v : Nat) : (decimalString v).length = if v = 0 then 1 else Nat.log 10 v + 1 := by
  unfold decimalString
  split
  · rfl
  · rename_i hv
    rw [List.length_reverse, List.length_map, Nat.length_digits 10 v (by norm_num) hv]

/-- A value below `10^n` has at most `n` digits, and 0 has the one it needs. -/
theorem length_decimalString_le {n : Nat} (hn : 1 ≤ n) (hv : v < 10 ^ n) : (decimalString v).length ≤ n := by
  rw [length_decimalString]
  split
  · exact hn
  · rename_i hv0
    exact Nat.log_lt_of_lt_pow hv0 hv

/-- Ten digits hold a limb, so the value of a LIVE slot is below ten digits for each used limb. -/
theorem Slot.ok.val_lt_pow_ten {capMax : Option Nat} {x : Slot} (h : x.ok capMax) :
    x.val < 10 ^ (10 * (x.size - 1)) :=
  calc x.val < limbBase ^ (x.size - 1) := h.val_lt
    _ ≤ (10 ^ 10) ^ (x.size - 1) := Nat.pow_le_pow_left (by norm_num) _
    _ = 10 ^ (10 * (x.size - 1)) := (pow_mul 10 10 _).symm

/-- Settles O50: RES0 is the length of the decimal string, and the string fits ten bytes for each used limb. -/
theorem digitCount : Obligations.DigitCount := by
  intro s t a c hs ha h
  refine ⟨fun herr => ?count, fun hc h1 h10 => ?bound⟩
  case count =>
    obtain ⟨hc, hfit⟩ := (todec_err_eq_none_iff hs ha h).mp herr
    obtain ⟨u, hu, -, -, -, -, hres0, -⟩ := todecResult s a c hs ha hc hfit
    obtain rfl : t = u := Host.Outcome.next.inj (h.symm.trans hu)
    rw [hres0, length_decimalString]
  case bound =>
    have hlt := (hs.slot_ok ha).val_lt_pow_ten.trans_le (Nat.pow_le_pow_right (by norm_num) h10)
    exact (todec_err_eq_none_iff hs ha h).mpr ⟨hc, length_decimalString_le h1 hlt⟩

/-! ### A string of digits is the decimal string of its number (R105 to R107, R121) -/

theorem digit_range_of_not_notDigit {b : Byte} (h : notDigit b = false) : 0x30 ≤ b.toNat ∧ b.toNat ≤ 0x39 := by
  simpa [notDigit] using h

theorem digitValue_lt_ten {b : Byte} (h : notDigit b = false) : digitValue b < 10 := by
  have hrange := digit_range_of_not_notDigit h
  unfold digitValue
  omega

/-- TODEC's digit byte is the byte FROMDEC read (R121). -/
theorem digitByte_digitValue {b : Byte} (h : notDigit b = false) : digitByte (digitValue b) = b := by
  have hrange := digit_range_of_not_notDigit h
  unfold digitByte digitValue
  rw [Nat.add_sub_cancel' hrange.1, BitVec.ofNat_toNat, BitVec.setWidth_eq]

theorem digitValue_pos {b : Byte} (h : notDigit b = false) (h0 : b ≠ 0x30#8) : 0 < digitValue b := by
  refine Nat.pos_of_ne_zero fun hz => h0 ?_
  rw [← digitByte_digitValue h, hz]
  rfl

theorem decimalFrom_append_singleton (bs : List Byte) (b : Byte) :
    ∀ n, decimalFrom n (bs ++ [b]) = 10 * decimalFrom n bs + digitValue b := by
  induction bs with
  | nil => exact fun _ => rfl
  | cons b' bs ih => exact fun n => ih (digitAppended n b')

theorem decimalValue_singleton (b : Byte) : decimalValue [b] = digitValue b := by
  simp [decimalValue, decimalFrom, digitAppended]

/-- A number is not 0 when its string begins with a digit other than `'0'`. -/
theorem decimalValue_pos {b : Byte} (hb : 0 < digitValue b) (bs : List Byte) : 0 < decimalValue (b :: bs) := by
  have h0 : decimalValue (b :: bs) = decimalFrom (digitValue b) bs := by
    rw [decimalValue, decimalFrom, digitAppended, Nat.mul_zero, Nat.zero_add]
  rw [h0]
  exact hb.trans_le (decimalFrom_ge bs _)

/-- The decimal string grows by its last digit (R105, R106). -/
theorem decimalString_append_digit {n : Nat} {b : Byte} (hn : 0 < n) (hb : notDigit b = false) :
    decimalString (10 * n + digitValue b) = decimalString n ++ [b] := by
  have hlt := digitValue_lt_ten hb
  rw [decimalString_large (by omega), show (10 * n + digitValue b) / 10 = n by omega,
    show (10 * n + digitValue b) % 10 = digitValue b by omega, digitByte_digitValue hb]

theorem decimalString_decimalValue_singleton {b : Byte} (hb : notDigit b = false) :
    decimalString (decimalValue [b]) = [b] := by
  rw [decimalValue_singleton, decimalString_small (digitValue_lt_ten hb), digitByte_digitValue hb]

/-- The string of a number that has no leading zero is the one it was read from, digit by digit from the left. -/
theorem decimalString_decimalValue_cons {b : Byte} (hb : notDigit b = false) (h0 : b ≠ 0x30#8) (bs : List Byte) :
    (∀ b' ∈ bs, notDigit b' = false) → decimalString (decimalValue (b :: bs)) = b :: bs := by
  induction bs using List.reverseRecOn with
  | nil => exact fun _ => decimalString_decimalValue_singleton hb
  | append_singleton bs b' ih =>
    intro hbs
    rw [List.forall_mem_append, List.forall_mem_singleton] at hbs
    obtain ⟨hbs, hb'⟩ := hbs
    have hval : decimalValue (b :: (bs ++ [b'])) = 10 * decimalValue (b :: bs) + digitValue b' :=
      decimalFrom_append_singleton (b :: bs) b' 0
    rw [hval, decimalString_append_digit (decimalValue_pos (digitValue_pos hb h0) bs) hb', ih hbs, List.cons_append]

/-! ### The round trip (R107) -/

theorem cbufString_succ (s : State) (n : Nat) :
    s.cbufString (n + 1) = s.cbufByte 0 :: (List.range n).map fun p => s.cbufByte (p + 1) := by
  simp [State.cbufString, List.range_succ_eq_map, Function.comp_def]

/-- A string in CBUF without a superfluous leading zero is in canonical form (R107). -/
theorem decimalString_cbufString {n : Nat} (hdig : ∀ p, p < n → notDigit (s.cbufByte p) = false)
    (hcanon : n = 1 ∨ (1 ≤ n ∧ s.cbufByte 0 ≠ 0x30#8)) :
    decimalString (decimalValue (s.cbufString n)) = s.cbufString n := by
  rcases hcanon with rfl | ⟨hn, h0⟩
  · exact decimalString_decimalValue_singleton (hdig 0 Nat.one_pos)
  · obtain ⟨n, rfl⟩ := Nat.exists_eq_add_of_le' hn
    rw [cbufString_succ]
    refine decimalString_decimalValue_cons (hdig 0 n.succ_pos) h0 _ fun b' hb' => ?_
    obtain ⟨p, hp, rfl⟩ := List.mem_map.mp hb'
    exact hdig (p + 1) (Nat.succ_lt_succ (List.mem_range.mp hp))

/-- Settles O49: FROMDEC leaves a LIVE slot with the number of the string, of which TODEC gives the decimal string. -/
theorem decimalRoundTrip : Obligations.DecimalRoundTrip := by
  intro s d len c hs hd hlen hc hdig hroom hfit
  obtain ⟨x, hfrom, hxok, hval, -, -⟩ := fromdecResult s d len hs hd hlen hdig hroom
  have hx : (s.setSlot d x).complete.slot d = x := setSlot_slot_self s x (hs.1.slotCount ▸ hd)
  have hready : (s.setSlot d x).complete.ready := ⟨exec_inv hs hfrom, hs.2⟩
  have hlive : (s.setSlot d x).complete.hasLive d := ⟨hd, hx.symm ▸ hxok.live⟩
  have hto := todecResult _ d c hready hlive hc
  rw [hx, hval] at hto
  obtain ⟨u, hu, herr, -, hstr, -, hres0, -⟩ := hto hfit
  refine ⟨_, u, hfrom, hu, herr, hres0.symm ▸ hstr, fun hcanon => ?_⟩
  rw [decimalString_cbufString hdig hcanon] at hstr hres0
  have hlength : (s.cbufString len.toNat).length = len.toNat := by simp [State.cbufString]
  rw [hlength] at hstr hres0
  exact ⟨hres0, hstr⟩

/-! ### The bytes FROMDEC does not read (R105) -/

/-- The state with another content of CBUF. -/
def State.withCbuf (s : State) (m : Memory) : State := { s with cbuf := m }

/-- Only a string, which TODEC alone writes back, meets CBUF. -/
theorem apply_withCbuf {w : Writeback} (hw : ∀ k r, w ≠ .string k r) (m : Memory) :
    w.apply (s.withCbuf m) = (w.apply s).withCbuf m := by
  cases w with
  | slot d r => cases r <;> rfl
  | quotient d r => cases r <;> rfl
  | string k r => exact absurd rfl (hw k r)
  | res0 v => rfl
  | res01 v v' => rfl

theorem command_withCbuf (f : Option ErrCode) (e : State) (m : Memory) :
    (s.withCbuf m).command f (e.withCbuf m) = (s.command f e).withCbuf m := by
  rcases command_cases (s := s) f e with ⟨hh, he⟩ | ⟨hh, g, rfl, he⟩ | ⟨hh, rfl, he⟩
  · rw [he, command_halted (s := s.withCbuf m) hh]
  · rw [he, command_fault (s := s.withCbuf m) hh]
    rfl
  · rw [he, command_effect (s := s.withCbuf m) hh]

/-- Settles O53: the string is all that FROMDEC reads of CBUF, and it writes none of it. -/
theorem fromdecIgnoresBytesPastItsString : Obligations.FromdecIgnoresBytesPastItsString := by
  intro s t m d len hbytes h
  have hsame : SameOperands (.fromdec d len) s (s.withCbuf m) :=
    ⟨rfl, rfl, fun _ _ => rfl, by rintro _ _ ⟨⟩; exact hbytes⟩
  have hw := result_ne_string (s := s) (i := .fromdec d len) nofun
  change exec (.fromdec d len) (s.withCbuf m) = .next (t.withCbuf m)
  rw [exec_congr hsame h, apply_withCbuf hw, command_withCbuf, ← exec_next h]

end Sys2Proof.Machine
end

section
/-! PROOFS. EQS, DCOPY, RDSZ and RDL: what they complete with, the faults of DCOPY and RDL, and the refusal of RDSZ
(00_scope.md R5; 45_equality_copy_inspect.md R115 to R118; 93_implementation_defined.md U20). -/

namespace Sys2Proof.Machine

variable {s : State} {i : Instr} {d a : Nat}

/-! ### A command on LIVE slots -/

/-- A command that passes its checks, and whose result the registers can hold, writes its result back (R54, R128). -/
theorem exec_of_checks (hh : s.halt = false) (h0 : s.firstFault i = none) (hr : s.refuses i = false) :
    exec i s = .next ((s.result i).apply s) := by
  rw [exec_eq, hr, h0, command_effect hh]
  rfl

/-- On LIVE slots a command with one more condition is decided by that condition (R128). -/
theorem firstFault_of_hasLive {c : Bool} {f : ErrCode} (hn : ∀ n ∈ i.slotFields, s.hasLive n)
    (hc : s.ownConditions i = [(s.anyEmpty i.slotFields, .useAfterRelease), (c, f)]) :
    s.firstFault i = raiseIf c f := by
  have hbad : s.badSlot i.slotFields = none := (badSlot_eq_none _).mpr fun n h => (hn n h).1
  have hlive : s.anyEmpty i.slotFields = false := (anyEmpty_eq_false_iff _).mpr fun n h => (hn n h).2
  rw [firstFault_eq, hc, hbad, hlive, firstOf_cons, firstOf_singleton]
  rfl

/-! ### EQS (R115) -/

theorem boolRes_decide (p : Prop) [Decidable p] : boolRes (decide p) = if p then 1#32 else 0#32 := by
  by_cases h : p
  · rw [decide_eq_true h, if_pos h]
    rfl
  · rw [decide_eq_false h, if_neg h]
    rfl

/-- Settles O24: the comparison of limbs is the comparison of values. -/
theorem eqsResult : Obligations.EqsResult := by
  intro s a v hs ha
  have h0 : s.firstFault (.eqs a v) = none :=
    firstFault_eq_none_of_hasLive (List.forall_mem_singleton.mpr ha) rfl nofun
  rw [exec_of_checks hs.2 h0 rfl, State.result, equalsScalar_eq (hs.slot_ok ha), boolRes_decide]
  rfl

/-! ### DCOPY (R116) -/

/-- On LIVE slots the room in the destination alone decides whether DCOPY raises a fault (R128). -/
theorem firstFault_dcopy (hd : s.hasLive d) (ha : s.hasLive a) :
    s.firstFault (.dcopy d a) = raiseIf (decide ((s.slot d).cap < (s.slot a).size)) .bufferTooSmall :=
  firstFault_of_hasLive (List.forall_mem_cons.mpr ⟨hd, List.forall_mem_singleton.mpr ha⟩) rfl

/-- With room in the destination DCOPY completes; only a copy to another slot writes one. -/
theorem exec_dcopy (hs : s.ready) (hd : s.hasLive d) (ha : s.hasLive a) (hroom : (s.slot a).size ≤ (s.slot d).cap) :
    exec (.dcopy d a) s =
      .next (if d = a then s.complete else (s.setSlot d (copyInto (s.slot d) (s.slot a))).complete) := by
  have h0 := (firstFault_dcopy hd ha).trans (if_neg (mt of_decide_eq_true (not_lt.mpr hroom)))
  rw [exec_of_checks hs.2 h0 rfl, apply_dcopy]

theorem copyInto_limb_of_lt {dst src : Slot} {n : Nat} (hn : n < src.size) (hroom : src.size ≤ dst.cap) :
    (copyInto dst src).limb n = src.limb n := by
  have hcap : n < dst.cap := hn.trans_le hroom
  rw [limb_def, copyInto]
  simp [hcap, hn]

/-- Settles O25: a slot has room for its own size, so a self-copy never faults; the room decides any other copy. -/
theorem dcopyResult : Obligations.DcopyResult := by
  intro s d a hs hd ha
  refine ⟨fun hda hroom => ?copy, fun hda => ?self, fun hsmall => ?tooSmall⟩
  case copy =>
    obtain ⟨hok, hval⟩ := copyInto_ok (hs.slot_ok hd) (hs.slot_ok ha) hroom
    have hexec := exec_dcopy hs hd ha hroom
    rw [if_neg hda] at hexec
    exact ⟨_, hexec, hok, hval, rfl, rfl, fun _ hn => copyInto_limb_of_lt hn hroom⟩
  case self =>
    subst hda
    rw [exec_dcopy hs hd hd (hs.slot_ok hd).sizeCap, if_pos rfl]
  case tooSmall =>
    exact exec_of_firstFault hs.2 ((firstFault_dcopy hd ha).trans (if_pos (decide_eq_true hsmall)))

/-! ### RDSZ (R117) -/

theorem fitsRegisters_iff {x : Slot} : x.fitsRegisters = true ↔ x.size < 2 ^ 32 ∧ x.cap < 2 ^ 32 := by
  simp [Slot.fitsRegisters]

/-- RDSZ of a LIVE slot completes when the registers can hold what it gives, and is refused when not (U20). -/
theorem exec_rdsz (hs : s.ready) (ha : s.hasLive a) :
    exec (.rdsz a) s =
      if (s.slot a).fitsRegisters then
        .next ((s.setRes0 (BitVec.ofNat 32 (s.slot a).size)).setRes1 (BitVec.ofNat 32 (s.slot a).cap)).complete
      else .refused .sizeBeyondRegister := by
  have h0 : s.firstFault (.rdsz a) = none :=
    firstFault_eq_none_of_hasLive (List.forall_mem_singleton.mpr ha) rfl nofun
  have hr : s.refuses (.rdsz a) = !(s.slot a).fitsRegisters := by simp [State.refuses, hs.2, h0]
  cases hfit : (s.slot a).fitsRegisters with
  | true => exact exec_of_checks hs.2 h0 (by rw [hr, hfit]; rfl)
  | false =>
    rw [exec_eq, hr, hfit]
    rfl

/-- A finite CAP_MAX is at most `2^31`, and bounds the size and the capacity of a LIVE slot (R5, R17). -/
theorem fitsRegisters_of_capMax (hs : s.ready) (ha : s.hasLive a) (hc : s.params.capMax ≠ none) :
    (s.slot a).fitsRegisters = true := by
  obtain ⟨c, hc⟩ := Option.ne_none_iff_exists'.mp hc
  obtain ⟨hcap, hsize⟩ := (hs.slot_ok ha).bounded c hc
  obtain ⟨-, hle⟩ := hs.1.params.cap c hc
  exact fitsRegisters_iff.mpr ⟨by omega, by omega⟩

/-- Settles O26: a number that fits a register is read back from it, and one that does not fit is refused. -/
theorem rdszResult : Obligations.RdszResult := by
  intro s a hs ha
  rw [exec_rdsz hs ha]
  refine ⟨fun h => ?fits, fun h => ?beyond⟩
  case fits =>
    have hfit : (s.slot a).fitsRegisters = true := h.elim (fitsRegisters_of_capMax hs ha) fitsRegisters_iff.mpr
    obtain ⟨hsize, hcap⟩ := fitsRegisters_iff.mp hfit
    rw [if_pos hfit]
    exact ⟨_, _, rfl, (BitVec.toNat_ofNat _ _).trans (Nat.mod_eq_of_lt hsize),
      (BitVec.toNat_ofNat _ _).trans (Nat.mod_eq_of_lt hcap)⟩
  case beyond =>
    refine if_neg fun hfit => ?_
    obtain ⟨hsize, hcap⟩ := fitsRegisters_iff.mp hfit
    omega

/-! ### RDL (R118) -/

/-- On a LIVE slot the index alone decides whether RDL raises a fault (R128). -/
theorem firstFault_rdl (ha : s.hasLive a) (idx : Imm) :
    s.firstFault (.rdl a idx) = raiseIf (decide ((s.slot a).size ≤ idx.toNat)) .indexOutOfRange :=
  firstFault_of_hasLive (List.forall_mem_singleton.mpr ha) rfl

/-- Settles O27: an index below the size reads its limb, and the guard is zero by I1 (R13). -/
theorem rdlResult : Obligations.RdlResult := by
  intro s a idx hs ha
  refine ⟨fun hlt => ⟨?read, fun hguard => ?guard⟩, fun hge => ?beyond⟩
  case read =>
    have h0 := (firstFault_rdl ha idx).trans (if_neg (mt of_decide_eq_true (not_le.mpr hlt)))
    exact exec_of_checks hs.2 h0 rfl
  case guard => exact (hs.slot_ok ha).zeroAbove _ hguard.ge
  case beyond =>
    exact exec_of_firstFault hs.2 ((firstFault_rdl ha idx).trans (if_pos (decide_eq_true hge)))

end Sys2Proof.Machine
end

section
/-! PROOFS. Faults: which one a command reports, what a recoverable and the fatal one leave, which commands can meet the
fatal one, and that a command always ends (60_exceptions.md R125, R127 to R130; 70_reset_and_hazards.md R155). -/

namespace Sys2Proof.Machine

variable {s t : State} {i : Instr} {f : ErrCode}

/-! ### Faults met during the execution (R127, R128) -/

/-- Once its checks have passed a command can fail to grow its destination, and TODEC can fill its buffer; nothing else
fails. -/
theorem result_failure_cases (h : (s.result i).failure = some f) :
    f = .allocationFailure ∨
    (f = .bufferTooSmall ∧ ∃ a capBytes, i = .todec a capBytes ∧
      s.result i = .string capBytes.toNat (.error .bufferTooSmall)) := by
  cases hd : i.dest with
  | some d => exact Or.inl (result_failure_of_dest hd h)
  | none =>
    cases i with
    | todec a capBytes =>
      have hr : renderDigits capBytes.toNat (s.slot a) [] = .error f := faultOf_eq_some.mp h
      rcases renderDigits_cases capBytes.toNat (s.slot a) [] with ⟨ds, hds, -⟩ | hshort
      · cases hds.symm.trans hr
      · cases hshort.symm.trans hr
        exact Or.inr ⟨rfl, a, capBytes, rfl, by rw [State.result, hshort]⟩
    | eqs | rdsz | rdl => cases h
    | _ => cases hd

/-- Settles O28: the port's order, then the command's checks, then the faults of its execution. -/
theorem faultPriority : Obligations.FaultPriority := by
  intro s w
  refine ⟨fun hh => presentWord_halted hh w, fun hh hill => ?illegal,
    fun i hh hdec => ⟨fun f hf => ?first, fun h0 t h => ?execution⟩⟩
  case illegal =>
    cases hdec : decode w with
    | ok i => exact absurd hdec (hill i)
    | error e => exact presentWord_illegal hh hdec
  case first => rw [presentWord_decoded hh hdec, exec_of_firstFault hh hf]
  case execution =>
    rw [presentWord_decoded hh hdec] at h
    have herr : t.err = (s.result i).failure := (exec_err hh h).trans (by rw [h0]; rfl)
    rw [herr]
    cases hf : (s.result i).failure with
    | none => exact Or.inl rfl
    | some f =>
      rcases result_failure_cases hf with rfl | ⟨rfl, a, capBytes, hi, -⟩
      · exact Or.inr (Or.inl rfl)
      · exact Or.inr (Or.inr ⟨rfl, a, capBytes, hi⟩)

/-! ### Recoverable faults (R129) -/

/-- A command that reports a recoverable fault has changed STATUS only, but for the buffer of a TODEC that is too
small. -/
theorem exec_recoverable_cases (hh : s.halt = false) (h : exec i s = .next t) (he : t.err = some f)
    (hf : f ≠ .allocationFailure) :
    t = s.takeFault f ∨
    (f = .bufferTooSmall ∧ ∃ a capBytes, i = .todec a capBytes ∧ t = (s.spoilCbuf capBytes.toNat).takeFault f) := by
  rcases exec_unhalted_cases hh h with ⟨g, -, rfl⟩ | ⟨-, rfl⟩
  · cases he
    exact Or.inl rfl
  · rw [apply_err] at he
    rcases result_failure_cases he with rfl | ⟨rfl, a, capBytes, hi, hr⟩
    · exact absurd rfl hf
    · exact Or.inr ⟨rfl, a, capBytes, hi, by rw [hr]; rfl⟩

/-- Settles O29, by the two states a recoverable fault can leave. -/
theorem recoverableFaultChangesOnlyStatus : Obligations.RecoverableFaultChangesOnlyStatus := by
  intro s t i f hh h he hf
  have hhalt : t.halt = false := by
    rw [Bool.eq_false_iff, ne_eq, exec_halt_iff hh h, he]
    exact fun hfatal => hf (Option.some.inj hfatal)
  refine ⟨hhalt, exec_busy hh h, exec_params_eq h, ?_⟩
  rcases exec_recoverable_cases hh h he hf with rfl | ⟨rfl, a, capBytes, rfl, rfl⟩
  · exact ⟨rfl, rfl, rfl, fun _ _ _ _ _ _ => rfl, fun _ _ => rfl⟩
  · refine ⟨rfl, rfl, rfl, ?outside, fun hother => absurd rfl (hother rfl a capBytes)⟩
    rintro _ _ ⟨⟩ - p hp
    exact (spoilCbuf_cbufByte s capBytes.toNat p).trans (if_neg (not_lt.mpr hp))

/-! ### The fatal fault (R130) -/

/-- A command that reports AllocationFailure has spoiled one slot and entered the fault. -/
theorem Effect.fatal_of_err (h : Effect s i t) (he : t.err = some .allocationFailure) :
    ∃ d, t = (s.spoilSlot d).takeFault .allocationFailure := by
  cases h with
  | fault f hf => exact absurd (Option.some.inj he) hf
  | fatal d => exact ⟨d, rfl⟩
  | _ => cases he

/-- Settles O31: the one state the fatal fault can leave; the spoiled slot is the command's RD by the slot frame. -/
theorem fatalFaultEntersHalt : Obligations.FatalFaultEntersHalt := by
  intro s t i hh h he
  have hhalt : t.halt = true := (exec_halt_iff hh h).mpr he
  have hbusy : t.busy = false := exec_busy hh h
  have hstatus : t.statusWord = 0x00000101#32 := by
    rw [State.statusWord, hhalt, hbusy, he]
    decide
  have hslots : ∀ n, i.dest ≠ some n → t.slot n = s.slot n := fun _ => exec_slot_ne h
  obtain ⟨d, rfl⟩ := (exec_effect hh h).fatal_of_err he
  exact ⟨hhalt, hbusy, hstatus, rfl, rfl, fun _ => rfl, hslots, presentWord_halted hhalt⟩

/-! ### Where the fatal fault comes from (R62, R127) -/

theorem faultOf_grownTo_of_unbounded {capMax : Option Nat} {x : Slot} (hok : x.ok capMax) (hc : capMax = none)
    (v : Nat) : faultOf (x.grownTo capMax v) = none := by
  rw [grownTo_eq hok, hc]
  rfl

theorem faultOf_builtTo_of_unbounded {capMax : Option Nat} (hc : capMax = none) (size v : Nat) :
    faultOf (builtTo capMax size v) = none := by
  rw [hc]
  rfl

/-- With CAP_MAX = ∞ a growing command meets no fault once its checks have passed (R62). -/
theorem result_failure_of_unbounded (hs : s.ready) (h0 : s.firstFault i = none) (hg : i.grows = true)
    (hc : s.params.capMax = none) : (s.result i).failure = none := by
  have hlive := operands_live h0
  cases i with
  | adds d v =>
    have hok := hs.slot_ok (hlive nofun nofun d List.mem_cons_self)
    rw [State.result, addScalar_eq hok v.isLt]
    exact faultOf_grownTo_of_unbounded hok hc _
  | muls d m =>
    have hok := hs.slot_ok (hlive nofun nofun d List.mem_cons_self)
    rw [State.result, mulScalar_eq hok m.isLt]
    exact faultOf_grownTo_of_unbounded hok hc _
  | shl d k =>
    have hok := hs.slot_ok (hlive nofun nofun d List.mem_cons_self)
    rw [State.result, shiftLeft_eq hok (shift_le_of_checks h0 (by simp [State.ownConditions]))]
    exact faultOf_grownTo_of_unbounded hok hc _
  | addv d a b =>
    have ha := hs.slot_ok (hlive nofun nofun a (by simp [Instr.slotFields]))
    have hb := hs.slot_ok (hlive nofun nofun b (by simp [Instr.slotFields]))
    rw [State.result, addVector_eq ha hb hs.1.capMax_ge]
    exact faultOf_builtTo_of_unbounded hc _ _
  | fromdec d len =>
    rw [State.result, parseDigits_fresh hs.1.capMax_ge]
    exact faultOf_builtTo_of_unbounded hc _ _
  | _ => cases hg

/-- Settles O33: no check is fatal, a command that cannot grow a slot never is, and one that can needs a bound. -/
theorem allocationFailureOnlyFromGrowth : Obligations.AllocationFailureOnlyFromGrowth := by
  intro s t i hs h he
  rw [exec_err hs.2 h, orElse_eq_some] at he
  rcases he with hf | ⟨h0, hf⟩
  · exact absurd hf firstFault_ne_allocationFailure
  · have hg : i.grows = true := by
      by_contra hg
      exact result_failure_ne_allocationFailure hs h0 (Bool.eq_false_iff.mpr hg) hf
    refine ⟨hg, fun hc => ?_⟩
    rw [result_failure_of_unbounded hs h0 hg hc] at hf
    cases hf

/-! ### Every command ends (R125, R155) -/

/-- RDSZ is the one command that can be refused, and only with CAP_MAX = ∞ (U20). -/
theorem refuses_eq_false (hs : s.ready) (hi : s.params.capMax ≠ none ∨ ∀ a, i ≠ .rdsz a) : s.refuses i = false := by
  cases i with
  | rdsz a =>
    have hc : s.params.capMax ≠ none := hi.resolve_right fun hne => hne a rfl
    cases h0 : s.firstFault (.rdsz a) with
    | some f => simp [State.refuses, h0]
    | none =>
      have ha := operands_live h0 nofun nofun a List.mem_cons_self
      simp [State.refuses, fitsRegisters_of_capMax hs ha hc]
  | _ => rfl

/-- Settles O35: a command that is not refused answers a next state, whose STATUS is that of any finished command. -/
theorem everyCommandEnds : Obligations.EveryCommandEnds := by
  intro s i hs hi
  have h : exec i s = .next (s.command (s.firstFault i) ((s.result i).apply s)) := by
    rw [exec_eq, refuses_eq_false hs hi]
    rfl
  exact ⟨_, h, exec_busy hs.2 h, exec_halt_iff hs.2 h⟩

end Sys2Proof.Machine
end
